-- ==== Sys2Proof/Word.lean ====
section
/-! DEFINITION. The word types of the block (spec/00_scope.md R4, R5, R6): unsigned bit vectors, bit 0 the
least significant. Addition, exclusive or and the logical shifts of R6 are those of `BitVec`. -/

namespace Sys2Proof

/-- A State word, an address, an operand: 64 bits (R4). -/
abbrev Word := BitVec 64

/-- The smallest addressable unit of the data memory (R40). -/
abbrev Byte := BitVec 8

/-- A command word (R60). -/
abbrev CmdWord := BitVec 32

end Sys2Proof
end

