-- ==== Sys2Proof/Config.lean ====
section
/-! DEFINITION. What a run fixes and the spec leaves OPEN (spec/00_scope.md R4), as plain data that State
carries, and the free values. -/

namespace Sys2Proof

/-- The data memory (R40): byte addresses in rising order, no entry equal to `Config.unlistedByte`. -/
abbrev Memory := List Host.Cell

/-- What an address that the list does not name holds. A convention of the representation: every content of
the memory, hence every `M0`, is some list (log 11). -/
def Config.unlistedByte : Byte := 0

/-- `BYTE_ORDER` (R4, R42), the two orders the model offers (log 10). -/
inductive ByteOrder where
  | little
  | big
  deriving DecidableEq, Repr

/-- The byte addresses `base`, …, `base + size - 1`. -/
structure Region where
  base : Nat
  size : Nat
  deriving DecidableEq, Repr

/-- The OPEN parameters of R4. A run keeps them (log 1). -/
structure Params where
  /-- `N_AGENTS`. -/
  nAgents : Nat
  /-- `HAS_CAS128`. -/
  hasCas128 : Bool
  /-- `Admit`: the addresses at which the memory admits an 8-byte access, as ranges (log 20). -/
  admitRanges : List Region
  /-- `BYTE_ORDER`. -/
  byteOrder : ByteOrder
  /-- `M0`, the memory's contents at the start of a run. -/
  m0 : Memory
  deriving DecidableEq, Repr

/-- The parameters `State.reset` takes: `HAS_CAS128` as R4 states its reference configuration, the others as
the conventions of spec/95_test_vectors.md and log 2 choose them. DESIGN CHOICE. -/
def Params.reference : Params :=
  { nAgents := 2
    hasCas128 := true
    admitRanges := [{ base := 0, size := 0x100000 }]
    byteOrder := .little
    m0 := [] }

/-- The FREE VALUE an UNSPECIFIED register holds after a reset event (spec/93_implementation_defined.md U8):
of the number of the reset event, the agent and the register. Nothing can be proved of it (log 4). -/
opaque Config.freeValue : Nat → Nat → Nat → Word

end Sys2Proof
end

