-- ==== Sys2Proof/Syntax.lean ====
section
/-! DEFINITION. The requests and commands of the block (spec/30_encoding.md), whole, and the lines of its
assembler (R67, R68). -/

namespace Sys2Proof

/-- The FAM field (R61): Family A, xorshift-based, or Family B, xoroshiro-based. -/
inductive Family where
  | a
  | b
  deriving DecidableEq, Repr

/-- The OP field (R61) of a legal command word. -/
inductive Operation where
  | seed
  | next
  | jump
  deriving DecidableEq, Repr

/-- What the decode function of R64 gives of a legal command word. -/
structure CommandKind where
  op : Operation
  /-- The AT field: the CAS retry loop. -/
  atomic : Bool
  family : Family
  deriving DecidableEq, Repr

/-- Why a command word is illegal (R65). -/
inductive DecodeError where
  /-- Bits 31:4 are not 0. -/
  | reservedBits
  /-- OP is 11. -/
  | reservedOperation
  /-- OP is 00 with AT 1: SEED has no atomic form. -/
  | seedAtomic
  deriving DecidableEq, Repr

/-- The one request format (R60). -/
structure Request where
  cmd : CmdWord
  addr : Word
  opa : Word
  opb : Word
  deriving DecidableEq, Repr

/-- The nine commands (R63), each with all its request's fields. The FAM bit of `seed` and the OPA and OPB
of the others are ignored by the block (R62, R64), but latched, so a command keeps them (log 16). -/
inductive Instr where
  | seed (fam : BitVec 1) (addr s0 s1 : Word)
  | xsNext (addr opa opb : Word)
  | xoNext (addr opa opb : Word)
  | xsNextCas (addr opa opb : Word)
  | xoNextCas (addr opa opb : Word)
  | xsJump (addr opa opb : Word)
  | xoJump (addr opa opb : Word)
  | xsJumpCas (addr opa opb : Word)
  | xoJumpCas (addr opa opb : Word)
  deriving DecidableEq, Repr

/-- The address operand of a command (R62). -/
def Instr.addr : Instr → Word
  | .seed _ addr _ _ => addr
  | .xsNext addr _ _ => addr
  | .xoNext addr _ _ => addr
  | .xsNextCas addr _ _ => addr
  | .xoNextCas addr _ _ => addr
  | .xsJump addr _ _ => addr
  | .xoJump addr _ _ => addr
  | .xsJumpCas addr _ _ => addr
  | .xoJumpCas addr _ _ => addr

/-- The mnemonics of R67. -/
inductive Mnemonic where
  | seed
  | xsNext
  | xoNext
  | xsNextCas
  | xoNextCas
  | xsJump
  | xoJump
  | xsJumpCas
  | xoJumpCas
  deriving DecidableEq, Repr

/-- A row of the opcode map R63: a word `w` selects it when `w &&& mask = value`. -/
structure OpcodeRow where
  mnemonic : Mnemonic
  value : CmdWord
  mask : CmdWord
  deriving DecidableEq, Repr

/-- One line of a program (R67, R68): the agent of its prefix (0 without one), the mnemonic, and the operand
literals in order. -/
structure AsmLine where
  agent : Nat
  mnemonic : Mnemonic
  operands : List Nat
  deriving DecidableEq, Repr

end Sys2Proof
end

