-- ==== Sys2Proof/WellFormed.lean ====
section
/-! DEFINITION. The well-formedness checks. A term of `Instr` needs none: the widths of R60 are in its types
and R62 gives every operand value a meaning. What can be ill formed is a program line (R67, R68), a run's
parameters (R4) and a memory that is not in canonical form. -/

namespace Sys2Proof

/-- How many operands a line of this mnemonic has (R67). -/
def Mnemonic.arity : Mnemonic → Nat
  | .seed => 3
  | .xsNext | .xoNext | .xsNextCas | .xoNextCas | .xsJump | .xoJump | .xsJumpCas | .xoJumpCas => 1

/-- A program line is well formed: an agent of the block (R68), as many operands as the mnemonic takes, and
"unsigned integer literals below 2^64" (R67). -/
def AsmLine.wf (p : Params) (l : AsmLine) : Bool :=
  decide (l.agent < p.nAgents) && decide (l.operands.length = l.mnemonic.arity) &&
    l.operands.all (fun n => decide (n < 2 ^ 64))

/-- A command as the assembler encodes it (R67): 0 in the fields the block ignores. No condition on what the
block accepts: R62 and R65 make the other values legal. -/
def Instr.asmForm : Instr → Bool
  | .seed fam _ _ _ => decide (fam = 0)
  | .xsNext _ opa opb => decide (opa = 0) && decide (opb = 0)
  | .xoNext _ opa opb => decide (opa = 0) && decide (opb = 0)
  | .xsNextCas _ opa opb => decide (opa = 0) && decide (opb = 0)
  | .xoNextCas _ opa opb => decide (opa = 0) && decide (opb = 0)
  | .xsJump _ opa opb => decide (opa = 0) && decide (opb = 0)
  | .xoJump _ opa opb => decide (opa = 0) && decide (opb = 0)
  | .xsJumpCas _ opa opb => decide (opa = 0) && decide (opb = 0)
  | .xoJumpCas _ opa opb => decide (opa = 0) && decide (opb = 0)

/-- The canonical form of a memory: addresses strictly rising, no entry equal to what an unlisted address
reads as. -/
abbrev Memory.wf (m : Memory) : Prop :=
  m.Pairwise (fun c d => c.1 < d.1) ∧ ∀ c ∈ m, c.2 ≠ Config.unlistedByte

/-- The parameters of a run are well formed: `N_AGENTS` is "an integer >= 1" (R4) and `M0` is canonical. -/
abbrev Params.wf (p : Params) : Prop :=
  1 ≤ p.nAgents ∧ Memory.wf p.m0

end Sys2Proof
end

