-- ==== Sys2Proof/Decode.lean ====
section
/-! DEFINITION. Decoding a request (spec/30_encoding.md R61 to R65), total, rejecting by name; then the
encoder, from the same table R63. -/

namespace Sys2Proof

/-- The decode function of R64. -/
def decodeCmd (w : CmdWord) : Except DecodeError CommandKind :=
  let op := w.extractLsb' 0 2
  let at' := w.extractLsb' 2 1
  let fam := w.extractLsb' 3 1
  if w.extractLsb' 4 28 ≠ 0 then .error .reservedBits
  else if op = 3 then .error .reservedOperation
  else if op = 0 ∧ at' = 1 then .error .seedAtomic
  else if op = 0 then .ok ⟨.seed, false, .a⟩
  else .ok ⟨if op = 1 then .next else .jump, decide (at' = 1), if fam = 1 then .b else .a⟩

/-- The command a legal kind and a request's fields make (R62, R63). -/
def Instr.ofKind (k : CommandKind) (r : Request) : Instr :=
  match k with
  | ⟨.seed, _, _⟩ => .seed (r.cmd.extractLsb' 3 1) r.addr r.opa r.opb
  | ⟨.next, false, .a⟩ => .xsNext r.addr r.opa r.opb
  | ⟨.next, false, .b⟩ => .xoNext r.addr r.opa r.opb
  | ⟨.next, true, .a⟩ => .xsNextCas r.addr r.opa r.opb
  | ⟨.next, true, .b⟩ => .xoNextCas r.addr r.opa r.opb
  | ⟨.jump, false, .a⟩ => .xsJump r.addr r.opa r.opb
  | ⟨.jump, false, .b⟩ => .xoJump r.addr r.opa r.opb
  | ⟨.jump, true, .a⟩ => .xsJumpCas r.addr r.opa r.opb
  | ⟨.jump, true, .b⟩ => .xoJumpCas r.addr r.opa r.opb

/-- The command of a request, or the name of what makes its command word illegal. -/
def decode (r : Request) : Except DecodeError Instr :=
  match decodeCmd r.cmd with
  | .error e => .error e
  | .ok k => .ok (Instr.ofKind k r)

/-- A request as one number: CMD in bits 31:0, ADDR in 95:32, OPA in 159:96, OPB in 223:160, the fields in
R60's order. -/
def Request.ofBits (w : Nat) : Request :=
  { cmd := BitVec.ofNat 32 w
    addr := BitVec.ofNat 64 (w >>> 32)
    opa := BitVec.ofNat 64 (w >>> 96)
    opb := BitVec.ofNat 64 (w >>> 160) }

/-- The command the decoder reads from the low `nbits` bits of `w`, the bits above them 0. -/
def decodeTableWord (nbits w : Nat) : Option Instr :=
  match decode (Request.ofBits (w % 2 ^ nbits)) with
  | .ok i => some i
  | .error _ => none

/-- The request of a command: its command word from R63's table (bit 3 of a SEED word is free), and its
fields whole (R62). -/
def encode : Instr → Request
  | .seed fam addr s0 s1 => ⟨(fam.setWidth 32) <<< 3, addr, s0, s1⟩
  | .xsNext addr opa opb => ⟨0x00000001, addr, opa, opb⟩
  | .xoNext addr opa opb => ⟨0x00000009, addr, opa, opb⟩
  | .xsNextCas addr opa opb => ⟨0x00000005, addr, opa, opb⟩
  | .xoNextCas addr opa opb => ⟨0x0000000D, addr, opa, opb⟩
  | .xsJump addr opa opb => ⟨0x00000002, addr, opa, opb⟩
  | .xoJump addr opa opb => ⟨0x0000000A, addr, opa, opb⟩
  | .xsJumpCas addr opa opb => ⟨0x00000006, addr, opa, opb⟩
  | .xoJumpCas addr opa opb => ⟨0x0000000E, addr, opa, opb⟩

/-- The fields OP, AT and FAM of a command, as R63's table has them; SEED counts as family A (R64). -/
def Instr.kind : Instr → CommandKind
  | .seed _ _ _ _ => ⟨.seed, false, .a⟩
  | .xsNext _ _ _ => ⟨.next, false, .a⟩
  | .xoNext _ _ _ => ⟨.next, false, .b⟩
  | .xsNextCas _ _ _ => ⟨.next, true, .a⟩
  | .xoNextCas _ _ _ => ⟨.next, true, .b⟩
  | .xsJump _ _ _ => ⟨.jump, false, .a⟩
  | .xoJump _ _ _ => ⟨.jump, false, .b⟩
  | .xsJumpCas _ _ _ => ⟨.jump, true, .a⟩
  | .xoJumpCas _ _ _ => ⟨.jump, true, .b⟩

/-- The opcode map of R63. -/
def opcodeTable : List OpcodeRow :=
  [ ⟨.seed, 0x00000000, 0xFFFFFFF7⟩, ⟨.xsNext, 0x00000001, 0xFFFFFFFF⟩, ⟨.xoNext, 0x00000009, 0xFFFFFFFF⟩,
    ⟨.xsNextCas, 0x00000005, 0xFFFFFFFF⟩, ⟨.xoNextCas, 0x0000000D, 0xFFFFFFFF⟩,
    ⟨.xsJump, 0x00000002, 0xFFFFFFFF⟩, ⟨.xoJump, 0x0000000A, 0xFFFFFFFF⟩,
    ⟨.xsJumpCas, 0x00000006, 0xFFFFFFFF⟩, ⟨.xoJumpCas, 0x0000000E, 0xFFFFFFFF⟩ ]

/-- The rows of R63 a command word selects. -/
def rowsSelected (w : CmdWord) : List Mnemonic :=
  (opcodeTable.filter (fun row => decide (w &&& row.mask = row.value))).map OpcodeRow.mnemonic

/-- The mnemonic of a command (R67). -/
def Instr.mnemonic : Instr → Mnemonic
  | .seed _ _ _ _ => .seed
  | .xsNext _ _ _ => .xsNext
  | .xoNext _ _ _ => .xoNext
  | .xsNextCas _ _ _ => .xsNextCas
  | .xoNextCas _ _ _ => .xoNextCas
  | .xsJump _ _ _ => .xsJump
  | .xoJump _ _ _ => .xoJump
  | .xsJumpCas _ _ _ => .xsJumpCas
  | .xoJumpCas _ _ _ => .xoJumpCas

end Sys2Proof
end

