-- ==== Sys2Proof/Machine/State.lean ====
section
/-! DEFINITION. The state of the block and of its surroundings as plain data (spec/10_state.md), the moves of
R20 and R170, the reasons a step can stop, and the state after reset. -/

namespace Sys2Proof.Machine

open Sys2Proof

/-- The phase register (R23): which step the agent takes next. -/
inductive Phase where
  | idle
  | seedW0
  | seedW1
  | rd0
  | rd1
  | compute
  | jiter
  | cas
  | wr0
  | wr1
  | resp
  | halted
  deriving DecidableEq, Repr

/-- The status codes of R29; `Flags.lean` gives their numbers. -/
inductive Status where
  | ok
  | illegalCommand
  | casUnsupported
  | misaligned
  | accessFault
  deriving DecidableEq, Repr

/-- A generator State (s0, s1) (R5): the value of a cell, a snapshot, a candidate. -/
structure GenState where
  s0 : Word
  s1 : Word
  deriving DecidableEq, Repr

/-- The registers of the Jump Engine's loop (R27, R91). -/
structure JumpRegs where
  acc : GenState
  w : GenState
  deriving DecidableEq, Repr

/-- A response (R33, R35). -/
structure Response where
  status : Byte
  out : Word
  deriving DecidableEq, Repr

/-- One agent: its registers and slots (R23 to R33). -/
structure Agent where
  phase : Phase
  busy : Bool
  req : Option Request
  rsp : Option Response
  cmdr : CmdWord
  addrr : Word
  opa : Word
  opb : Word
  exp0 : Word
  exp1 : Word
  cand0 : Word
  cand1 : Word
  outr : Word
  acc0 : Word
  acc1 : Word
  w0 : Word
  w1 : Word
  k : Byte
  fault : Byte
  faultCmd : CmdWord
  faultAddr : Word
  deriving DecidableEq, Repr

/-- Who makes a memory event (R50): an agent, or a memory user outside the block (R47). -/
inductive Actor where
  | agent (j : Nat)
  | user (u : Nat)
  deriving DecidableEq, Repr

/-- The width of an access: 64 bits, or the narrower ones a memory user may make (R47, log 9). -/
inductive Width where
  | w8
  | w16
  | w32
  | w64
  deriving DecidableEq, Repr

/-- One event of the memory order (R44 to R47, R50), with the value it saw or left. -/
inductive MemEvent where
  | read (who : Actor) (addr : Word) (width : Width) (value : Word)
  | write (who : Actor) (addr : Word) (width : Width) (value : Word)
  | cas (who : Actor) (addr : Word) (e n : GenState) (ok : Bool)
  deriving DecidableEq, Repr

/-- The registers a caller may sample (R170). -/
inductive SampleReg where
  | busy
  | cap
  | fault
  | faultCmd
  | faultAddr
  deriving DecidableEq, Repr

/-- What a caller saw: a response it took, or a register it sampled. -/
inductive Observation where
  | took (agent : Nat) (r : Response)
  | sampled (agent : Nat) (reg : SampleReg) (value : Word)
  deriving DecidableEq, Repr

/-- One move of a run: an agent's step (R20), or a move of the environment, the complete list of R170. -/
inductive Move where
  | agent (j : Nat)
  | present (j : Nat) (r : Request)
  | take (j : Nat)
  | sample (j : Nat) (reg : SampleReg)
  | userRead (u : Nat) (addr : Word) (width : Width)
  | userWrite (u : Nat) (addr : Word) (width : Width) (value : Word)
  | userCas (u : Nat) (addr : Word) (e n : GenState)
  | reset
  deriving DecidableEq, Repr

/-- The whole machine. -/
structure State where
  /-- The OPEN parameters of the run (R4), constant. -/
  params : Params
  /-- The agents, in the order of their numbers (R20). -/
  agents : List Agent
  /-- The data memory (R36, R40). -/
  mem : Memory
  /-- The model's own: the number of the agent that takes the present step (log 6). -/
  active : Nat
  /-- The model's own: the moves to come, in their open order (log 5). -/
  moves : List Move
  /-- The model's own: the memory order so far (R50), newest event first (log 8). -/
  order : List MemEvent
  /-- The model's own: what the callers saw, newest first (log 8). -/
  seen : List Observation
  /-- The model's own: how many reset events there were, the index of the free values (log 4). -/
  resets : Nat
  deriving DecidableEq, Repr

/-- The ways a step stops that are not among the spec's faults, whose entries are next states. All three
are safe: no run from a launch state raises one (log 12). -/
inductive Fault where
  /-- Raised by an agent's memory access whose precondition (R44 to R46, R49) does not hold. Safe. -/
  | memPrecondition
  /-- Raised by a phase the latched command does not have. Safe. -/
  | strayPhase
  /-- Raised by `exec` when `active` is no agent of the block. Safe. -/
  | noActiveAgent
  deriving DecidableEq, Repr

/-- What the model gives no meaning. The last four are moves R170 says the environment never makes. All are
safe (log 15). -/
inductive Refusal where
  /-- Raised by an arm of `exec` that has no meaning yet. Safe. -/
  | notModelled (mnemonic : String)
  /-- Raised by a move of an agent the block does not have. Safe. -/
  | noSuchAgent
  /-- Raised by a caller that presents a request while REQ is full (R33). Safe. -/
  | requestSlotFull
  /-- Raised by a caller that takes from an empty RSP (R33). Safe. -/
  | responseSlotEmpty
  /-- Raised by a memory user's access outside R47 and R170's terms. Safe. -/
  | userAccess
  deriving DecidableEq, Repr

/-- The registers after reset (R39, R160): `u` gives what the UNSPECIFIED ones hold. -/
def Agent.reset (u : Nat → Word) : Agent :=
  { phase := .idle, busy := false, req := none, rsp := none
    cmdr := (u 0).setWidth 32, addrr := u 1, opa := u 2, opb := u 3
    exp0 := u 4, exp1 := u 5, cand0 := u 6, cand1 := u 7, outr := u 8
    acc0 := u 9, acc1 := u 10, w0 := u 11, w1 := u 12, k := (u 13).setWidth 8
    fault := 0, faultCmd := 0, faultAddr := 0 }

/-- The state at the start of a run with the parameters `p` (R4, R39, R160): the UNSPECIFIED registers at 0,
DESIGN CHOICE of log 3. -/
def State.launch (p : Params) : State :=
  { params := p
    agents := List.replicate p.nAgents (Agent.reset (fun _ => 0))
    mem := p.m0
    active := 0
    moves := []
    order := []
    seen := []
    resets := 0 }

/-- The machine right after reset, under the reference parameters (log 2). -/
def State.reset : State := State.launch Params.reference

end Sys2Proof.Machine
end

