-- ==== Sys2Proof/Machine/Flags.lean ====
section
/-! DEFINITION. Status codes and the capability word. The block has no condition codes or flags (R29); the
only status a command produces is the code of its response. -/

namespace Sys2Proof.Machine

open Sys2Proof

/-- The numbers of R29, shared by STATUS and FAULT. -/
def Status.code : Status → Byte
  | .ok => 0
  | .illegalCommand => 1
  | .casUnsupported => 2
  | .misaligned => 3
  | .accessFault => 4

/-- `CAP` (R30): bit 0 is `HAS_CAS128`, bits 1 and 2 are 1, bits 7:3 are 0. A constant of the run, the same
in every agent. -/
def capValue (p : Params) : Byte :=
  (if p.hasCas128 then 0b001 else 0b000) ||| 0b110

/-- The response RESP delivers (R35, R121): OK with OUTR without a fault, the fault's code with 0 after
one. -/
def responseOf (a : Agent) : Response :=
  if a.fault = 0 then ⟨Status.ok.code, a.outr⟩ else ⟨a.fault, 0⟩

end Sys2Proof.Machine
end

