-- ==== Sys2Proof/Machine/Operands.lean ====
section
/-! DEFINITION. Operands: the one addressing mode (R41, R62), alignment (R43), admission (R49), and the
accept check made from them (R140 to R142). -/

namespace Sys2Proof.Machine

open Sys2Proof

/-- The address of a cell's second word, s1 (R41). -/
def secondWord (a : Word) : Word := a + 8

/-- `a mod n = 0` (R43). -/
def alignedTo (n : Nat) (a : Word) : Bool := decide (a.toNat % n = 0)

/-- `Admit(a)` (R4, R49). -/
def admits (p : Params) (a : Word) : Bool :=
  p.admitRanges.any (fun r => decide (r.base ≤ a.toNat) && decide (a.toNat < r.base + r.size))

/-- The cell at `a` is admitted (R49): both words, and no wrap past the top of the address space. -/
def cellAdmitted (p : Params) (a : Word) : Bool :=
  decide (a.toNat ≤ 2 ^ 64 - 16) && admits p a && admits p (secondWord a)

/-- `check` of R141 after a successful decode, in R142's order of priority. -/
def checkKind (p : Params) (k : CommandKind) (a : Word) : Status :=
  if k.atomic && !p.hasCas128 then .casUnsupported
  else if k.atomic && !alignedTo 16 a then .misaligned
  else if !k.atomic && !alignedTo 8 a then .misaligned
  else if !cellAdmitted p a then .accessFault
  else .ok

/-- `check` of R141: total, no memory event. -/
def check (p : Params) (cmd : CmdWord) (a : Word) : Status :=
  match decodeCmd cmd with
  | .error _ => .illegalCommand
  | .ok k => checkKind p k a

/-- The number of bytes of an access. -/
def Width.bytes : Width → Nat
  | .w8 => 1
  | .w16 => 2
  | .w32 => 4
  | .w64 => 8

/-- The address of the 8-aligned word that holds byte `a` (R40). -/
def wordBase (a : Word) : Word := a - BitVec.ofNat 64 (a.toNat % 8)

/-- A memory user's access of R47 and R170: inside one word, and that word admitted (log 9). For 64 bits
this is 8-alignment. -/
def userAccessOk (p : Params) (a : Word) (w : Width) : Bool :=
  decide (a.toNat % 8 + w.bytes ≤ 8) && admits p (wordBase a)

/-- An agent's 64-bit access (R44, R45, R49). -/
def wordAccessOk (p : Params) (a : Word) : Bool := alignedTo 8 a && admits p a

/-- A CAS128 (R46, R47, R49). -/
def casAccessOk (p : Params) (a : Word) : Bool :=
  p.hasCas128 && alignedTo 16 a && admits p a && admits p (secondWord a)

end Sys2Proof.Machine
end

