-- ==== Sys2Proof/Machine/Ops.lean ====
section
/-! DEFINITION. The shared operations: bytes and words of the memory, the three access primitives (R44 to
R46), register access, and taking a fault (R143). There is no return from a fault (R144): only the reset of
Environment.lean leaves HALTED. -/

namespace Sys2Proof.Machine

open Sys2Proof

/-! ### Bytes -/

/-- The byte at an address. -/
def byteAt : Memory → Nat → Byte
  | [], _ => Config.unlistedByte
  | (k, v) :: m, a => if k = a then v else byteAt m a

/-- The memory with one byte written, in canonical form again. -/
def setByte : Memory → Nat → Byte → Memory
  | [], a, b => if b = Config.unlistedByte then [] else [(a, b)]
  | (k, v) :: m, a, b =>
    if a < k then (if b = Config.unlistedByte then (k, v) :: m else (a, b) :: (k, v) :: m)
    else if a = k then (if b = Config.unlistedByte then m else (a, b) :: m)
    else (k, v) :: setByte m a b

/-- The `n` bytes from `a` on. -/
def loadBytes (m : Memory) (a : Nat) : Nat → List Byte
  | 0 => []
  | n + 1 => byteAt m a :: loadBytes m (a + 1) n

/-- The memory with the bytes `bs` written from `a` on. -/
def storeBytes (m : Memory) (a : Nat) : List Byte → Memory
  | [] => m
  | b :: bs => storeBytes (setByte m a b) (a + 1) bs

/-- The number the bytes make, the first least significant. -/
def packBytes : List Byte → Nat
  | [] => 0
  | b :: bs => b.toNat + 256 * packBytes bs

/-- The low `n` bytes of a number, the least significant first. -/
def unpackBytes : Nat → Nat → List Byte
  | 0, _ => []
  | n + 1, v => BitVec.ofNat 8 v :: unpackBytes n (v / 256)

/-- `BYTE_ORDER` (R42): bytes as they lie at rising addresses, from bytes the least significant first, and
back. -/
def inOrder (o : ByteOrder) (bs : List Byte) : List Byte :=
  match o with
  | .little => bs
  | .big => bs.reverse

/-- The value of an access of a width, zero extended (R7's zext, R47). -/
def loadValue (o : ByteOrder) (m : Memory) (a : Nat) (w : Width) : Word :=
  BitVec.ofNat 64 (packBytes (inOrder o (loadBytes m a w.bytes)))

/-- The memory after a write of a width (the low bytes of `v`). -/
def storeValue (o : ByteOrder) (m : Memory) (a : Nat) (w : Width) (v : Word) : Memory :=
  storeBytes m a (inOrder o (unpackBytes w.bytes v.toNat))

/-! ### The access primitives -/

/-- The 64-bit word at `a` (R44). -/
def State.word (s : State) (a : Word) : Word := loadValue s.params.byteOrder s.mem a.toNat .w64

/-- The value of the cell at `a` (R9, R41). -/
def State.cell (s : State) (a : Word) : GenState := ⟨s.word a, s.word (secondWord a)⟩

/-- An event joins the memory order (R50). -/
def State.record (s : State) (e : MemEvent) : State := { s with order := e :: s.order }

/-- `MemWrite` (R45) and the narrower writes of R47, without the event. -/
def State.put (s : State) (a : Word) (w : Width) (v : Word) : State :=
  { s with mem := storeValue s.params.byteOrder s.mem a.toNat w v }

/-- `MemRead` by `who` (R44, R47): the state after the event, which differs in the memory order only. -/
def State.readEvent (s : State) (who : Actor) (a : Word) (w : Width) : State :=
  s.record (.read who a w (loadValue s.params.byteOrder s.mem a.toNat w))

/-- `MemWrite` by `who` (R45, R47). -/
def State.writeEvent (s : State) (who : Actor) (a : Word) (w : Width) (v : Word) : State :=
  (s.put a w v).record (.write who a w v)

/-- What `CAS128` returns (R46, R54): both words of the cell equal the expected ones. -/
def State.casSucceeds (s : State) (a : Word) (e : GenState) : Bool := decide (s.cell a = e)

/-- `CAS128` by `who` (R46): one indivisible event; a failed one writes nothing. -/
def State.casEvent (s : State) (who : Actor) (a : Word) (e n : GenState) : State :=
  if s.casSucceeds a e then
    ((s.put a .w64 n.s0).put (secondWord a) .w64 n.s1).record (.cas who a e n true)
  else s.record (.cas who a e n false)

/-! ### Registers -/

/-- Agent `j` holds `a`; no other agent changes (R20). -/
def State.setAgent (s : State) (j : Nat) (a : Agent) : State := { s with agents := s.agents.set j a }

/-- What the step of the agent that `active` names does. -/
def withActive (s : State) (f : Agent → Host.Outcome State Fault Refusal) :
    Host.Outcome State Fault Refusal :=
  match s.agents[s.active]? with
  | some a => f a
  | none => .fault .noActiveAgent

/-- The active agent now holds `a`. -/
def State.setActive (s : State) (a : Agent) : State := s.setAgent s.active a

/-- The agent latches a request and empties REQ (R110). -/
def latch (r : Request) (a : Agent) : Agent :=
  { a with req := none, cmdr := r.cmd, addrr := r.addr, opa := r.opa, opb := r.opb, busy := true }

/-- The request the agent has latched. -/
def latched (a : Agent) : Request := ⟨a.cmdr, a.addrr, a.opa, a.opb⟩

/-- `raise Fault(code)` of R143, the one fault entry. -/
def raiseFault (code : Status) (a : Agent) : Agent :=
  { a with fault := code.code, faultCmd := a.cmdr, faultAddr := a.addrr, outr := 0, phase := .resp }

/-- What a sample reads (R28, R30 to R32, R170), zero extended to one width. -/
def sampleValue (p : Params) (a : Agent) : SampleReg → Word
  | .busy => if a.busy then 1 else 0
  | .cap => (capValue p).setWidth 64
  | .fault => a.fault.setWidth 64
  | .faultCmd => a.faultCmd.setWidth 64
  | .faultAddr => a.faultAddr

end Sys2Proof.Machine
end

