-- ==== Sys2Proof/Machine/TransitionCore.lean ====
section
/-! DEFINITION. The Transition Core (spec/40_transition_core.md): a function of its operands only (R80). -/

namespace Sys2Proof.Machine

open Sys2Proof

/-- `rotl` of R6, used with 0 < k < 64. -/
def rotl (v : Word) (k : Nat) : Word := (v <<< k) ||| (v >>> (64 - k))

/-- `T_A` (R81): the next State and the output. -/
def transA (s : GenState) : GenState × Word :=
  let t := s.s0 ^^^ (s.s0 <<< 23)
  let n1 := t ^^^ s.s1 ^^^ (t >>> 18) ^^^ (s.s1 >>> 5)
  (⟨s.s1, n1⟩, n1 + s.s1)

/-- `T_B` (R83): the output is of the operands, before the change. -/
def transB (s : GenState) : GenState × Word :=
  let u := s.s1 ^^^ s.s0
  (⟨rotl s.s0 55 ^^^ u ^^^ (u <<< 14), rotl u 36⟩, s.s0 + s.s1)

/-- `T_F` (R80). -/
def trans (f : Family) (s : GenState) : GenState × Word :=
  match f with
  | .a => transA s
  | .b => transB s

/-- `T_F(s).state`. -/
def transState (f : Family) (s : GenState) : GenState := (trans f s).1

/-- `T_F(s).out`. -/
def transOut (f : Family) (s : GenState) : Word := (trans f s).2

/-- The bitwise exclusive or of two States. -/
def GenState.xor (s t : GenState) : GenState := ⟨s.s0 ^^^ t.s0, s.s1 ^^^ t.s1⟩

end Sys2Proof.Machine
end

