-- ==== Sys2Proof/Machine/JumpEngine.lean ====
section
/-! DEFINITION. The Jump Engine (spec/41_jump_engine.md): the masks of R92 and the loop of R91, one iteration
a function. -/

namespace Sys2Proof.Machine

open Sys2Proof

/-- `JF0`, the mask processed first (R92). -/
def jumpMask0 : Family → Word
  | .a => 0x8a5cd789635d2dff
  | .b => 0xbeac0467eba5facb

/-- `JF1`, the mask processed second (R92). -/
def jumpMask1 : Family → Word
  | .a => 0x121fd2155c472f96
  | .b => 0xd86b048b86aa9922

/-- The mask bit iteration `k` tests: bit `k mod 64` of mask `k div 64` (R94, R117). -/
def jumpBit (f : Family) (k : Nat) : Bool :=
  (if k / 64 = 0 then jumpMask0 f else jumpMask1 f).getLsbD (k % 64)

/-- One iteration (R91, R117): the accumulator takes the working copy where the mask bit is set, and the
working copy advances always; its output word is discarded. -/
def jumpIteration (f : Family) (k : Nat) (r : JumpRegs) : JumpRegs :=
  { acc := if jumpBit f k then r.acc.xor r.w else r.acc
    w := transState f r.w }

/-- The start of the loop: accumulator 0, working copy the State (R91, R116). -/
def jumpStart (s : GenState) : JumpRegs := ⟨⟨0, 0⟩, s⟩

/-- The loop's registers after the first `n` iterations. -/
def jumpAfter (f : Family) (s : GenState) : Nat → JumpRegs
  | 0 => jumpStart s
  | n + 1 => jumpIteration f n (jumpAfter f s n)

/-- `J_F` (R91): the accumulator after the 128 iterations. -/
def jump (f : Family) (s : GenState) : GenState := (jumpAfter f s 128).acc

end Sys2Proof.Machine
end

