-- ==== Sys2Proof/Machine/Phases.lean ====
section
/-! DEFINITION. The step rules of spec/42_commands.md section 1, one operation per phase. Each takes the
active agent's registers `a`, is one indivisible transition, and makes at most one memory event (R111). A
step that is not enabled (R123) leaves everything as it is (R154). -/

namespace Sys2Proof.Machine

open Sys2Proof

/-- The first phase after accept of a legal command that passed the check (R110). -/
def firstPhase (op : Operation) : Phase :=
  match op with
  | .seed => .seedW0
  | .next => .rd0
  | .jump => .rd0

/-- The agent after the accept step of R110 when the check gave `code`. -/
def accepted (op : Operation) (code : Status) (r : Request) (a : Agent) : Agent :=
  if code = .ok then
    { latch r a with
      outr := match op with
        | .seed => 0
        | .next => a.outr
        | .jump => a.outr
      phase := firstPhase op }
  else raiseFault code (latch r a)

/-- IDLE, the accept step of a legal request (R110). -/
def acceptStep (k : CommandKind) (r : Request) (s : State) (a : Agent) :
    Host.Outcome State Fault Refusal :=
  match a.req with
  | none => .next s
  | some _ => .next (s.setActive (accepted k.op (checkKind s.params k r.addr) r a))

/-- IDLE, the accept step of a request whose command word is illegal (R110, R140). -/
def acceptIllegal (r : Request) (s : State) (a : Agent) : Host.Outcome State Fault Refusal :=
  .next (s.setActive (raiseFault .illegalCommand (latch r a)))

/-- A phase whose step is `MemRead` of one word (R114, R115). -/
def readStep (addr : Word) (f : Word → Agent) (s : State) : Host.Outcome State Fault Refusal :=
  if wordAccessOk s.params addr then
    .next ((s.readEvent (.agent s.active) addr .w64).setActive (f (s.word addr)))
  else .fault .memPrecondition

/-- A phase whose step is `MemWrite` of one word (R112, R113, R119, R120). -/
def writeStep (addr v : Word) (a' : Agent) (s : State) : Host.Outcome State Fault Refusal :=
  if wordAccessOk s.params addr then
    .next ((s.writeEvent (.agent s.active) addr .w64 v).setActive a')
  else .fault .memPrecondition

/-- SEED_W0 (R112). -/
def seedW0Step (s : State) (a : Agent) : Host.Outcome State Fault Refusal :=
  writeStep a.addrr a.opa { a with phase := .seedW1 } s

/-- SEED_W1 (R113). -/
def seedW1Step (s : State) (a : Agent) : Host.Outcome State Fault Refusal :=
  writeStep (secondWord a.addrr) a.opb { a with phase := .resp } s

/-- RD0 (R114). -/
def rd0Step (s : State) (a : Agent) : Host.Outcome State Fault Refusal :=
  readStep a.addrr (fun v => { a with exp0 := v, phase := .rd1 }) s

/-- RD1 (R115). -/
def rd1Step (s : State) (a : Agent) : Host.Outcome State Fault Refusal :=
  readStep (secondWord a.addrr) (fun v => { a with exp1 := v, phase := .compute }) s

/-- The snapshot (EXP0, EXP1) (R26). -/
def snapshot (a : Agent) : GenState := ⟨a.exp0, a.exp1⟩

/-- The candidate (CAND0, CAND1) (R26). -/
def candidate (a : Agent) : GenState := ⟨a.cand0, a.cand1⟩

/-- The registers of the jump loop (R27). -/
def jumpRegs (a : Agent) : JumpRegs := ⟨⟨a.acc0, a.acc1⟩, ⟨a.w0, a.w1⟩⟩

/-- The agent with the jump loop's registers written. -/
def withJumpRegs (a : Agent) (r : JumpRegs) : Agent :=
  { a with acc0 := r.acc.s0, acc1 := r.acc.s1, w0 := r.w.s0, w1 := r.w.s1 }

/-- The agent with a candidate and an output for its commit, going to CAS or WR0 by its form (R116, R117). -/
def withCandidate (atomic : Bool) (c : GenState) (out : Word) (a : Agent) : Agent :=
  { a with cand0 := c.s0, cand1 := c.s1, outr := out, phase := if atomic then .cas else .wr0 }

/-- The agent after COMPUTE of a NEXT (R116). -/
def computedNext (k : CommandKind) (a : Agent) : Agent :=
  withCandidate k.atomic (transState k.family (snapshot a)) (transOut k.family (snapshot a)) a

/-- The agent after COMPUTE of a JUMP (R116): the loop starts on a private copy. -/
def computedJump (a : Agent) : Agent :=
  { withJumpRegs a (jumpStart (snapshot a)) with k := 0, phase := .jiter }

/-- COMPUTE (R116). -/
def computeStep (k : CommandKind) (s : State) (a : Agent) : Host.Outcome State Fault Refusal :=
  match k.op with
  | .next => .next (s.setActive (computedNext k a))
  | .jump => .next (s.setActive (computedJump a))
  | .seed => .fault .strayPhase

/-- The agent after one JITER step (R117). -/
def iterated (k : CommandKind) (a : Agent) : Agent :=
  if a.k.toNat < 128 then
    { withJumpRegs a (jumpIteration k.family a.k.toNat (jumpRegs a)) with k := a.k + 1 }
  else withCandidate k.atomic (jumpRegs a).acc 0 a

/-- JITER (R117). -/
def jiterStep (k : CommandKind) (s : State) (a : Agent) : Host.Outcome State Fault Refusal :=
  .next (s.setActive (iterated k a))

/-- CAS (R118): RESP after a success, RD0 again after a failure. -/
def casStep (s : State) (a : Agent) : Host.Outcome State Fault Refusal :=
  if casAccessOk s.params a.addrr then
    .next ((s.casEvent (.agent s.active) a.addrr (snapshot a) (candidate a)).setActive
      { a with phase := if s.casSucceeds a.addrr (snapshot a) then .resp else .rd0 })
  else .fault .memPrecondition

/-- WR0 (R119). -/
def wr0Step (s : State) (a : Agent) : Host.Outcome State Fault Refusal :=
  writeStep a.addrr a.cand0 { a with phase := .wr1 } s

/-- WR1 (R120). -/
def wr1Step (s : State) (a : Agent) : Host.Outcome State Fault Refusal :=
  writeStep (secondWord a.addrr) a.cand1 { a with phase := .resp } s

/-- RESP (R121). -/
def respStep (s : State) (a : Agent) : Host.Outcome State Fault Refusal :=
  match a.rsp with
  | some _ => .next s
  | none =>
    .next (s.setActive
      { a with
        rsp := some (responseOf a)
        busy := false
        phase := if a.fault = 0 then .idle else .halted })

/-- HALTED (R122): a request is answered with the first fault's code, and nothing else changes. -/
def haltedStep (s : State) (a : Agent) : Host.Outcome State Fault Refusal :=
  match a.req, a.rsp with
  | some _, none => .next (s.setActive { a with req := none, rsp := some ⟨a.fault, 0⟩ })
  | _, _ => .next s

/-- The step of SEED's machine in the active agent's phase: accept, SEED_W0, SEED_W1, RESP (R130). -/
def seedMachine (k : CommandKind) (r : Request) (s : State) : Host.Outcome State Fault Refusal :=
  withActive s fun a =>
    match a.phase with
    | .idle => acceptStep k r s a
    | .seedW0 => seedW0Step s a
    | .seedW1 => seedW1Step s a
    | .resp => respStep s a
    | .halted => haltedStep s a
    | .rd0 | .rd1 | .compute | .jiter | .cas | .wr0 | .wr1 => .fault .strayPhase

/-- The step of the update machine of NEXT and JUMP in the active agent's phase: read, compute or iterate,
and commit by WR0 and WR1 or by CAS (R131 to R138). -/
def updateMachine (k : CommandKind) (r : Request) (s : State) : Host.Outcome State Fault Refusal :=
  withActive s fun a =>
    match a.phase with
    | .idle => acceptStep k r s a
    | .rd0 => rd0Step s a
    | .rd1 => rd1Step s a
    | .compute => computeStep k s a
    | .jiter => if k.op = .jump then jiterStep k s a else .fault .strayPhase
    | .cas => if k.atomic then casStep s a else .fault .strayPhase
    | .wr0 => if k.atomic then .fault .strayPhase else wr0Step s a
    | .wr1 => if k.atomic then .fault .strayPhase else wr1Step s a
    | .resp => respStep s a
    | .halted => haltedStep s a
    | .seedW0 | .seedW1 => .fault .strayPhase

end Sys2Proof.Machine
end

