-- ==== Sys2Proof/Machine/Jump.lean ====
section
/-! DEFINITION. The JUMP commands (spec/42_commands.md R135 to R138). -/

namespace Sys2Proof.Machine

open Sys2Proof

/-- `xs.jump <addr>` (R135): 2^64 Family A steps, unshared. -/
def execXsJump (addr opa opb : Word) (s : State) : Host.Outcome State Fault Refusal :=
  updateMachine ⟨.jump, false, .a⟩ (encode (.xsJump addr opa opb)) s

/-- `xo.jump <addr>` (R136): 2^64 Family B steps, unshared. -/
def execXoJump (addr opa opb : Word) (s : State) : Host.Outcome State Fault Refusal :=
  updateMachine ⟨.jump, false, .b⟩ (encode (.xoJump addr opa opb)) s

/-- `xs.jump.cas <addr>` (R137): 2^64 Family A steps, by the CAS retry loop. -/
def execXsJumpCas (addr opa opb : Word) (s : State) : Host.Outcome State Fault Refusal :=
  updateMachine ⟨.jump, true, .a⟩ (encode (.xsJumpCas addr opa opb)) s

/-- `xo.jump.cas <addr>` (R138): 2^64 Family B steps, by the CAS retry loop. -/
def execXoJumpCas (addr opa opb : Word) (s : State) : Host.Outcome State Fault Refusal :=
  updateMachine ⟨.jump, true, .b⟩ (encode (.xoJumpCas addr opa opb)) s

end Sys2Proof.Machine
end

