-- ==== Sys2Proof/Machine/Next.lean ====
section
/-! DEFINITION. The NEXT commands (spec/42_commands.md R131 to R134). -/

namespace Sys2Proof.Machine

open Sys2Proof

/-- `xs.next <addr>` (R131): one Family A step, unshared. -/
def execXsNext (addr opa opb : Word) (s : State) : Host.Outcome State Fault Refusal :=
  updateMachine ⟨.next, false, .a⟩ (encode (.xsNext addr opa opb)) s

/-- `xo.next <addr>` (R132): one Family B step, unshared. -/
def execXoNext (addr opa opb : Word) (s : State) : Host.Outcome State Fault Refusal :=
  updateMachine ⟨.next, false, .b⟩ (encode (.xoNext addr opa opb)) s

/-- `xs.next.cas <addr>` (R133): one Family A step, by the CAS retry loop. -/
def execXsNextCas (addr opa opb : Word) (s : State) : Host.Outcome State Fault Refusal :=
  updateMachine ⟨.next, true, .a⟩ (encode (.xsNextCas addr opa opb)) s

/-- `xo.next.cas <addr>` (R134): one Family B step, by the CAS retry loop. -/
def execXoNextCas (addr opa opb : Word) (s : State) : Host.Outcome State Fault Refusal :=
  updateMachine ⟨.next, true, .b⟩ (encode (.xoNextCas addr opa opb)) s

end Sys2Proof.Machine
end

