-- ==== Sys2Proof/Machine/Seed.lean ====
section
/-! DEFINITION. The SEED command (spec/42_commands.md R130). -/

namespace Sys2Proof.Machine

open Sys2Proof

/-- `seed <addr>, <s0>, <s1>` (R130); FAM is ignored, and latched with the command word. -/
def execSeed (fam : BitVec 1) (addr s0 s1 : Word) (s : State) : Host.Outcome State Fault Refusal :=
  seedMachine ⟨.seed, false, .a⟩ (encode (.seed fam addr s0 s1)) s

end Sys2Proof.Machine
end

