-- ==== Sys2Proof/Machine/Dispatch.lean ====
section
/-! DEFINITION. One step of a command in the active agent: each command to its meaning. -/

namespace Sys2Proof.Machine

open Sys2Proof

def exec (i : Instr) (s : State) : Host.Outcome State Fault Refusal :=
  match i with
  | .seed fam addr s0 s1 => Sys2Proof.Machine.execSeed fam addr s0 s1 s
  | .xsNext addr opa opb => Sys2Proof.Machine.execXsNext addr opa opb s
  | .xoNext addr opa opb => Sys2Proof.Machine.execXoNext addr opa opb s
  | .xsNextCas addr opa opb => Sys2Proof.Machine.execXsNextCas addr opa opb s
  | .xoNextCas addr opa opb => Sys2Proof.Machine.execXoNextCas addr opa opb s
  | .xsJump addr opa opb => Sys2Proof.Machine.execXsJump addr opa opb s
  | .xoJump addr opa opb => Sys2Proof.Machine.execXoJump addr opa opb s
  | .xsJumpCas addr opa opb => Sys2Proof.Machine.execXsJumpCas addr opa opb s
  | .xoJumpCas addr opa opb => Sys2Proof.Machine.execXoJumpCas addr opa opb s

end Sys2Proof.Machine
end

