-- ==== Sys2Proof/Machine/Environment.lean ====
section
/-! DEFINITION. The moves of a run: an agent's step (R20, R123), and the environment's moves, the complete
list of spec/70_reset_and_hazards.md R170. -/

namespace Sys2Proof.Machine

open Sys2Proof

/-- The agent has an enabled step (R123): always inside a command; by its slots in IDLE, RESP and HALTED. -/
def enabled (a : Agent) : Bool :=
  match a.phase with
  | .idle => a.req.isSome
  | .resp => a.rsp.isNone
  | .halted => a.req.isSome && a.rsp.isNone
  | .seedW0 | .seedW1 | .rd0 | .rd1 | .compute | .jiter | .cas | .wr0 | .wr1 => true

/-- The agent's accept step (R110): what is decoded and run is the request in REQ. -/
def idleStep (s : State) (a : Agent) : Host.Outcome State Fault Refusal :=
  match a.req with
  | none => .next s
  | some r =>
    match decode r with
    | .ok i => exec i s
    | .error _ => acceptIllegal r s a

/-- The agent's step inside a command: what is decoded and run is the latched request. The RESP step of an
illegal request needs no command (R121, R143). -/
def busyStep (s : State) (a : Agent) : Host.Outcome State Fault Refusal :=
  match decode (latched a) with
  | .ok i => exec i s
  | .error _ => if a.phase = .resp then respStep s a else .fault .strayPhase

/-- The step of the active agent, by its phase (R23). A step that is not enabled changes nothing (R154). -/
def activeStep (s : State) : Host.Outcome State Fault Refusal :=
  withActive s fun a =>
    match a.phase with
    | .idle => idleStep s a
    | .halted => haltedStep s a
    | .seedW0 | .seedW1 | .rd0 | .rd1 | .compute | .jiter | .cas | .wr0 | .wr1 | .resp => busyStep s a

/-- Agent `j` takes a step (R20). -/
def agentStep (j : Nat) (s : State) : Host.Outcome State Fault Refusal :=
  match s.agents[j]? with
  | none => .refused .noSuchAgent
  | some _ => activeStep { s with active := j }

/-- The caller of agent `j` puts a request into an empty REQ (R33, R170). -/
def presentMove (j : Nat) (r : Request) (s : State) : Host.Outcome State Fault Refusal :=
  match s.agents[j]? with
  | none => .refused .noSuchAgent
  | some a => if a.req.isSome then .refused .requestSlotFull else .next (s.setAgent j { a with req := some r })

/-- The caller of agent `j` takes the response and empties RSP (R33, R170). -/
def takeMove (j : Nat) (s : State) : Host.Outcome State Fault Refusal :=
  match s.agents[j]? with
  | none => .refused .noSuchAgent
  | some a =>
    match a.rsp with
    | none => .refused .responseSlotEmpty
    | some r => .next { s.setAgent j { a with rsp := none } with seen := .took j r :: s.seen }

/-- The caller of agent `j` samples a register (R170): it reads the current value, with no effect. -/
def sampleMove (j : Nat) (reg : SampleReg) (s : State) : Host.Outcome State Fault Refusal :=
  match s.agents[j]? with
  | none => .refused .noSuchAgent
  | some a => .next { s with seen := .sampled j reg (sampleValue s.params a reg) :: s.seen }

/-- A memory user reads (R47, R170). -/
def userReadMove (u : Nat) (a : Word) (w : Width) (s : State) : Host.Outcome State Fault Refusal :=
  if userAccessOk s.params a w then .next (s.readEvent (.user u) a w) else .refused .userAccess

/-- A memory user writes (R47, R170). -/
def userWriteMove (u : Nat) (a : Word) (w : Width) (v : Word) (s : State) :
    Host.Outcome State Fault Refusal :=
  if userAccessOk s.params a w then .next (s.writeEvent (.user u) a w v) else .refused .userAccess

/-- A memory user's CAS128 (R47, R170). -/
def userCasMove (u : Nat) (a : Word) (e n : GenState) (s : State) : Host.Outcome State Fault Refusal :=
  if casAccessOk s.params a then .next (s.casEvent (.user u) a e n) else .refused .userAccess

/-- The reset event (R160): every agent's registers; not the memory, not the parameters. What an UNSPECIFIED
register then holds is a free value (log 4). -/
def resetMove (s : State) : Host.Outcome State Fault Refusal :=
  .next { s with
    agents := s.agents.mapIdx (fun j _ => Agent.reset (Config.freeValue s.resets j))
    resets := s.resets + 1 }

/-- One move of the run. -/
def perform (m : Move) (s : State) : Host.Outcome State Fault Refusal :=
  match m with
  | .agent j => agentStep j s
  | .present j r => presentMove j r s
  | .take j => takeMove j s
  | .sample j reg => sampleMove j reg s
  | .userRead u a w => userReadMove u a w s
  | .userWrite u a w v => userWriteMove u a w v s
  | .userCas u a e n => userCasMove u a e n s
  | .reset => resetMove s

/-- The lowest-numbered agent with an enabled step. -/
def firstEnabled (as : List Agent) : Option Nat := as.findIdx? enabled

/-- The step when the list of moves is used up: one of the orders R20 leaves open (log 5). -/
def defaultStep (s : State) : Host.Outcome State Fault Refusal :=
  match firstEnabled s.agents with
  | some j => agentStep j s
  | none => .next s

/-- One step of the run: the next move of the list, or the default order's. -/
def runStep (s : State) : Host.Outcome State Fault Refusal :=
  match s.moves with
  | [] => defaultStep s
  | m :: ms => perform m { s with moves := ms }

/-- Agent 0 with a request to accept: IDLE, the request in REQ. -/
def readyWith (r : Request) (a : Agent) : Agent := { a with phase := .idle, req := some r }

/-- The state with a request where the next step takes one: in agent 0's REQ, agent 0 IDLE, and its step the
next move (log 14). -/
def placeRequest (s : State) (r : Request) : State :=
  { s with agents := s.agents.modify 0 (readyWith r), moves := .agent 0 :: s.moves }

end Sys2Proof.Machine
end

