-- ==== Sys2Proof/Machine/Step.lean ====
section
/-! DEFINITION. One step of the machine, and where the host puts an instruction. -/

namespace Sys2Proof.Machine

open Sys2Proof

/-- One step: one move of the run (R20, R50, R111, R170). -/
def step (s : State) : Host.Outcome State Fault Refusal := runStep s

/-- The state with the command whose bits are `w` (the bits from `nbits` on 0) put where the very next step
accepts it (log 14). -/
def State.withFetchWord (s : State) (nbits w : Nat) : State :=
  placeRequest s (Request.ofBits (w % 2 ^ nbits))

end Sys2Proof.Machine
end

