-- ==== Sys2Proof/Machine/Assembler.lean ====
section
/-! DEFINITION. The assembler of spec/30_encoding.md R67 to R69, over lists of characters: reading a line,
assembling it, writing its encoding; and R68's order of presenting a program. No step of the machine uses
this file. -/

namespace Sys2Proof.Machine

open Sys2Proof

/-- A space or a tab (log 19). -/
def isBlank (c : Char) : Bool := c = ' ' || c = '\t'

/-- Without the blanks at either end. -/
def trimBlanks (cs : List Char) : List Char :=
  ((cs.dropWhile isBlank).reverse.dropWhile isBlank).reverse

/-- "A `;` starts a comment that runs to the end of the line" (R67). -/
def stripComment (cs : List Char) : List Char := cs.takeWhile (fun c => c ≠ ';')

/-- The pieces between commas. -/
def splitCommas : List Char → List (List Char)
  | [] => [[]]
  | c :: cs =>
    match splitCommas cs with
    | [] => [[c]]
    | p :: ps => if c = ',' then [] :: p :: ps else (c :: p) :: ps

/-- The value of a digit in base 16; letters in either case (log 19). -/
def digitValue (c : Char) : Option Nat :=
  let n := c.toNat
  if 48 ≤ n ∧ n ≤ 57 then some (n - 48)
  else if 97 ≤ n ∧ n ≤ 102 then some (n - 87)
  else if 65 ≤ n ∧ n ≤ 70 then some (n - 55)
  else none

/-- Digits of a base after the number `acc`. -/
def readDigits (base : Nat) : Nat → List Char → Option Nat
  | acc, [] => some acc
  | acc, c :: cs =>
    match digitValue c with
    | none => none
    | some d => if d < base then readDigits base (acc * base + d) cs else none

/-- An unsigned integer literal: decimal, or `0x` and hexadecimal digits (R67); leading zeros allowed
(log 19). -/
def readLiteral : List Char → Option Nat
  | '0' :: 'x' :: c :: cs => readDigits 16 0 (c :: cs)
  | c :: cs => readDigits 10 0 (c :: cs)
  | [] => none

/-- The mnemonics of R67, lower case. -/
def mnemonicName : Mnemonic → List Char
  | .seed => ['s', 'e', 'e', 'd']
  | .xsNext => ['x', 's', '.', 'n', 'e', 'x', 't']
  | .xoNext => ['x', 'o', '.', 'n', 'e', 'x', 't']
  | .xsNextCas => ['x', 's', '.', 'n', 'e', 'x', 't', '.', 'c', 'a', 's']
  | .xoNextCas => ['x', 'o', '.', 'n', 'e', 'x', 't', '.', 'c', 'a', 's']
  | .xsJump => ['x', 's', '.', 'j', 'u', 'm', 'p']
  | .xoJump => ['x', 'o', '.', 'j', 'u', 'm', 'p']
  | .xsJumpCas => ['x', 's', '.', 'j', 'u', 'm', 'p', '.', 'c', 'a', 's']
  | .xoJumpCas => ['x', 'o', '.', 'j', 'u', 'm', 'p', '.', 'c', 'a', 's']

/-- The mnemonic a word is. -/
def readMnemonic (cs : List Char) : Option Mnemonic :=
  [.seed, .xsNext, .xoNext, .xsNextCas, .xoNextCas, .xsJump, .xoJump, .xsJumpCas, .xoJumpCas].find?
    (fun m => decide (mnemonicName m = cs))

/-- All the literals, or none if one is not a literal. -/
def readLiterals : List (List Char) → Option (List Nat)
  | [] => some []
  | p :: ps =>
    match readLiteral (trimBlanks p), readLiterals ps with
    | some n, some ns => some (n :: ns)
    | _, _ => none

/-- `<mnemonic> <operands>` (R67) for an agent. DESIGN CHOICE (log 19): at least one blank after the mnemonic,
any blanks around a comma. -/
def readCommand (agent : Nat) (cs : List Char) : Option AsmLine :=
  let word := cs.takeWhile (fun c => !isBlank c)
  match readMnemonic word, readLiterals (splitCommas (cs.drop word.length)) with
  | some m, some ns => some ⟨agent, m, ns⟩
  | _, _ => none

/-- A line of a program (R67, R68): `some none` for a line with nothing on it, `none` for one that is not a
line of the language. DESIGN CHOICE (log 19): R68 gives the `<n>` of the prefix `@<n>:` no form; here it is one or
more decimal digits, leading zeros allowed, with no `0x` and no blank between `@` and `:`. Blanks may stand before
the `@` and after the `:`. -/
def readLine (line : List Char) : Option (Option AsmLine) :=
  match trimBlanks (stripComment line) with
  | [] => some none
  | '@' :: cs =>
    let digits := cs.takeWhile (fun c => c ≠ ':')
    match cs.drop digits.length, digits with
    | ':' :: rest, d :: ds => ((readDigits 10 0 (d :: ds)).bind (readCommand · (trimBlanks rest))).map some
    | _, _ => none
  | cs => (readCommand 0 cs).map some

/-- The command of a line (R67): 0 in the fields the block ignores; none for a line that is not well
formed. -/
def assemble (l : AsmLine) : Option Instr :=
  if l.operands.all (fun n => decide (n < 2 ^ 64)) then
    match l.mnemonic, l.operands.map (BitVec.ofNat 64) with
    | .seed, [addr, s0, s1] => some (.seed 0 addr s0 s1)
    | .xsNext, [addr] => some (.xsNext addr 0 0)
    | .xoNext, [addr] => some (.xoNext addr 0 0)
    | .xsNextCas, [addr] => some (.xsNextCas addr 0 0)
    | .xoNextCas, [addr] => some (.xoNextCas addr 0 0)
    | .xsJump, [addr] => some (.xsJump addr 0 0)
    | .xoJump, [addr] => some (.xoJump addr 0 0)
    | .xsJumpCas, [addr] => some (.xsJumpCas addr 0 0)
    | .xoJumpCas, [addr] => some (.xoJumpCas addr 0 0)
    | _, _ => none
  else none

/-- A digit in base 16. Upper case, as R69's `CMD=0x0000000E` of spec/95_test_vectors.md writes it (log 19). -/
def hexDigit (n : Nat) : Char := Char.ofNat (if n < 10 then 48 + n else 55 + n)

/-- The low `n` hexadecimal digits of a number, the most significant first (R8). -/
def hexDigits : Nat → Nat → List Char
  | 0, _ => []
  | n + 1, v => hexDigits n (v / 16) ++ [hexDigit (v % 16)]

/-- The encoding of a line as R69 writes it. -/
def encodingLine (r : Request) : List Char :=
  ['C', 'M', 'D', '=', '0', 'x'] ++ hexDigits 8 r.cmd.toNat ++
  [' ', 'A', 'D', 'D', 'R', '=', '0', 'x'] ++ hexDigits 16 r.addr.toNat ++
  [' ', 'O', 'P', 'A', '=', '0', 'x'] ++ hexDigits 16 r.opa.toNat ++
  [' ', 'O', 'P', 'B', '=', '0', 'x'] ++ hexDigits 16 r.opb.toNat

/-- The moves of agent `j`'s caller that R68 orders. -/
def callerMoves (j : Nat) (ms : List Move) : List Move :=
  ms.filter fun m =>
    match m with
    | .present i _ => decide (i = j)
    | .take i => decide (i = j)
    | .agent _ | .sample _ _ | .userRead _ _ _ | .userWrite _ _ _ _ | .userCas _ _ _ _ | .reset => false

/-- R68 for one agent: its lines presented in order, "each … only after the response to the previous line of
that agent has been taken". -/
def presentsInOrder : List Request → List Move → Bool
  | _, [] => true
  | r :: rs, .present _ r' :: ms =>
    decide (r' = r) &&
      match ms with
      | [] => true
      | .take _ :: ms' => presentsInOrder rs ms'
      | _ :: _ => false
  | _, _ :: _ => false

/-- A run's moves present a program (R68): its lines by agent, in order. -/
def presentsProgram (program : List (Nat × Request)) (nAgents : Nat) (ms : List Move) : Bool :=
  (List.range nAgents).all fun j =>
    presentsInOrder ((program.filter (fun l => decide (l.1 = j))).map Prod.snd) (callerMoves j ms)

end Sys2Proof.Machine
end

