-- ==== Sys2Proof/Safety.lean ====
section
/-! DEFINITION. What the statements are made of: a command carried through without interruption, the
invariant of the block, the memory order as an explanation of the memory, and the relations that compare two
runs. -/

namespace Sys2Proof.Machine

open Sys2Proof

/-- `n` steps of one command in the active agent with nothing in between. -/
def execTimes : Nat → Instr → State → Host.Outcome State Fault Refusal
  | 0, _, s => .next s
  | n + 1, i, s =>
    match exec i s with
    | .next t => execTimes n i t
    | .fault r => .fault r
    | .refused r => .refused r

/-- The active agent's registers are `a`, in phase `ph`. -/
def ActiveIn (s : State) (ph : Phase) (a : Agent) : Prop :=
  s.agents[s.active]? = some a ∧ a.phase = ph

/-- An agent is in a command (R28): the phases in which BUSY is 1. -/
def busyPhase (ph : Phase) : Bool :=
  match ph with
  | .idle | .halted => false
  | .seedW0 | .seedW1 | .rd0 | .rd1 | .compute | .jiter | .cas | .wr0 | .wr1 | .resp => true

/-- The conditions on address and platform under which R141's check of a command passes. -/
def Admissible (p : Params) (k : CommandKind) (addr : Word) : Prop :=
  (k.atomic = true → p.hasCas128 = true ∧ addr.toNat % 16 = 0) ∧ addr.toNat % 8 = 0 ∧
    addr.toNat ≤ 2 ^ 64 - 16 ∧ admits p addr = true ∧ admits p (addr + 8) = true

/-- What a command does to a cell's value, and its output (R125, R131 to R138). -/
def applied (k : CommandKind) (g : GenState) : GenState × Word :=
  match k.op with
  | .next => trans k.family g
  | .jump => (jump k.family g, 0)
  | .seed => (g, 0)

/-- Everything of two states is equal but the agents' registers, the memory and the memory order. -/
def SameElse (s t : State) : Prop :=
  t.params = s.params ∧ t.active = s.active ∧ t.moves = s.moves ∧ t.seen = s.seen ∧ t.resets = s.resets

/-- Every byte outside the `n` bytes at `a` reads in `t` as in `s`. -/
def SameOutside (a n : Nat) (s t : State) : Prop :=
  ∀ b, (b < a ∨ a + n ≤ b) → byteAt t.mem b = byteAt s.mem b

/-- No byte of the memory differs. -/
def SameMemory (s t : State) : Prop := ∀ b, byteAt t.mem b = byteAt s.mem b

/-- Where the step of an agent with the registers `a` stores, as its first byte and its length: the words
that SEED_W0, WR0, SEED_W1 and WR1 write (R112, R113, R119, R120), the cell a successful CAS128 writes (R46),
and none in the other phases. -/
def storedRange (s : State) (a : Agent) : Option (Nat × Nat) :=
  match a.phase with
  | .seedW0 | .wr0 => some (a.addrr.toNat, 8)
  | .seedW1 | .wr1 => some ((secondWord a.addrr).toNat, 8)
  | .cas => if s.casSucceeds a.addrr (snapshot a) then some (a.addrr.toNat, 16) else none
  | .idle | .rd0 | .rd1 | .compute | .jiter | .resp | .halted => none

/-- The moves of a list, one after the other. -/
def runMoves : List Move → State → Host.Outcome State Fault Refusal
  | [], s => .next s
  | m :: ms, s =>
    match perform m s with
    | .next t => runMoves ms t
    | .fault r => .fault r
    | .refused r => .refused r

/-- The 16 bytes at `a` and those at `c` have none in common. -/
def CellsApart (a c : Word) : Prop := a.toNat + 16 ≤ c.toNat ∨ c.toNat + 16 ≤ a.toNat

/-- A request that can touch the cell at `c` only by a CAS128 of that very cell: an atomic command, or one on
another cell (R52). -/
def AtomicOn (c : Word) (r : Request) : Prop :=
  ∀ k, decodeCmd r.cmd = .ok k → k.atomic = true ∨ CellsApart r.addr c

/-- Every request an agent has waiting or is working on is `AtomicOn` the cell. -/
def AgentsAtomicOn (c : Word) (s : State) : Prop :=
  ∀ a ∈ s.agents, (∀ r, a.req = some r → AtomicOn c r) ∧ (busyPhase a.phase = true → AtomicOn c (latched a))

/-- A move that leaves the writing of the cell at `c` to atomic commands (R52, R127). -/
def MoveAtomicOn (c : Word) (m : Move) : Prop :=
  match m with
  | .present _ r => AtomicOn c r
  | .userWrite _ a w _ => a.toNat + w.bytes ≤ c.toNat ∨ c.toNat + 16 ≤ a.toNat
  | .userCas _ a _ _ => CellsApart a c
  | .agent _ | .take _ | .sample _ _ | .userRead _ _ _ | .reset => True

/-- The move breaks the condition under which R20 and R170 let it be made: it is of an agent the block does not
have, a request for a full REQ, a take from an empty RSP, or a memory user's access outside R47 and `Admit` (for
the narrower ones, log 9). A reset may come at any time. -/
def NeverMade (s : State) (m : Move) : Prop :=
  match m with
  | .agent j => s.params.nAgents ≤ j
  | .present j _ => s.params.nAgents ≤ j ∨ ∃ a r, s.agents[j]? = some a ∧ a.req = some r
  | .take j => s.params.nAgents ≤ j ∨ ∃ a, s.agents[j]? = some a ∧ a.rsp = none
  | .sample j _ => s.params.nAgents ≤ j
  | .userRead _ a w =>
    ¬ (a.toNat % 8 + w.bytes ≤ 8 ∧ admits s.params (a - BitVec.ofNat 64 (a.toNat % 8)) = true)
  | .userWrite _ a w _ =>
    ¬ (a.toNat % 8 + w.bytes ≤ 8 ∧ admits s.params (a - BitVec.ofNat 64 (a.toNat % 8)) = true)
  | .userCas _ a _ _ =>
    ¬ (s.params.hasCas128 = true ∧ a.toNat % 16 = 0 ∧ admits s.params a = true ∧ admits s.params (a + 8) = true)
  | .reset => False

/-! ### Commits on a cell -/

/-- The event writes a byte of the cell at `c` (R45 to R47); a failed CAS128 writes none. -/
def MemEvent.writesCell (c : Word) : MemEvent → Bool
  | .read _ _ _ _ => false
  | .write _ a w _ => decide (a.toNat < c.toNat + 16) && decide (c.toNat < a.toNat + w.bytes)
  | .cas _ a _ _ ok => ok && decide (a.toNat < c.toNat + 16) && decide (c.toNat < a.toNat + 16)

/-- The event is a CAS128 of agent `j` that succeeded or failed as `ok` says. -/
def MemEvent.isCasBy (j : Nat) (ok : Bool) : MemEvent → Bool
  | .cas (.agent i) _ _ _ ok' => decide (i = j) && decide (ok' = ok)
  | .cas (.user _) _ _ _ _ | .read _ _ _ _ | .write _ _ _ _ => false

/-- The agent and the command that commit to the cell at `c` by this move: the agent is in CAS on that cell,
and the cell holds its snapshot (R118). -/
def commitOf (c : Word) (m : Move) (s : State) : Option (Nat × CommandKind) :=
  match m with
  | .agent j =>
    match s.agents[j]? with
    | none => none
    | some a =>
      if a.phase = .cas ∧ a.addrr = c ∧ s.casSucceeds c (snapshot a) = true then
        match decodeCmd a.cmdr with
        | .ok k => some (j, k)
        | .error _ => none
      else none
  | .present _ _ | .take _ | .sample _ _ | .userRead _ _ _ | .userWrite _ _ _ _ | .userCas _ _ _ _
  | .reset => none

/-- The commits to the cell at `c` in a run, in the memory order: R127's c_1, c_2, …, each with its agent and its
command. -/
def commitsOf (c : Word) : List Move → State → List (Nat × CommandKind)
  | [], _ => []
  | m :: ms, s =>
    match perform m s with
    | .next t => (commitOf c m s).toList ++ commitsOf c ms t
    | .fault _ => []
    | .refused _ => []

/-- What commits, one after the other, make of a value: R127's `G_i(G_(i-1)(... G_1(v)))`. -/
def committed : List (Nat × CommandKind) → GenState → GenState
  | [], v => v
  | (_, k) :: cs, v => committed cs (applied k v).1

/-- The CAS128 events of commits to the cell at `c`, the oldest first: each from the value the one before it
left. -/
def commitEvents (c : Word) : List (Nat × CommandKind) → GenState → List MemEvent
  | [], _ => []
  | (j, k) :: cs, v => .cas (.agent j) c v (applied k v).1 true :: commitEvents c cs (applied k v).1

/-! ### Fairness (R175) -/

/-- An infinite run: the states it passes and the move made in each. `State.moves` is finite and holds a part
of one only. -/
structure Run where
  state : Nat → State
  move : Nat → Move

/-- Each state of the run comes from the one before by its move. -/
def Run.Legal (r : Run) : Prop := ∀ n, perform (r.move n) (r.state n) = .next (r.state (n + 1))

/-- Agent `j` at a point of the run. -/
def Run.agent (r : Run) (n j : Nat) : Option Agent := (r.state n).agents[j]?

/-- R175, U19: "every agent with an enabled step eventually takes it (weak fairness)", unless a reset takes the
step away. -/
def WeaklyFair (r : Run) : Prop :=
  ∀ n j a, r.agent n j = some a → enabled a = true →
    ∃ m b, n ≤ m ∧ r.agent m j = some b ∧ (r.move m = .agent j ∨ enabled b = false)

/-- The phases of a round of an atomic command, which it leaves only when it ends (R118). -/
def roundPhase (ph : Phase) : Bool :=
  match ph with
  | .rd0 | .rd1 | .compute | .jiter | .cas => true
  | .idle | .seedW0 | .seedW1 | .wr0 | .wr1 | .resp | .halted => false

/-- R175's window of agent `j`, "from the RD0 event to the CAS128 event": the move at `n` is the one event and
the move at `m` the other, of one round. -/
def Run.Window (r : Run) (j n m : Nat) : Prop :=
  n < m ∧ r.move n = .agent j ∧ r.move m = .agent j ∧
  (∃ a, r.agent n j = some a ∧ a.phase = .rd0) ∧
  (∃ a, r.agent m j = some a ∧ a.phase = .cas) ∧
  ∀ p, n < p → p ≤ m → ∃ a, r.agent p j = some a ∧ roundPhase a.phase = true ∧ a.phase ≠ .rd0

/-- No event between the moves `n` and `m` writes the cell at `c` (R55). -/
def Run.Quiet (r : Run) (c : Word) (n m : Nat) : Prop :=
  ∀ p e, n < p → p < m → (r.state (p + 1)).order = e :: (r.state p).order → e.writesCell c = false

/-- R175: "for each atomic command, eventually one of its windows contains no other write to its cell". It is
asked of a command that goes round forever; one that ends needs no such window. -/
def EventuallyQuiet (r : Run) : Prop :=
  ∀ n j a k, r.agent n j = some a → decodeCmd a.cmdr = .ok k → k.atomic = true →
    (∀ p, n ≤ p → ∃ b, r.agent p j = some b ∧ roundPhase b.phase = true) →
    ∃ m m', n ≤ m ∧ r.Window j m m' ∧ r.Quiet a.addrr m m'

/-- Callers empty their response slots (R33, R170): each RSP is empty again and again. -/
def CallersTake (r : Run) : Prop :=
  ∀ n j a, r.agent n j = some a → ∃ m b, n ≤ m ∧ r.agent m j = some b ∧ b.rsp = none

/-- From `n` to `m` agent `j` works on the request it has latched at `n`. -/
def Run.InOneCommand (r : Run) (j n m : Nat) : Prop :=
  ∃ a, r.agent n j = some a ∧
    ∀ p, n ≤ p → p ≤ m → ∃ b, r.agent p j = some b ∧ busyPhase b.phase = true ∧ latched b = latched a

/-! ### The invariant -/

/-- The candidate and the output are those of the command on the snapshot (R116, R117). -/
def Computed (k : CommandKind) (a : Agent) : Prop :=
  candidate a = (applied k (snapshot a)).1 ∧ a.outr = (applied k (snapshot a)).2

/-- What a phase of a command owes to the earlier ones. -/
def PhaseMeets (k : CommandKind) (a : Agent) : Prop :=
  match a.phase with
  | .seedW0 | .seedW1 => k.op = .seed ∧ a.outr = 0
  | .rd0 | .rd1 | .compute => k.op ≠ .seed
  | .jiter => k.op = .jump ∧ a.k.toNat ≤ 128 ∧ jumpRegs a = jumpAfter k.family (snapshot a) a.k.toNat
  | .cas => k.op ≠ .seed ∧ k.atomic = true ∧ Computed k a
  | .wr0 | .wr1 => k.op ≠ .seed ∧ k.atomic = false ∧ Computed k a
  | .resp => if k.op = .seed then a.outr = 0 else Computed k a
  | .idle | .halted => True

/-- The latched command passed its check (R141) and its phase is one it has. -/
def InCommand (p : Params) (a : Agent) : Prop :=
  ∃ k, decodeCmd a.cmdr = .ok k ∧ checkKind p k a.addrr = .ok ∧ PhaseMeets k a

/-- FAULT, FAULT_CMD and FAULT_ADDR record what R140 to R143 say of the latched request. -/
def FaultRecorded (p : Params) (a : Agent) : Prop :=
  a.fault ≠ 0 ∧ a.faultCmd = a.cmdr ∧ a.faultAddr = a.addrr ∧ a.fault = (check p a.cmdr a.addrr).code

/-- A response in RSP is one R35 allows: a code of R29, OUT 0 with a fault's. -/
def ResponseLegal (r : Response) : Prop :=
  r.status.toNat ≤ 4 ∧ (r.status ≠ 0 → r.out = 0)

/-- The registers of one agent hang together. -/
def AgentInv (p : Params) (a : Agent) : Prop :=
  a.busy = busyPhase a.phase ∧
  (∀ r, a.rsp = some r → ResponseLegal r) ∧
  match a.phase with
  | .idle => a.fault = 0
  | .halted => FaultRecorded p a
  | .resp => (a.fault = 0 ∧ InCommand p a) ∨ FaultRecorded p a
  | .seedW0 | .seedW1 | .rd0 | .rd1 | .compute | .jiter | .cas | .wr0 | .wr1 => a.fault = 0 ∧ InCommand p a

/-- The invariant of the block: `N_AGENTS` agents, each consistent, and a memory in canonical form. -/
def Inv (s : State) : Prop :=
  Params.wf s.params ∧ s.agents.length = s.params.nAgents ∧ Memory.wf s.mem ∧
    ∀ a ∈ s.agents, AgentInv s.params a

/-! ### The memory order -/

/-- What an event does to the memory (R44 to R47). -/
def replayEvent (o : ByteOrder) (m : Memory) (e : MemEvent) : Memory :=
  match e with
  | .read _ _ _ _ => m
  | .write _ a w v => storeValue o m a.toNat w v
  | .cas _ a _ n ok =>
    if ok then storeValue o (storeValue o m a.toNat .w64 n.s0) (secondWord a).toNat .w64 n.s1 else m

/-- The memory an order of events leaves, the newest event first (R50). -/
def replay (o : ByteOrder) (m0 : Memory) : List MemEvent → Memory
  | [] => m0
  | e :: es => replayEvent o (replay o m0 es) e

/-- The value an event shows is that of the memory it met: a read sees what the events before it left, and a
CAS128 succeeds exactly when both words equal the expected ones (R44, R46, R50, R54). -/
def eventSees (o : ByteOrder) (m : Memory) (e : MemEvent) : Prop :=
  match e with
  | .read _ a w v => v = loadValue o m a.toNat w
  | .write _ _ _ _ => True
  | .cas _ a e _ ok =>
    ok = decide ((⟨loadValue o m a.toNat .w64, loadValue o m (secondWord a).toNat .w64⟩ : GenState) = e)

/-- Every event of the order sees what the events before it left. -/
def orderSees (o : ByteOrder) (m0 : Memory) : List MemEvent → Prop
  | [] => True
  | e :: es => orderSees o m0 es ∧ eventSees o (replay o m0 es) e

/-- The memory order explains the memory and every value read from it (R50). -/
def OrderExplains (s : State) : Prop :=
  s.mem = replay s.params.byteOrder s.params.m0 s.order ∧
    orderSees s.params.byteOrder s.params.m0 s.order

/-- The memory event of a step, if it made one: what it put on the order. -/
def Eventless (s t : State) : Prop := t.order = s.order ∧ t.mem = s.mem

/-! ### Comparing runs -/

/-- Two agents whose registers agree wherever a later step of the present command may read before it writes
(R39): what differs is only what reset leaves UNSPECIFIED and no rule reads. -/
def SameLive (a b : Agent) : Prop :=
  a.phase = b.phase ∧ a.busy = b.busy ∧ a.req = b.req ∧ a.rsp = b.rsp ∧ a.fault = b.fault ∧
  a.faultCmd = b.faultCmd ∧ a.faultAddr = b.faultAddr ∧
  (a.phase ≠ .idle → a.phase ≠ .halted → latched a = latched b) ∧
  match a.phase with
  | .idle | .halted | .rd0 => True
  | .seedW0 | .seedW1 | .resp => a.outr = b.outr
  | .rd1 => a.exp0 = b.exp0
  | .compute => snapshot a = snapshot b
  | .jiter => snapshot a = snapshot b ∧ jumpRegs a = jumpRegs b ∧ a.k = b.k
  | .cas => snapshot a = snapshot b ∧ candidate a = candidate b ∧ a.outr = b.outr
  | .wr0 => candidate a = candidate b ∧ a.outr = b.outr
  | .wr1 => a.cand1 = b.cand1 ∧ a.outr = b.outr

/-- Two states that differ at most in registers no rule reads before it writes them. -/
def SameLiveState (s t : State) : Prop :=
  s.params = t.params ∧ s.mem = t.mem ∧ s.active = t.active ∧ s.moves = t.moves ∧ s.order = t.order ∧
  s.seen = t.seen ∧ s.resets = t.resets ∧ List.Forall₂ SameLive s.agents t.agents

/-- Two states that agree in everything but `BYTE_ORDER`, the launch memory and the bytes of the memory, and
in whose memories every 8-aligned word is the same (R42). -/
def SameWords (s t : State) : Prop :=
  t.params.nAgents = s.params.nAgents ∧ t.params.hasCas128 = s.params.hasCas128 ∧
  t.params.admitRanges = s.params.admitRanges ∧ t.agents = s.agents ∧ t.active = s.active ∧ t.moves = s.moves ∧
  t.order = s.order ∧ t.seen = s.seen ∧ t.resets = s.resets ∧ Memory.wf s.mem ∧ Memory.wf t.mem ∧
  ∀ a : Word, a.toNat % 8 = 0 → t.word a = s.word a

/-- Agent `j`'s snapshot is the present value of what it has read of its cell (R55). -/
def Fresh (s : State) (a : Agent) : Prop :=
  match a.phase with
  | .rd1 => a.exp0 = s.word a.addrr
  | .compute | .jiter | .cas => snapshot a = s.cell a.addrr
  | .idle | .seedW0 | .seedW1 | .rd0 | .wr0 | .wr1 | .resp | .halted => False

end Sys2Proof.Machine
end

