-- ==== Sys2Proof/Certificates/Slice0/Obligations.lean ====
section
/-! DEFINITION. The statements about the model, each from rules of spec/. -/

open Sys2Proof Sys2Proof.Machine

/-! ### Encoding (spec/30_encoding.md) -/

/-- R60 to R64: no bit of a request is dropped. Decoding an encoded command gives the command back, and
encoding a decoded request gives the request back. -/
def Obligations.DecodeAndEncodeAreInverse : Prop :=
  (∀ i : Instr, decode (encode i) = .ok i) ∧
  (∀ (r : Request) (i : Instr), decode r = .ok i → encode i = r)

/-- R63: the nine rows, written out; a legal word selects exactly the row of its command, and an illegal word
selects none. -/
def Obligations.OpcodeMapSelectsTheCommandsRow : Prop :=
  let rows : List (Mnemonic × CmdWord × CmdWord × CommandKind) :=
    [ (.seed, 0x00000000, 0xFFFFFFF7, ⟨.seed, false, .a⟩), (.xsNext, 0x00000001, 0xFFFFFFFF, ⟨.next, false, .a⟩),
      (.xoNext, 0x00000009, 0xFFFFFFFF, ⟨.next, false, .b⟩),
      (.xsNextCas, 0x00000005, 0xFFFFFFFF, ⟨.next, true, .a⟩),
      (.xoNextCas, 0x0000000D, 0xFFFFFFFF, ⟨.next, true, .b⟩),
      (.xsJump, 0x00000002, 0xFFFFFFFF, ⟨.jump, false, .a⟩), (.xoJump, 0x0000000A, 0xFFFFFFFF, ⟨.jump, false, .b⟩),
      (.xsJumpCas, 0x00000006, 0xFFFFFFFF, ⟨.jump, true, .a⟩),
      (.xoJumpCas, 0x0000000E, 0xFFFFFFFF, ⟨.jump, true, .b⟩) ]
  let selected (w : CmdWord) := rows.filter (fun row => decide (w &&& row.2.2.1 = row.2.1))
  opcodeTable = rows.map (fun row => ⟨row.1, row.2.1, row.2.2.1⟩) ∧
  ∀ r : Request,
    (∀ i, decode r = .ok i → ∃ value mask, selected r.cmd = [(i.mnemonic, value, mask, i.kind)]) ∧
    (∀ e, decode r = .error e → selected r.cmd = [])

/-- R65: the illegal words are those with a reserved bit, OP = 11, or OP = 00 with AT = 1; the accept step of
a request with one faults with ILLEGAL_COMMAND and makes no memory event; 0x8 means what 0x0 means. -/
def Obligations.ReservedWordsAreIllegal : Prop :=
  (∀ w : CmdWord, (∃ e, decodeCmd w = .error e) ↔
    (0x0000000F < w.toNat ∨ w.toNat ∈ [0x3, 0x7, 0xB, 0xF, 0x4, 0xC])) ∧
  (∀ (s : State) (a : Agent) (r : Request) (e : DecodeError), ActiveIn s .idle a → a.req = some r →
    decodeCmd r.cmd = .error e →
    activeStep s = .next (s.setActive
      { a with
        req := none, cmdr := r.cmd, addrr := r.addr, opa := r.opa, opb := r.opb, busy := true
        fault := 1, faultCmd := r.cmd, faultAddr := r.addr, outr := 0, phase := .resp })) ∧
  (∀ addr opa opb : Word,
    (decode ⟨0x8, addr, opa, opb⟩ = .ok (.seed 1 addr opa opb)) ∧
    (decode ⟨0x0, addr, opa, opb⟩ = .ok (.seed 0 addr opa opb))) ∧
  decodeCmd 0x8 = decodeCmd 0x0

/-- R63, R64: command words written out from the fields of R61 decode to their commands. -/
def Obligations.CommandWordsDecode : Prop :=
  ∀ addr opa opb : Word,
    decode ⟨0b00000000000000000000000000000000, addr, opa, opb⟩ = .ok (.seed 0 addr opa opb) ∧
    decode ⟨0b00000000000000000000000000001001, addr, opa, opb⟩ = .ok (.xoNext addr opa opb) ∧
    decode ⟨0b00000000000000000000000000000101, addr, opa, opb⟩ = .ok (.xsNextCas addr opa opb) ∧
    decode ⟨0b00000000000000000000000000001110, addr, opa, opb⟩ = .ok (.xoJumpCas addr opa opb)

/-- R67: a well-formed line assembles to a command of its mnemonic with its literals in place and zeros in
the ignored fields. -/
def Obligations.WellFormedLinesAssemble : Prop :=
  ∀ (p : Params) (l : AsmLine), AsmLine.wf p l = true →
    ∃ i, assemble l = some i ∧ i.mnemonic = l.mnemonic ∧ i.asmForm = true ∧
      (l.operands = [i.addr.toNat] ∨
        (l.mnemonic = .seed ∧
          l.operands = [(encode i).addr.toNat, (encode i).opa.toNat, (encode i).opb.toNat]))

/-! ### A step runs the decoded command (R20, R110) -/

/-- When agent `j`'s step is due, the machine's step is `exec` of the command decoded from its REQ in IDLE,
and from its latched request inside a command; what the step adds is that the move is used up and the agent
is active. With no move left, the same for the first enabled agent (log 5). -/
def Obligations.StepRunsTheDecodedCommand : Prop :=
  ∀ (s : State) (j : Nat) (a : Agent) (i : Instr), s.agents[j]? = some a →
    ((a.phase = .idle ∧ ∃ r, a.req = some r ∧ decode r = .ok i) ∨
      (busyPhase a.phase = true ∧ decode (latched a) = .ok i)) →
    (∀ ms, s.moves = .agent j :: ms → step s = exec i { s with moves := ms, active := j }) ∧
    (s.moves = [] → firstEnabled s.agents = some j → step s = exec i { s with active := j })

/-! ### Accept (R110, R140 to R143) -/

/-- R110: the accept step of a command that passes the check latches every field and goes to the command's
first phase, for all nine commands. -/
def Obligations.AcceptLatchesTheRequest : Prop :=
  ∀ (i : Instr) (s : State) (a : Agent) (q : Request), ActiveIn s .idle a → a.req = some q →
    Admissible s.params i.kind i.addr →
    exec i s = .next (s.setActive
      { a with
        req := none, cmdr := (encode i).cmd, addrr := (encode i).addr, opa := (encode i).opa
        opb := (encode i).opb, busy := true
        outr := if i.kind.op = .seed then 0 else a.outr
        phase := if i.kind.op = .seed then .seedW0 else .rd0 })

/-- R141, R142 and the fault entry of R143: a request that fails the check takes the first fault of the
order, precisely: its registers are latched, FAULT, FAULT_CMD and FAULT_ADDR are written, OUTR is 0, and
nothing else of the machine changes. -/
def Obligations.AcceptTakesTheFirstFault : Prop :=
  ∀ (i : Instr) (s : State) (a : Agent) (q : Request), ActiveIn s .idle a → a.req = some q →
    ¬ Admissible s.params i.kind i.addr →
    exec i s = .next (s.setActive
      { a with
        req := none, cmdr := (encode i).cmd, addrr := (encode i).addr, opa := (encode i).opa
        opb := (encode i).opb, busy := true
        fault :=
          if i.kind.atomic = true ∧ s.params.hasCas128 = false then 2
          else if i.kind.atomic = true ∧ i.addr.toNat % 16 ≠ 0 then 3
          else if i.kind.atomic = false ∧ i.addr.toNat % 8 ≠ 0 then 3
          else 4
        faultCmd := (encode i).cmd, faultAddr := (encode i).addr, outr := 0, phase := .resp })

/-! ### The phases of a command (R112 to R122) -/

/-- R112, R113: SEED writes OPA to the cell's first word and OPB to its second, and nothing else. -/
def Obligations.SeedWritesTheCell : Prop :=
  ∀ (fam : BitVec 1) (addr s0 s1 : Word) (s : State) (a : Agent), Inv s →
    (ActiveIn s .seedW0 a → ∃ t, exec (.seed fam addr s0 s1) s = .next t ∧
      t.word a.addrr = a.opa ∧ SameOutside a.addrr.toNat 8 s t ∧
      t.agents = s.agents.set s.active { a with phase := .seedW1 } ∧
      t.order = .write (.agent s.active) a.addrr .w64 a.opa :: s.order ∧ SameElse s t) ∧
    (ActiveIn s .seedW1 a → ∃ t, exec (.seed fam addr s0 s1) s = .next t ∧
      t.word (a.addrr + 8) = a.opb ∧ SameOutside (a.addrr.toNat + 8) 8 s t ∧
      t.agents = s.agents.set s.active { a with phase := .resp } ∧
      t.order = .write (.agent s.active) (a.addrr + 8) .w64 a.opb :: s.order ∧ SameElse s t)

/-- R114, R115: the two reads of the snapshot, in the NEXT and JUMP commands of either form. -/
def Obligations.SnapshotReadsTheCell : Prop :=
  ∀ (i : Instr) (s : State) (a : Agent), i.kind.op ≠ .seed → Inv s →
    (ActiveIn s .rd0 a → ∃ t, exec i s = .next t ∧
      t.agents = s.agents.set s.active { a with exp0 := s.word a.addrr, phase := .rd1 } ∧
      t.order = .read (.agent s.active) a.addrr .w64 (s.word a.addrr) :: s.order ∧
      t.mem = s.mem ∧ SameElse s t) ∧
    (ActiveIn s .rd1 a → ∃ t, exec i s = .next t ∧
      t.agents = s.agents.set s.active { a with exp1 := s.word (a.addrr + 8), phase := .compute } ∧
      t.order = .read (.agent s.active) (a.addrr + 8) .w64 (s.word (a.addrr + 8)) :: s.order ∧
      t.mem = s.mem ∧ SameElse s t)

/-- R81, R116: COMPUTE of a Family A NEXT, with the formula written out, in both forms. -/
def Obligations.ComputeAppliesFamilyA : Prop :=
  ∀ (addr opa opb : Word) (s : State) (a : Agent), ActiveIn s .compute a →
    let t := a.exp0 ^^^ (a.exp0 <<< 23)
    let n1 := t ^^^ a.exp1 ^^^ (t >>> 18) ^^^ (a.exp1 >>> 5)
    let done (ph : Phase) : Agent :=
      { a with cand0 := a.exp1, cand1 := n1, outr := n1 + a.exp1, phase := ph }
    exec (.xsNext addr opa opb) s = .next (s.setActive (done .wr0)) ∧
    exec (.xsNextCas addr opa opb) s = .next (s.setActive (done .cas))

/-- R83, R116: COMPUTE of a Family B NEXT, with the formula written out, in both forms. -/
def Obligations.ComputeAppliesFamilyB : Prop :=
  ∀ (addr opa opb : Word) (s : State) (a : Agent), ActiveIn s .compute a →
    let u := a.exp1 ^^^ a.exp0
    let n0 := ((a.exp0 <<< 55) ||| (a.exp0 >>> 9)) ^^^ u ^^^ (u <<< 14)
    let n1 := (u <<< 36) ||| (u >>> 28)
    let done (ph : Phase) : Agent :=
      { a with cand0 := n0, cand1 := n1, outr := a.exp0 + a.exp1, phase := ph }
    exec (.xoNext addr opa opb) s = .next (s.setActive (done .wr0)) ∧
    exec (.xoNextCas addr opa opb) s = .next (s.setActive (done .cas))

/-- R116, R117: the four JUMP commands start the loop on a private copy; an iteration adds the working copy
where the mask bit is set and always advances it; and 129 JITER steps make the jump of the snapshot. -/
def Obligations.JumpIteratesOverItsMasks : Prop :=
  ∀ (i : Instr) (s : State) (a : Agent), i.kind.op = .jump →
    let f := i.kind.family
    let mask0 : Word := if f = .a then 0x8a5cd789635d2dff else 0xbeac0467eba5facb
    let mask1 : Word := if f = .a then 0x121fd2155c472f96 else 0xd86b048b86aa9922
    let bit := (if a.k.toNat < 64 then mask0 else mask1).getLsbD (a.k.toNat % 64)
    let w := transState f ⟨a.w0, a.w1⟩
    let last (acc : GenState) (b : Agent) : Agent :=
      { b with cand0 := acc.s0, cand1 := acc.s1, outr := 0, phase := if i.kind.atomic then .cas else .wr0 }
    (ActiveIn s .compute a → exec i s = .next (s.setActive
      { a with acc0 := 0, acc1 := 0, w0 := a.exp0, w1 := a.exp1, k := 0, phase := .jiter })) ∧
    (ActiveIn s .jiter a → a.k.toNat < 128 → exec i s = .next (s.setActive
      { a with
        acc0 := if bit then a.acc0 ^^^ a.w0 else a.acc0
        acc1 := if bit then a.acc1 ^^^ a.w1 else a.acc1
        w0 := w.s0, w1 := w.s1, k := a.k + 1 })) ∧
    (ActiveIn s .jiter a → a.k = 128 → exec i s = .next (s.setActive (last ⟨a.acc0, a.acc1⟩ a))) ∧
    (ActiveIn s .jiter a → a.k = 0 → a.acc0 = 0 → a.acc1 = 0 → a.w0 = a.exp0 → a.w1 = a.exp1 →
      ∃ r : JumpRegs, execTimes 129 i s = .next (s.setActive (last (jump f ⟨a.exp0, a.exp1⟩)
        { a with acc0 := r.acc.s0, acc1 := r.acc.s1, w0 := r.w.s0, w1 := r.w.s1, k := 128 })))

/-- R46, R118: CAS in the four atomic commands. Where both words equal the snapshot the candidate is written
and the agent goes to RESP; otherwise no word is written and it goes back to RD0. -/
def Obligations.CasCommitsOrRetries : Prop :=
  ∀ (i : Instr) (s : State) (a : Agent), i.kind.op ≠ .seed → i.kind.atomic = true → Inv s →
    ActiveIn s .cas a →
    (s.word a.addrr = a.exp0 ∧ s.word (a.addrr + 8) = a.exp1 → ∃ t, exec i s = .next t ∧
      t.word a.addrr = a.cand0 ∧ t.word (a.addrr + 8) = a.cand1 ∧ SameOutside a.addrr.toNat 16 s t ∧
      t.agents = s.agents.set s.active { a with phase := .resp } ∧
      t.order = .cas (.agent s.active) a.addrr ⟨a.exp0, a.exp1⟩ ⟨a.cand0, a.cand1⟩ true :: s.order ∧
      SameElse s t) ∧
    (¬ (s.word a.addrr = a.exp0 ∧ s.word (a.addrr + 8) = a.exp1) → ∃ t, exec i s = .next t ∧
      t.mem = s.mem ∧ t.agents = s.agents.set s.active { a with phase := .rd0 } ∧
      t.order = .cas (.agent s.active) a.addrr ⟨a.exp0, a.exp1⟩ ⟨a.cand0, a.cand1⟩ false :: s.order ∧
      SameElse s t)

/-- R119, R120: the unshared commit of the four commands without `.cas`, one word a step. -/
def Obligations.UnsharedCommitWritesTheCandidate : Prop :=
  ∀ (i : Instr) (s : State) (a : Agent), i.kind.op ≠ .seed → i.kind.atomic = false → Inv s →
    (ActiveIn s .wr0 a → ∃ t, exec i s = .next t ∧
      t.word a.addrr = a.cand0 ∧ SameOutside a.addrr.toNat 8 s t ∧
      t.agents = s.agents.set s.active { a with phase := .wr1 } ∧
      t.order = .write (.agent s.active) a.addrr .w64 a.cand0 :: s.order ∧ SameElse s t) ∧
    (ActiveIn s .wr1 a → ∃ t, exec i s = .next t ∧
      t.word (a.addrr + 8) = a.cand1 ∧ SameOutside (a.addrr.toNat + 8) 8 s t ∧
      t.agents = s.agents.set s.active { a with phase := .resp } ∧
      t.order = .write (.agent s.active) (a.addrr + 8) .w64 a.cand1 :: s.order ∧ SameElse s t)

/-- R121, R35: RESP of all nine commands. With RSP empty it delivers OK and OUTR and goes to IDLE, or the
fault's code and 0 and goes to HALTED; with RSP full it waits. -/
def Obligations.RespondDeliversTheResult : Prop :=
  ∀ (i : Instr) (s : State) (a : Agent), ActiveIn s .resp a →
    (a.rsp = none → a.fault = 0 → exec i s = .next (s.setActive
      { a with rsp := some ⟨0, a.outr⟩, busy := false, phase := .idle })) ∧
    (a.rsp = none → a.fault ≠ 0 → exec i s = .next (s.setActive
      { a with rsp := some ⟨a.fault, 0⟩, busy := false, phase := .halted })) ∧
    (∀ r, a.rsp = some r → exec i s = .next s)

/-- R122, R144: a HALTED agent answers a request with its fault's code and 0, and changes nothing else; with
REQ empty or RSP full it makes no step. -/
def Obligations.HaltedAnswersWithItsFault : Prop :=
  ∀ (i : Instr) (s : State) (a : Agent), ActiveIn s .halted a →
    (∀ q, a.req = some q → a.rsp = none →
      exec i s = .next (s.setActive { a with req := none, rsp := some ⟨a.fault, 0⟩ }) ∧
      activeStep s = exec i s) ∧
    ((a.req = none ∨ ∃ r, a.rsp = some r) → exec i s = .next s ∧ activeStep s = .next s)

/-! ### Whole commands, with nothing in between (R130 to R138, R179) -/

/-- R130: a SEED takes 4 steps, writes its two operands into the cell, and answers OK with OUT 0. -/
def Obligations.SeedCompletes : Prop :=
  ∀ (fam : BitVec 1) (addr s0 s1 : Word) (s : State) (a : Agent) (q : Request), Inv s →
    ActiveIn s .idle a → a.req = some q → a.rsp = none → Admissible s.params ⟨.seed, false, .a⟩ addr →
    ∃ t b, execTimes 4 (.seed fam addr s0 s1) s = .next t ∧
      t.cell addr = ⟨s0, s1⟩ ∧ SameOutside addr.toNat 16 s t ∧
      t.order = .write (.agent s.active) (addr + 8) .w64 s1 :: .write (.agent s.active) addr .w64 s0 :: s.order ∧
      t.agents = s.agents.set s.active b ∧ b.phase = .idle ∧ b.busy = false ∧ b.req = none ∧
      b.rsp = some ⟨0, 0⟩ ∧ b.fault = 0 ∧ SameElse s t

/-- R131, R132: an unshared NEXT takes 7 steps, moves the cell from its State to the transition of it, and
answers OK with the transition's output. -/
def Obligations.UnsharedNextCompletes : Prop :=
  ∀ (i : Instr) (s : State) (a : Agent) (q : Request), i.kind.op = .next → i.kind.atomic = false → Inv s →
    ActiveIn s .idle a → a.req = some q → a.rsp = none → Admissible s.params i.kind i.addr →
    let g := s.cell i.addr
    let n := transState i.kind.family g
    ∃ t b, execTimes 7 i s = .next t ∧
      t.cell i.addr = n ∧ SameOutside i.addr.toNat 16 s t ∧
      t.order = .write (.agent s.active) (i.addr + 8) .w64 n.s1 :: .write (.agent s.active) i.addr .w64 n.s0 ::
        .read (.agent s.active) (i.addr + 8) .w64 g.s1 :: .read (.agent s.active) i.addr .w64 g.s0 :: s.order ∧
      t.agents = s.agents.set s.active b ∧ b.phase = .idle ∧ b.busy = false ∧ b.req = none ∧
      b.rsp = some ⟨0, transOut i.kind.family g⟩ ∧ b.fault = 0 ∧ SameElse s t

/-- R133, R134: an atomic NEXT takes 6 steps when nothing else happens, commits by one CAS128, and answers OK
with the transition's output. -/
def Obligations.AtomicNextCompletes : Prop :=
  ∀ (i : Instr) (s : State) (a : Agent) (q : Request), i.kind.op = .next → i.kind.atomic = true → Inv s →
    ActiveIn s .idle a → a.req = some q → a.rsp = none → Admissible s.params i.kind i.addr →
    let g := s.cell i.addr
    let n := transState i.kind.family g
    ∃ t b, execTimes 6 i s = .next t ∧
      t.cell i.addr = n ∧ SameOutside i.addr.toNat 16 s t ∧
      t.order = .cas (.agent s.active) i.addr g n true ::
        .read (.agent s.active) (i.addr + 8) .w64 g.s1 :: .read (.agent s.active) i.addr .w64 g.s0 :: s.order ∧
      t.agents = s.agents.set s.active b ∧ b.phase = .idle ∧ b.busy = false ∧ b.req = none ∧
      b.rsp = some ⟨0, transOut i.kind.family g⟩ ∧ b.fault = 0 ∧ SameElse s t

/-- R135, R136: an unshared JUMP takes 136 steps, moves the cell to the jump of its State, and answers OK
with OUT 0. -/
def Obligations.UnsharedJumpCompletes : Prop :=
  ∀ (i : Instr) (s : State) (a : Agent) (q : Request), i.kind.op = .jump → i.kind.atomic = false → Inv s →
    ActiveIn s .idle a → a.req = some q → a.rsp = none → Admissible s.params i.kind i.addr →
    let g := s.cell i.addr
    let n := jump i.kind.family g
    ∃ t b, execTimes 136 i s = .next t ∧
      t.cell i.addr = n ∧ SameOutside i.addr.toNat 16 s t ∧
      t.order = .write (.agent s.active) (i.addr + 8) .w64 n.s1 :: .write (.agent s.active) i.addr .w64 n.s0 ::
        .read (.agent s.active) (i.addr + 8) .w64 g.s1 :: .read (.agent s.active) i.addr .w64 g.s0 :: s.order ∧
      t.agents = s.agents.set s.active b ∧ b.phase = .idle ∧ b.busy = false ∧ b.req = none ∧
      b.rsp = some ⟨0, 0⟩ ∧ b.fault = 0 ∧ SameElse s t

/-- R137, R138: an atomic JUMP takes 135 steps when nothing else happens, commits by one CAS128, and answers
OK with OUT 0. -/
def Obligations.AtomicJumpCompletes : Prop :=
  ∀ (i : Instr) (s : State) (a : Agent) (q : Request), i.kind.op = .jump → i.kind.atomic = true → Inv s →
    ActiveIn s .idle a → a.req = some q → a.rsp = none → Admissible s.params i.kind i.addr →
    let g := s.cell i.addr
    let n := jump i.kind.family g
    ∃ t b, execTimes 135 i s = .next t ∧
      t.cell i.addr = n ∧ SameOutside i.addr.toNat 16 s t ∧
      t.order = .cas (.agent s.active) i.addr g n true ::
        .read (.agent s.active) (i.addr + 8) .w64 g.s1 :: .read (.agent s.active) i.addr .w64 g.s0 :: s.order ∧
      t.agents = s.agents.set s.active b ∧ b.phase = .idle ∧ b.busy = false ∧ b.req = none ∧
      b.rsp = some ⟨0, 0⟩ ∧ b.fault = 0 ∧ SameElse s t

/-- R126: with nothing in between, the unshared and the atomic form of an operation of a family make the same
change to the memory and answer alike. -/
def Obligations.UnsharedEqualsAtomicUncontended : Prop :=
  ∀ (i c : Instr) (s : State) (a : Agent) (q : Request), i.kind.op ≠ .seed → i.kind.atomic = false →
    c.kind = ⟨i.kind.op, true, i.kind.family⟩ → c.addr = i.addr → Inv s →
    ActiveIn s .idle a → a.req = some q → a.rsp = none → Admissible s.params c.kind c.addr →
    ∃ n m t u b d, execTimes n i s = .next t ∧ execTimes m c s = .next u ∧ SameMemory t u ∧
      t.agents = s.agents.set s.active b ∧ u.agents = s.agents.set s.active d ∧
      b.phase = .idle ∧ d.phase = .idle ∧ b.rsp.isSome = true ∧ b.rsp = d.rsp

/-! ### Frames (R20, R25 to R32, R111) -/

/-- R20, R146: a step of a command changes no register of another agent and nothing else of the machine but
the memory and its order. -/
def Obligations.ExecChangesOnlyTheActiveAgent : Prop :=
  ∀ (i : Instr) (s t : State), exec i s = .next t →
    SameElse s t ∧ t.agents.length = s.agents.length ∧ ∀ j, j ≠ s.active → t.agents[j]? = s.agents[j]?

/-- R25 to R28, R31 to R33: each register of the active agent is changed only by the steps the spec names as
its writers, for all nine commands. -/
def Obligations.RegistersChangeOnlyInTheirSteps : Prop :=
  ∀ (i : Instr) (s t : State) (a b : Agent), exec i s = .next t → s.agents[s.active]? = some a →
    t.agents[s.active]? = some b →
    ((a.phase ≠ .idle) → b.cmdr = a.cmdr ∧ b.addrr = a.addrr ∧ b.opa = a.opa ∧ b.opb = a.opb ∧
      b.fault = a.fault ∧ b.faultCmd = a.faultCmd ∧ b.faultAddr = a.faultAddr) ∧
    (a.phase ≠ .rd0 → b.exp0 = a.exp0) ∧ (a.phase ≠ .rd1 → b.exp1 = a.exp1) ∧
    (a.phase ≠ .compute → a.phase ≠ .jiter → b.cand0 = a.cand0 ∧ b.cand1 = a.cand1 ∧ b.acc0 = a.acc0 ∧
      b.acc1 = a.acc1 ∧ b.w0 = a.w0 ∧ b.w1 = a.w1 ∧ b.k = a.k) ∧
    (a.phase ≠ .compute → a.phase ≠ .jiter → a.phase ≠ .idle → b.outr = a.outr) ∧
    (a.phase ≠ .idle → a.phase ≠ .halted → b.req = a.req) ∧
    (a.phase ≠ .resp → a.phase ≠ .halted → b.rsp = a.rsp) ∧
    (a.phase ≠ .idle → a.phase ≠ .resp → b.busy = a.busy)

/-- R45, R46, R48, R98: a step stores only where `storedRange` says, for all nine commands; a phase that
stores nothing leaves every byte. -/
def Obligations.ExecStoresOnlyInItsRange : Prop :=
  ∀ (i : Instr) (s t : State) (a : Agent), exec i s = .next t → s.agents[s.active]? = some a →
    (∀ first n, storedRange s a = some (first, n) → SameOutside first n s t) ∧
    (storedRange s a = none → SameMemory s t)

/-- R111: an agent's step makes at most one memory event, and only in SEED_W0, SEED_W1, RD0, RD1, CAS, WR0 and
WR1; it is the agent's own, and without an event the memory is unchanged. -/
def Obligations.AgentStepMakesAtMostOneEvent : Prop :=
  ∀ (s t : State) (j : Nat), perform (.agent j) s = .next t →
    Eventless s t ∨
    (∃ a e, s.agents[j]? = some a ∧ a.phase ∈ [Phase.seedW0, .seedW1, .rd0, .rd1, .cas, .wr0, .wr1] ∧
      t.order = e :: s.order ∧
      ((∃ addr v, e = .read (.agent j) addr .w64 v) ∨ (∃ addr v, e = .write (.agent j) addr .w64 v) ∨
        (∃ addr x n ok, e = .cas (.agent j) addr x n ok)))

/-- R33: no request and no response is dropped or overwritten: REQ is filled only by a present move on an empty
slot and emptied only by the accept step or a HALTED answer; RSP is filled only by the agent on an empty slot
and emptied only by a take move; a reset empties both. -/
def Obligations.SlotsLoseNothing : Prop :=
  ∀ (s t : State) (m : Move) (j : Nat) (a b : Agent), perform m s = .next t → m ≠ .reset →
    s.agents[j]? = some a → t.agents[j]? = some b →
    (b.req ≠ a.req →
      (∃ r, m = .present j r ∧ a.req = none ∧ b.req = some r) ∨
      (m = .agent j ∧ (a.phase = .idle ∨ a.phase = .halted) ∧ a.req ≠ none ∧ b.req = none)) ∧
    (b.rsp ≠ a.rsp →
      (m = .take j ∧ b.rsp = none ∧ ∃ r, a.rsp = some r ∧ t.seen = .took j r :: s.seen) ∨
      (m = .agent j ∧ (a.phase = .resp ∨ a.phase = .halted) ∧ a.rsp = none ∧ b.rsp ≠ none))

/-! ### The invariant and progress -/

/-- R39, R160: the state after reset meets the invariant, and so does the launch of any well-formed
parameters. -/
def Obligations.LaunchMeetsTheInvariant : Prop :=
  Inv State.reset ∧ ∀ p : Params, Params.wf p → Inv (State.launch p)

/-- The invariant of the block is kept by every step, whatever the moves. -/
def Obligations.EveryStepKeepsTheInvariant : Prop :=
  ∀ s t : State, Inv s → step s = .next t → Inv t

/-- R123, R49: where the invariant holds every agent's step answers a next state, never a stop, and the step
changes the agent's registers exactly when it is enabled. -/
def Obligations.AgentsNeverStop : Prop :=
  ∀ (s : State) (j : Nat) (a : Agent), Inv s → s.agents[j]? = some a →
    ∃ t b, perform (.agent j) s = .next t ∧ t.agents[j]? = some b ∧ (b ≠ a ↔ enabled a = true)

/-- No step of the machine faults where the invariant holds, and it refuses exactly the moves that break R170's
condition for them; every other move answers a next state. That such a move is refused is the model's choice
(log 12, log 15). -/
def Obligations.StepRefusesOnlyTheEnvironment : Prop :=
  ∀ s : State, Inv s →
    (∀ r, step s ≠ .fault r) ∧
    ((∃ r, step s = .refused r) ↔ ∃ m ms, s.moves = m :: ms ∧ NeverMade s m) ∧
    ((∃ t, step s = .next t) ↔ ∀ m ms, s.moves = m :: ms → ¬ NeverMade s m)

/-- R144: no move but a reset changes a HALTED agent outside its slots, so it stays HALTED with its first
fault's registers; its own step makes no memory event and answers a request with its fault's code and 0. -/
def Obligations.HaltedUntilReset : Prop :=
  ∀ (s t : State) (m : Move) (j : Nat) (a : Agent), perform m s = .next t → m ≠ .reset →
    s.agents[j]? = some a → a.phase = .halted →
    ∃ q p, t.agents[j]? = some { a with req := q, rsp := p } ∧
      (m = .agent j → t.mem = s.mem ∧ t.order = s.order ∧
        ∀ r, a.req = some r → a.rsp = none → q = none ∧ p = some ⟨a.fault, 0⟩)

/-- R31, R32: the first fault of an agent stays in FAULT, FAULT_CMD and FAULT_ADDR until a reset. -/
def Obligations.FirstFaultIsKept : Prop :=
  ∀ (s t : State) (j : Nat) (a : Agent), Inv s → step s = .next t → s.agents[j]? = some a →
    a.fault ≠ 0 → (∀ ms, s.moves ≠ .reset :: ms) →
    ∃ b, t.agents[j]? = some b ∧ b.fault = a.fault ∧ b.faultCmd = a.faultCmd ∧ b.faultAddr = a.faultAddr

/-! ### Memory order and atomicity (R46, R50 to R55, R125 to R127) -/

/-- R50: at every point of a run the memory is what the events so far leave of `M0`, every read saw the last
write before it, and every CAS128 succeeded exactly when both words matched. -/
def Obligations.MemoryOrderExplainsTheMemory : Prop :=
  (∀ p : Params, OrderExplains (State.launch p)) ∧
  (∀ s t : State, OrderExplains s → step s = .next t → OrderExplains t)

/-- R125: when an atomic command's CAS128 succeeds, the cell held its snapshot, now holds the command's
transition or jump of it, and OUTR is that transition's output (0 for a jump). -/
def Obligations.SuccessfulCasCommitsOneTransition : Prop :=
  ∀ (s t : State) (j : Nat) (a b : Agent) (k : CommandKind), Inv s → s.agents[j]? = some a → a.phase = .cas →
    decodeCmd a.cmdr = .ok k → perform (.agent j) s = .next t → t.agents[j]? = some b → b.phase = .resp →
    let v := s.cell a.addrr
    v = ⟨a.exp0, a.exp1⟩ ∧ t.cell a.addrr = (applied k v).1 ∧ b.outr = (applied k v).2 ∧
      (k.op = .next → (applied k v).2 = transOut k.family v) ∧ (k.op = .jump → b.outr = 0)

/-- R127, R52: of a cell that only atomic commands write, whatever the interleaving of agents and environment:
its value at the end is the value it had with the commits of the run applied in their order, each its own
command's transition or jump; and the events the run put on the order that write the cell are exactly those
commits' CAS128 events, each from the value the one before it left. -/
def Obligations.SharedCellHoldsOnlyTransitions : Prop :=
  ∀ (c : Word) (ms : List Move) (s t : State), Inv s → c.toNat % 16 = 0 → AgentsAtomicOn c s →
    (∀ m ∈ ms, MoveAtomicOn c m) → runMoves ms s = .next t →
    let cs := commitsOf c ms s
    t.cell c = committed cs (s.cell c) ∧
    (∀ j k, (j, k) ∈ cs → k.atomic = true ∧ k.op ≠ .seed) ∧
    ∃ added, t.order = added ++ s.order ∧
      added.reverse.filter (fun e => e.writesCell c) = commitEvents c cs (s.cell c)

/-- R52, R127, one move: a cell that only atomic commands write is changed by nothing but the successful CAS128
of an agent's command, which puts the command's transition or jump of the cell's value there; and the cell stays
one that only atomic commands write. -/
def Obligations.SharedCellChangesOnlyByACommit : Prop :=
  ∀ (c : Word) (m : Move) (s t : State), Inv s → c.toNat % 16 = 0 → AgentsAtomicOn c s → MoveAtomicOn c m →
    perform m s = .next t →
    AgentsAtomicOn c t ∧
    (t.cell c = s.cell c ∨
      ∃ j a k, m = .agent j ∧ s.agents[j]? = some a ∧ a.phase = .cas ∧ a.addrr = c ∧
        decodeCmd a.cmdr = .ok k ∧ t.cell c = (applied k (s.cell c)).1 ∧
        t.order = .cas (.agent j) c (s.cell c) (applied k (s.cell c)).1 true :: s.order)

/-- R55: a snapshot stays the cell's value as long as no event changes the cell, and with such a snapshot the
CAS128 succeeds. -/
def Obligations.UndisturbedCasSucceeds : Prop :=
  ∀ (s t : State) (m : Move) (j : Nat) (a b : Agent), Inv s → perform m s = .next t →
    s.agents[j]? = some a → t.agents[j]? = some b → m ≠ .reset →
    (t.word a.addrr = s.word a.addrr → t.word (a.addrr + 8) = s.word (a.addrr + 8) →
      (a.phase = .rd0 → m = .agent j → Fresh t b) ∧
      (Fresh s a → m ≠ .agent j → Fresh t b) ∧
      (Fresh s a → m = .agent j → a.phase ≠ .cas → Fresh t b ∨ b.phase = .wr0)) ∧
    (Fresh s a → m = .agent j → a.phase = .cas →
      b.phase = .resp ∧ t.cell a.addrr = ⟨a.cand0, a.cand1⟩)

/-- R55: when no event writes the cell between an agent's RD0 and its CAS128, that CAS128 succeeds. -/
def Obligations.QuietWindowCommits : Prop :=
  ∀ (r : Run) (j n m : Nat) (a : Agent), Inv (r.state 0) → r.Legal → r.Window j n m → r.agent n j = some a →
    r.Quiet a.addrr n m →
    ∃ b e v, r.agent (m + 1) j = some b ∧ b.phase = .resp ∧ latched b = latched a ∧
      (r.state (m + 1)).order = .cas (.agent j) a.addrr e v true :: (r.state m).order

/-- R118, R55: no bound on retries. From any agent about to read for an atomic command, the command's own steps
and other moves, no reset and no move of its caller among them, can make any number of rounds fail and none
succeed. -/
def Obligations.RetriesHaveNoBound : Prop :=
  ∀ (n : Nat) (s : State) (j : Nat) (a : Agent) (k : CommandKind), Inv s → s.agents[j]? = some a →
    a.phase = .rd0 → decodeCmd a.cmdr = .ok k → k.atomic = true →
    ∃ ms t b added, runMoves ms s = .next t ∧
      (∀ m ∈ ms, m ≠ .reset ∧ m ≠ .take j ∧ ∀ r, m ≠ .present j r) ∧
      t.order = added ++ s.order ∧ (added.filter (MemEvent.isCasBy j false)).length = n ∧
      added.filter (MemEvent.isCasBy j true) = [] ∧
      t.agents[j]? = some b ∧ b.phase = .rd0 ∧ latched b = latched a ∧ b.req = a.req ∧ b.rsp = a.rsp

/-- R175: under its assumption every command ends. In an infinite run with weakly fair agents, in which a command
that goes round forever has a window without other writes, and callers that empty their response slots, an agent
in a command comes to the step that answers it, unless a reset abandons it. -/
def Obligations.FairRunsEndEveryCommand : Prop :=
  ∀ (r : Run) (n j : Nat) (a : Agent), Inv (r.state 0) → r.Legal → WeaklyFair r → EventuallyQuiet r →
    CallersTake r → r.agent n j = some a → busyPhase a.phase = true →
    ∃ m, n ≤ m ∧ r.InOneCommand j n m ∧
      (r.move m = .reset ∨
        ∃ b c, r.move m = .agent j ∧ r.agent m j = some b ∧ b.phase = .resp ∧ b.rsp = none ∧
          r.agent (m + 1) j = some c ∧ c.rsp = some (responseOf b) ∧ c.busy = false)

/-! ### Two runs compared (R39, R42, R155) -/

/-- R39: the registers reset leaves UNSPECIFIED are read by no step before one of the same command has written
them: two states that differ at most there make steps that differ at most there. -/
def Obligations.UnspecifiedRegistersAreNotRead : Prop :=
  ∀ s u t : State, Inv s → Inv u → SameLiveState s u → step s = .next t →
    ∃ v, step u = .next v ∧ SameLiveState t v

/-- R42: what an agent does, answers and leaves in each word does not depend on the byte order. -/
def Obligations.ByteOrderIsInvisibleToTheBlock : Prop :=
  ∀ (s u t : State) (j : Nat), Inv s → SameWords s u → perform (.agent j) s = .next t →
    ∃ v, perform (.agent j) u = .next v ∧ SameWords t v

/-- R155: without the double-word CAS every atomic command faults with CAS_UNSUPPORTED, and SEED and the
unshared commands do exactly what they do with it. -/
def Obligations.WithoutCasOnlyAtomicCommandsFault : Prop :=
  ∀ (i : Instr) (s : State) (a : Agent) (q : Request),
    let without : State := { s with params := { s.params with hasCas128 := false } }
    (i.kind.atomic = true → ActiveIn s .idle a → a.req = some q →
      exec i without = .next (without.setActive (raiseFault .casUnsupported (latch (encode i) a))) ∧
      Status.code .casUnsupported = 2) ∧
    (i.kind.atomic = false → ∀ t, exec i s = .next t →
      exec i without = .next { t with params := { t.params with hasCas128 := false } }) ∧
    (capValue without.params).getLsbD 0 = false

/-! ### Transition Core and Jump Engine (spec/40_transition_core.md, 41_jump_engine.md) -/

/-- R85: the all-zero State is a fixed point of both families with output 0, and of both jumps. -/
def Obligations.ZeroStateIsFixed : Prop :=
  ∀ f : Family, trans f ⟨0, 0⟩ = (⟨0, 0⟩, 0) ∧ jump f ⟨0, 0⟩ = ⟨0, 0⟩

/-- R86: the state part of each family is linear over GF(2), and the output is not. -/
def Obligations.TransitionIsLinear : Prop :=
  ∀ f : Family,
    (∀ x y : GenState, transState f (x.xor y) = (transState f x).xor (transState f y)) ∧
    ∃ x y : GenState, transOut f (x.xor y) ≠ transOut f x ^^^ transOut f y

/-- R87, in part: each family's transition has an inverse, so every State lies on a cycle. -/
def Obligations.TransitionIsInvertible : Prop :=
  ∀ f : Family, Function.Bijective (transState f)

/-- R87, in part: the polynomial of R87's table annihilates the transition of its family. -/
def Obligations.CharacteristicPolynomialAnnihilates : Prop :=
  ∀ (f : Family) (s : GenState),
    let p : Nat := if f = .a then 0x12844c5d42caf7db0024f06fae9e61daf else 0x100653ced7f29f88a5fd66762f0e1c001
    ((List.range 129).filter (fun k => p.testBit k)).foldl
      (fun (acc : GenState) k => acc.xor ((transState f)^[k] s)) ⟨0, 0⟩ = ⟨0, 0⟩

/-- R94: iteration k tests bit k mod 64 of mask k div 64 on the k-th iterate, so the jump is the exclusive or
of the iterates whose mask bit is set. -/
def Obligations.JumpIsTheXorOfSelectedIterates : Prop :=
  ∀ (f : Family) (s : GenState),
    let mask0 : Word := if f = .a then 0x8a5cd789635d2dff else 0xbeac0467eba5facb
    let mask1 : Word := if f = .a then 0x121fd2155c472f96 else 0xd86b048b86aa9922
    (∀ k, k ≤ 128 → (jumpAfter f s k).w = (transState f)^[k] s) ∧
    jump f s = ((List.range 128).filter
      (fun k => (if k < 64 then mask0 else mask1).getLsbD (k % 64))).foldl
        (fun (acc : GenState) k => acc.xor ((transState f)^[k] s)) ⟨0, 0⟩

/-- R95: the jump is linear, commutes with the transition, and maps the zero State and no other to the zero
State. -/
def Obligations.JumpIsLinearAndCommutes : Prop :=
  ∀ (f : Family) (x y : GenState),
    jump f (x.xor y) = (jump f x).xor (jump f y) ∧ jump f (transState f x) = transState f (jump f x) ∧
    (jump f x = ⟨0, 0⟩ ↔ x = ⟨0, 0⟩)

/-- R90: the jump is exactly 2^64 applications of the transition's state part. -/
def Obligations.JumpIsTwoPow64Transitions : Prop :=
  ∀ (f : Family) (s : GenState), jump f s = (transState f)^[2 ^ 64] s

/-! ### The environment's moves and reset (R30, R33, R47, R160, R170) -/

/-- R160: a reset puts every agent in IDLE with BUSY 0, empty slots and no fault recorded, abandons every
command, and leaves the parameters, the memory and the memory order as they are. -/
def Obligations.ResetAbandonsEveryCommand : Prop :=
  ∀ s : State, ∃ t, perform .reset s = .next t ∧ t.params = s.params ∧ t.mem = s.mem ∧ t.order = s.order ∧
    t.agents.length = s.agents.length ∧
    ∀ b ∈ t.agents, b.phase = .idle ∧ b.busy = false ∧ b.req = none ∧ b.rsp = none ∧ b.fault = 0 ∧
      b.faultCmd = 0 ∧ b.faultAddr = 0

/-- R33, R170: a caller presents into an empty REQ, takes from a full RSP, and samples at any time without
effect; CAP reads as R30 says. What R170 does not allow is refused, which is the model's choice (log 15). -/
def Obligations.CallersPresentTakeAndSample : Prop :=
  ∀ (s : State) (j : Nat) (a : Agent), s.agents[j]? = some a →
    (∀ r, (a.req = none → perform (.present j r) s = .next (s.setAgent j { a with req := some r })) ∧
      (∀ q, a.req = some q → perform (.present j r) s = .refused .requestSlotFull)) ∧
    (∀ r, a.rsp = some r → perform (.take j) s =
      .next { s.setAgent j { a with rsp := none } with seen := .took j r :: s.seen }) ∧
    (a.rsp = none → perform (.take j) s = .refused .responseSlotEmpty) ∧
    (∀ reg, ∃ v, perform (.sample j reg) s = .next { s with seen := .sampled j reg v :: s.seen } ∧
      (reg = .busy → v = if a.busy then 1 else 0) ∧
      (reg = .cap → v = if s.params.hasCas128 then 0b111 else 0b110) ∧
      (reg = .fault → v.toNat = a.fault.toNat) ∧ (reg = .faultCmd → v.toNat = a.faultCmd.toNat) ∧
      (reg = .faultAddr → v = a.faultAddr))

/-- R47, for the accesses of log 9 and the orders of log 10, the model's choices: a memory user's write of a
width puts its bytes where `BYTE_ORDER` says, leaves every other byte, and a read of that
width then sees the value's low bits. -/
def Obligations.MemoryUserBytesFollowTheByteOrder : Prop :=
  ∀ (s : State) (u : Nat) (a : Word) (w : Width) (v : Word), Memory.wf s.mem →
    userAccessOk s.params a w = true →
    ∃ t, perform (.userWrite u a w v) s = .next t ∧
      (∀ i, i < w.bytes → byteAt t.mem (a.toNat + i) =
        BitVec.ofNat 8 (v.toNat / 256 ^ (if s.params.byteOrder = .little then i else w.bytes - 1 - i))) ∧
      SameOutside a.toNat w.bytes s t ∧ t.agents = s.agents ∧
      ∃ x, perform (.userRead u a w) t = .next x ∧ x.mem = t.mem ∧
        x.order = .read (.user u) a w (BitVec.ofNat 64 (v.toNat % 256 ^ w.bytes)) ::
          .write (.user u) a w v :: s.order

/-- R47, R46: a memory user's CAS128 on an admitted 16-aligned cell is one event; it writes both words when both
equal the expected ones, and writes nothing otherwise. -/
def Obligations.MemoryUserCasIsOneEvent : Prop :=
  ∀ (s : State) (u : Nat) (a : Word) (e n : GenState), Memory.wf s.mem →
    s.params.hasCas128 = true → a.toNat % 16 = 0 → admits s.params a = true → admits s.params (a + 8) = true →
    ∃ t, perform (.userCas u a e n) s = .next t ∧ t.agents = s.agents ∧ SameElse s t ∧
      if s.word a = e.s0 ∧ s.word (a + 8) = e.s1 then
        t.word a = n.s0 ∧ t.word (a + 8) = n.s1 ∧ SameOutside a.toNat 16 s t ∧
          t.order = .cas (.user u) a e n true :: s.order
      else SameMemory s t ∧ t.order = .cas (.user u) a e n false :: s.order

/-- The canonical form of the memory is kept by every memory event (log 11). -/
def Obligations.MemoryEventsKeepTheCanonicalForm : Prop :=
  ∀ (s : State), Memory.wf s.mem →
    (∀ who a w v, Memory.wf (s.writeEvent who a w v).mem) ∧
    (∀ who a e n, Memory.wf (s.casEvent who a e n).mem) ∧
    (∀ m t, perform m s = .next t → Memory.wf t.mem)
end

