-- ==== Sys2Proof/Laws/State.lean ====
section
/-! SUPPORT. One lemma per field per update of State, so that no proof unfolds a record update. -/

namespace Sys2Proof.Machine

open Sys2Proof

@[simp] theorem State.setAgent_params (s : State) (j : Nat) (a : Agent) :
    (s.setAgent j a).params = s.params := rfl

@[simp] theorem State.setAgent_agents (s : State) (j : Nat) (a : Agent) :
    (s.setAgent j a).agents = s.agents.set j a := rfl

@[simp] theorem State.setAgent_mem (s : State) (j : Nat) (a : Agent) :
    (s.setAgent j a).mem = s.mem := rfl

@[simp] theorem State.setAgent_active (s : State) (j : Nat) (a : Agent) :
    (s.setAgent j a).active = s.active := rfl

@[simp] theorem State.setAgent_moves (s : State) (j : Nat) (a : Agent) :
    (s.setAgent j a).moves = s.moves := rfl

@[simp] theorem State.setAgent_order (s : State) (j : Nat) (a : Agent) :
    (s.setAgent j a).order = s.order := rfl

@[simp] theorem State.setAgent_seen (s : State) (j : Nat) (a : Agent) :
    (s.setAgent j a).seen = s.seen := rfl

@[simp] theorem State.setAgent_resets (s : State) (j : Nat) (a : Agent) :
    (s.setAgent j a).resets = s.resets := rfl

@[simp] theorem State.setActive_params (s : State) (a : Agent) :
    (s.setActive a).params = s.params := rfl

@[simp] theorem State.setActive_agents (s : State) (a : Agent) :
    (s.setActive a).agents = s.agents.set s.active a := rfl

@[simp] theorem State.setActive_mem (s : State) (a : Agent) :
    (s.setActive a).mem = s.mem := rfl

@[simp] theorem State.setActive_active (s : State) (a : Agent) :
    (s.setActive a).active = s.active := rfl

@[simp] theorem State.setActive_moves (s : State) (a : Agent) :
    (s.setActive a).moves = s.moves := rfl

@[simp] theorem State.setActive_order (s : State) (a : Agent) :
    (s.setActive a).order = s.order := rfl

@[simp] theorem State.setActive_seen (s : State) (a : Agent) :
    (s.setActive a).seen = s.seen := rfl

@[simp] theorem State.setActive_resets (s : State) (a : Agent) :
    (s.setActive a).resets = s.resets := rfl

@[simp] theorem State.record_params (s : State) (e : MemEvent) :
    (s.record e).params = s.params := rfl

@[simp] theorem State.record_agents (s : State) (e : MemEvent) :
    (s.record e).agents = s.agents := rfl

@[simp] theorem State.record_mem (s : State) (e : MemEvent) :
    (s.record e).mem = s.mem := rfl

@[simp] theorem State.record_active (s : State) (e : MemEvent) :
    (s.record e).active = s.active := rfl

@[simp] theorem State.record_moves (s : State) (e : MemEvent) :
    (s.record e).moves = s.moves := rfl

@[simp] theorem State.record_order (s : State) (e : MemEvent) :
    (s.record e).order = e :: s.order := rfl

@[simp] theorem State.record_seen (s : State) (e : MemEvent) :
    (s.record e).seen = s.seen := rfl

@[simp] theorem State.record_resets (s : State) (e : MemEvent) :
    (s.record e).resets = s.resets := rfl

@[simp] theorem State.put_params (s : State) (a : Word) (w : Width) (v : Word) :
    (s.put a w v).params = s.params := rfl

@[simp] theorem State.put_agents (s : State) (a : Word) (w : Width) (v : Word) :
    (s.put a w v).agents = s.agents := rfl

@[simp] theorem State.put_mem (s : State) (a : Word) (w : Width) (v : Word) :
    (s.put a w v).mem = storeValue s.params.byteOrder s.mem a.toNat w v := rfl

@[simp] theorem State.put_active (s : State) (a : Word) (w : Width) (v : Word) :
    (s.put a w v).active = s.active := rfl

@[simp] theorem State.put_moves (s : State) (a : Word) (w : Width) (v : Word) :
    (s.put a w v).moves = s.moves := rfl

@[simp] theorem State.put_order (s : State) (a : Word) (w : Width) (v : Word) :
    (s.put a w v).order = s.order := rfl

@[simp] theorem State.put_seen (s : State) (a : Word) (w : Width) (v : Word) :
    (s.put a w v).seen = s.seen := rfl

@[simp] theorem State.put_resets (s : State) (a : Word) (w : Width) (v : Word) :
    (s.put a w v).resets = s.resets := rfl

@[simp] theorem State.readEvent_params (s : State) (who : Actor) (a : Word) (w : Width) :
    (s.readEvent who a w).params = s.params := rfl

@[simp] theorem State.readEvent_agents (s : State) (who : Actor) (a : Word) (w : Width) :
    (s.readEvent who a w).agents = s.agents := rfl

@[simp] theorem State.readEvent_mem (s : State) (who : Actor) (a : Word) (w : Width) :
    (s.readEvent who a w).mem = s.mem := rfl

@[simp] theorem State.readEvent_active (s : State) (who : Actor) (a : Word) (w : Width) :
    (s.readEvent who a w).active = s.active := rfl

@[simp] theorem State.readEvent_moves (s : State) (who : Actor) (a : Word) (w : Width) :
    (s.readEvent who a w).moves = s.moves := rfl

@[simp] theorem State.readEvent_order (s : State) (who : Actor) (a : Word) (w : Width) :
    (s.readEvent who a w).order = .read who a w (loadValue s.params.byteOrder s.mem a.toNat w) :: s.order := rfl

@[simp] theorem State.readEvent_seen (s : State) (who : Actor) (a : Word) (w : Width) :
    (s.readEvent who a w).seen = s.seen := rfl

@[simp] theorem State.readEvent_resets (s : State) (who : Actor) (a : Word) (w : Width) :
    (s.readEvent who a w).resets = s.resets := rfl

@[simp] theorem State.writeEvent_params (s : State) (who : Actor) (a : Word) (w : Width) (v : Word) :
    (s.writeEvent who a w v).params = s.params := rfl

@[simp] theorem State.writeEvent_agents (s : State) (who : Actor) (a : Word) (w : Width) (v : Word) :
    (s.writeEvent who a w v).agents = s.agents := rfl

@[simp] theorem State.writeEvent_mem (s : State) (who : Actor) (a : Word) (w : Width) (v : Word) :
    (s.writeEvent who a w v).mem = storeValue s.params.byteOrder s.mem a.toNat w v := rfl

@[simp] theorem State.writeEvent_active (s : State) (who : Actor) (a : Word) (w : Width) (v : Word) :
    (s.writeEvent who a w v).active = s.active := rfl

@[simp] theorem State.writeEvent_moves (s : State) (who : Actor) (a : Word) (w : Width) (v : Word) :
    (s.writeEvent who a w v).moves = s.moves := rfl

@[simp] theorem State.writeEvent_order (s : State) (who : Actor) (a : Word) (w : Width) (v : Word) :
    (s.writeEvent who a w v).order = .write who a w v :: s.order := rfl

@[simp] theorem State.writeEvent_seen (s : State) (who : Actor) (a : Word) (w : Width) (v : Word) :
    (s.writeEvent who a w v).seen = s.seen := rfl

@[simp] theorem State.writeEvent_resets (s : State) (who : Actor) (a : Word) (w : Width) (v : Word) :
    (s.writeEvent who a w v).resets = s.resets := rfl

@[simp] theorem State.casEvent_params (s : State) (who : Actor) (a : Word) (e n : GenState) :
    (s.casEvent who a e n).params = s.params := by
  unfold State.casEvent; split <;> rfl

@[simp] theorem State.casEvent_agents (s : State) (who : Actor) (a : Word) (e n : GenState) :
    (s.casEvent who a e n).agents = s.agents := by
  unfold State.casEvent; split <;> rfl

@[simp] theorem State.casEvent_active (s : State) (who : Actor) (a : Word) (e n : GenState) :
    (s.casEvent who a e n).active = s.active := by
  unfold State.casEvent; split <;> rfl

@[simp] theorem State.casEvent_moves (s : State) (who : Actor) (a : Word) (e n : GenState) :
    (s.casEvent who a e n).moves = s.moves := by
  unfold State.casEvent; split <;> rfl

@[simp] theorem State.casEvent_seen (s : State) (who : Actor) (a : Word) (e n : GenState) :
    (s.casEvent who a e n).seen = s.seen := by
  unfold State.casEvent; split <;> rfl

@[simp] theorem State.casEvent_resets (s : State) (who : Actor) (a : Word) (e n : GenState) :
    (s.casEvent who a e n).resets = s.resets := by
  unfold State.casEvent; split <;> rfl

@[simp] theorem State.casEvent_order (s : State) (who : Actor) (a : Word) (e n : GenState) :
    (s.casEvent who a e n).order = .cas who a e n (s.casSucceeds a e) :: s.order := by
  unfold State.casEvent; split <;> simp_all

theorem State.casEvent_mem (s : State) (who : Actor) (a : Word) (e n : GenState) :
    (s.casEvent who a e n).mem =
      if s.casSucceeds a e then
        storeValue s.params.byteOrder (storeValue s.params.byteOrder s.mem a.toNat .w64 n.s0)
          (secondWord a).toNat .w64 n.s1
      else s.mem := by
  unfold State.casEvent; split <;> rfl

/-- The word at `a` after an agent's registers change (R44 reads the memory only). -/
@[simp] theorem State.word_setActive (s : State) (a' : Agent) (a : Word) :
    (s.setActive a').word a = s.word a := rfl

@[simp] theorem State.word_setAgent (s : State) (j : Nat) (a' : Agent) (a : Word) :
    (s.setAgent j a').word a = s.word a := rfl

@[simp] theorem State.word_record (s : State) (e : MemEvent) (a : Word) :
    (s.record e).word a = s.word a := rfl

@[simp] theorem State.word_readEvent (s : State) (who : Actor) (b : Word) (w : Width) (a : Word) :
    (s.readEvent who b w).word a = s.word a := rfl

@[simp] theorem State.cell_setActive (s : State) (a' : Agent) (a : Word) :
    (s.setActive a').cell a = s.cell a := rfl

@[simp] theorem State.cell_readEvent (s : State) (who : Actor) (b : Word) (w : Width) (a : Word) :
    (s.readEvent who b w).cell a = s.cell a := rfl

end Sys2Proof.Machine
end

