-- ==== Sys2Proof/Laws/Decode.lean ====
section
/-! SUPPORT. Decoding and encoding: the sixteen words that can be legal, and what a successful decode says. -/

namespace Sys2Proof

/-- A command word with bits 31:4 zero is one of sixteen. -/
theorem lt_sixteen_of_reserved_zero {w : CmdWord} (h : w.extractLsb' 4 28 = 0) : w.toNat < 16 := by
  have h' := congrArg BitVec.toNat h
  have h0 : (0 : BitVec 28).toNat = 0 := rfl
  rw [BitVec.extractLsb'_toNat, Nat.shiftRight_eq_div_pow, h0] at h'
  have := w.isLt
  omega

/-- A property of the command words below 16 holds if it holds of each. -/
theorem forall_small_word {P : CmdWord → Prop} (h : ∀ n : Fin 16, P (BitVec.ofNat 32 n.val)) {w : CmdWord}
    (hw : w.toNat < 16) : P w := by
  have := h ⟨w.toNat, hw⟩
  simpa using this

/-- A word with a reserved bit set is rejected for it. -/
theorem decodeCmd_reserved {w : CmdWord} (h : w.extractLsb' 4 28 ≠ 0) :
    decodeCmd w = .error .reservedBits := by
  unfold decodeCmd
  exact if_pos h

theorem reserved_zero_of_ok {w : CmdWord} {k : CommandKind} (h : decodeCmd w = .ok k) :
    w.extractLsb' 4 28 = 0 := by
  by_contra hn
  simp [decodeCmd_reserved hn] at h

/-- The kinds the sixteen words have, and the words of each kind. -/
theorem decodeCmd_small (n : Fin 16) (k : CommandKind) (h : decodeCmd (BitVec.ofNat 32 n.val) = .ok k) :
    (n.val, k) ∈
      [(0, ⟨.seed, false, .a⟩), (8, ⟨.seed, false, .a⟩), (1, ⟨.next, false, .a⟩), (9, ⟨.next, false, .b⟩),
       (5, ⟨.next, true, .a⟩), (13, ⟨.next, true, .b⟩), (2, ⟨.jump, false, .a⟩), (10, ⟨.jump, false, .b⟩),
       (6, ⟨.jump, true, .a⟩), (14, (⟨.jump, true, .b⟩ : CommandKind))] := by
  obtain ⟨op, at', fam⟩ := k
  revert n
  cases op <;> cases at' <;> cases fam <;> decide

/-- What the decoder's answer of one of the sixteen words means for the command: its kind, and that encoding
it gives the word back. -/
theorem ofKind_small (n : Fin 16) (k : CommandKind) (addr opa opb : Word)
    (h : decodeCmd (BitVec.ofNat 32 n.val) = .ok k) :
    (Instr.ofKind k ⟨BitVec.ofNat 32 n.val, addr, opa, opb⟩).kind = k ∧
    encode (Instr.ofKind k ⟨BitVec.ofNat 32 n.val, addr, opa, opb⟩) =
      ⟨BitVec.ofNat 32 n.val, addr, opa, opb⟩ := by
  have hm := decodeCmd_small n k h
  simp only [List.mem_cons, Prod.mk.injEq, List.not_mem_nil, or_false] at hm
  rcases hm with ⟨hn, rfl⟩ | ⟨hn, rfl⟩ | ⟨hn, rfl⟩ | ⟨hn, rfl⟩ | ⟨hn, rfl⟩ | ⟨hn, rfl⟩ | ⟨hn, rfl⟩ |
    ⟨hn, rfl⟩ | ⟨hn, rfl⟩ | ⟨hn, rfl⟩ <;> rw [hn]
  case inl =>
    have h0 : (((0 : CmdWord).extractLsb' 3 1).setWidth 32) <<< 3 = (0 : CmdWord) := by decide
    exact ⟨rfl, congrArg (fun c => (⟨c, addr, opa, opb⟩ : Request)) h0⟩
  case inr.inl =>
    have h8 : (((8 : CmdWord).extractLsb' 3 1).setWidth 32) <<< 3 = (8 : CmdWord) := by decide
    exact ⟨rfl, congrArg (fun c => (⟨c, addr, opa, opb⟩ : Request)) h8⟩
  all_goals exact ⟨rfl, rfl⟩

theorem decode_ok_iff {r : Request} {i : Instr} :
    decode r = .ok i ↔ ∃ k, decodeCmd r.cmd = .ok k ∧ i = Instr.ofKind k r := by
  unfold decode
  cases decodeCmd r.cmd <;> simp [eq_comm]

theorem decode_of_cmd {r : Request} {k : CommandKind} (h : decodeCmd r.cmd = .ok k) :
    decode r = .ok (Instr.ofKind k r) :=
  decode_ok_iff.mpr ⟨k, h, rfl⟩

/-- A decoded command has the kind its word has. -/
theorem decode_kind {r : Request} {i : Instr} (h : decode r = .ok i) : decodeCmd r.cmd = .ok i.kind := by
  obtain ⟨k, hk, rfl⟩ := decode_ok_iff.mp h
  obtain ⟨cmd, addr, opa, opb⟩ := r
  have hw := lt_sixteen_of_reserved_zero (reserved_zero_of_ok hk)
  have := forall_small_word
    (P := fun w => decodeCmd w = .ok k → (Instr.ofKind k ⟨w, addr, opa, opb⟩).kind = k)
    (fun n hn => (ofKind_small n k addr opa opb hn).1) hw hk
  rw [this]
  exact hk

theorem decodeCmd_encode (i : Instr) : decodeCmd (encode i).cmd = .ok i.kind := by
  cases i with
  | seed fam addr s0 s1 =>
    have : ∀ b : BitVec 1, decodeCmd ((b.setWidth 32) <<< 3) = .ok ⟨.seed, false, .a⟩ := by decide
    exact this fam
  | xsNext => exact (by decide : decodeCmd 0x1 = .ok ⟨.next, false, .a⟩)
  | xoNext => exact (by decide : decodeCmd 0x9 = .ok ⟨.next, false, .b⟩)
  | xsNextCas => exact (by decide : decodeCmd 0x5 = .ok ⟨.next, true, .a⟩)
  | xoNextCas => exact (by decide : decodeCmd 0xD = .ok ⟨.next, true, .b⟩)
  | xsJump => exact (by decide : decodeCmd 0x2 = .ok ⟨.jump, false, .a⟩)
  | xoJump => exact (by decide : decodeCmd 0xA = .ok ⟨.jump, false, .b⟩)
  | xsJumpCas => exact (by decide : decodeCmd 0x6 = .ok ⟨.jump, true, .a⟩)
  | xoJumpCas => exact (by decide : decodeCmd 0xE = .ok ⟨.jump, true, .b⟩)

@[simp] theorem encode_addr (i : Instr) : (encode i).addr = i.addr := by cases i <;> rfl

end Sys2Proof
end

