-- ==== Sys2Proof/Laws/Memory.lean ====
section
/-! SUPPORT. The laws of the memory: a read after a write, a write leaves every other byte alone, and every
operation keeps the canonical form. -/

namespace Sys2Proof.Machine

open Sys2Proof

/-! ### The canonical form and one byte -/

theorem Memory.wf_nil : Memory.wf [] := by simp [Memory.wf]

theorem Memory.wf_tail {c : Host.Cell} {m : Memory} (h : Memory.wf (c :: m)) : Memory.wf m :=
  ⟨(List.pairwise_cons.mp h.1).2, fun d hd => h.2 d (List.mem_cons_of_mem _ hd)⟩

theorem Memory.wf_cons_iff (c : Host.Cell) (m : Memory) :
    Memory.wf (c :: m) ↔ (∀ d ∈ m, c.1 < d.1) ∧ c.2 ≠ Config.unlistedByte ∧ Memory.wf m := by
  simp only [Memory.wf, List.pairwise_cons, List.forall_mem_cons]
  tauto

/-- An address below all those listed reads as an unlisted one. -/
theorem byteAt_below {m : Memory} {a : Nat} (h : ∀ d ∈ m, a < d.1) : byteAt m a = Config.unlistedByte := by
  induction m with
  | nil => rfl
  | cons c m ih =>
    obtain ⟨k, v⟩ := c
    have hk : a < k := h (k, v) List.mem_cons_self
    simp only [byteAt, if_neg (Nat.ne_of_gt hk)]
    exact ih fun d hd => h d (List.mem_cons_of_mem _ hd)

/-- A write's new entry is the only new address. -/
theorem mem_setByte {m : Memory} {a : Nat} {b : Byte} {d : Host.Cell} (h : d ∈ setByte m a b) :
    d ∈ m ∨ (d = (a, b) ∧ b ≠ Config.unlistedByte) := by
  induction m with
  | nil =>
    simp only [setByte] at h
    split at h <;> simp_all
  | cons c m ih =>
    obtain ⟨k, v⟩ := c
    simp only [setByte] at h
    split at h
    · split at h <;> simp_all
      tauto
    · split at h
      · split at h <;> simp_all
        tauto
      · rcases List.mem_cons.mp h with rfl | h
        · exact .inl List.mem_cons_self
        · exact (ih h).imp (List.mem_cons_of_mem _) id

theorem setByte_wf {m : Memory} (h : Memory.wf m) (a : Nat) (b : Byte) : Memory.wf (setByte m a b) := by
  induction m with
  | nil => simp only [setByte]; split <;> simp_all [Memory.wf]
  | cons c m ih =>
    obtain ⟨k, v⟩ := c
    have hc := (Memory.wf_cons_iff (k, v) m).mp h
    simp only [setByte]
    split
    case isTrue hlt =>
      split
      · exact h
      case isFalse hb =>
        refine (Memory.wf_cons_iff _ _).mpr ⟨?_, hb, h⟩
        intro d hd
        rcases List.mem_cons.mp hd with rfl | hd
        · exact hlt
        · exact lt_trans hlt (hc.1 d hd)
    case isFalse hnlt =>
      split
      case isTrue heq =>
        split
        · exact hc.2.2
        case isFalse hb => exact (Memory.wf_cons_iff _ _).mpr ⟨heq ▸ hc.1, hb, hc.2.2⟩
      case isFalse hne =>
        refine (Memory.wf_cons_iff _ _).mpr ⟨?_, hc.2.1, ih hc.2.2⟩
        intro d hd
        rcases mem_setByte hd with hd | ⟨rfl, -⟩
        · exact hc.1 d hd
        · exact lt_of_le_of_ne (not_lt.mp hnlt) (Ne.symm hne)

theorem byteAt_setByte_same {m : Memory} (h : Memory.wf m) (a : Nat) (b : Byte) :
    byteAt (setByte m a b) a = b := by
  induction m with
  | nil => simp only [setByte]; split <;> simp_all [byteAt]
  | cons c m ih =>
    obtain ⟨k, v⟩ := c
    have hc := (Memory.wf_cons_iff (k, v) m).mp h
    simp only [setByte]
    split
    case isTrue hlt =>
      split
      case isTrue hb =>
        rw [hb]
        refine byteAt_below fun d hd => ?_
        rcases List.mem_cons.mp hd with rfl | hd
        · exact hlt
        · exact lt_trans hlt (hc.1 d hd)
      · simp [byteAt]
    case isFalse hnlt =>
      split
      case isTrue heq =>
        split
        case isTrue hb => rw [hb, heq]; exact byteAt_below hc.1
        · simp [byteAt]
      case isFalse hne => simp only [byteAt, if_neg (Ne.symm hne)]; exact ih hc.2.2

theorem byteAt_setByte_ne {m : Memory} (a : Nat) (b : Byte) {x : Nat} (hx : x ≠ a) :
    byteAt (setByte m a b) x = byteAt m x := by
  induction m with
  | nil => simp only [setByte]; split <;> simp [byteAt, Ne.symm hx]
  | cons c m ih =>
    obtain ⟨k, v⟩ := c
    simp only [setByte]
    split
    · split
      · rfl
      · simp [byteAt, Ne.symm hx]
    · split
      case isTrue heq =>
        subst heq
        split <;> simp [byteAt, Ne.symm hx]
      · simp only [byteAt, ih]

/-! ### Several bytes -/

theorem storeBytes_wf {m : Memory} (h : Memory.wf m) (a : Nat) (bs : List Byte) :
    Memory.wf (storeBytes m a bs) := by
  induction bs generalizing m a with
  | nil => exact h
  | cons b bs ih => exact ih (setByte_wf h a b) (a + 1)

theorem byteAt_storeBytes_outside (m : Memory) (a : Nat) (bs : List Byte) {x : Nat}
    (hx : x < a ∨ a + bs.length ≤ x) : byteAt (storeBytes m a bs) x = byteAt m x := by
  induction bs generalizing m a with
  | nil => rfl
  | cons b bs ih =>
    simp only [List.length_cons] at hx
    rw [storeBytes, ih _ _ (by omega), byteAt_setByte_ne _ _ (by omega)]

theorem loadBytes_congr {m m' : Memory} {a : Nat} (n : Nat)
    (h : ∀ x, a ≤ x → x < a + n → byteAt m' x = byteAt m x) : loadBytes m' a n = loadBytes m a n := by
  induction n generalizing a with
  | zero => rfl
  | succ n ih =>
    simp only [loadBytes]
    rw [h a (Nat.le_refl a) (by omega), ih fun x h1 h2 => h x (by omega) (by omega)]

theorem loadBytes_storeBytes_same {m : Memory} (h : Memory.wf m) (a : Nat) (bs : List Byte) :
    loadBytes (storeBytes m a bs) a bs.length = bs := by
  induction bs generalizing m a with
  | nil => rfl
  | cons b bs ih =>
    simp only [storeBytes, List.length_cons, loadBytes]
    rw [byteAt_storeBytes_outside _ _ _ (Or.inl (by omega)), byteAt_setByte_same h,
      ih (setByte_wf h a b)]

theorem loadBytes_storeBytes_outside (m : Memory) (a c n : Nat) (bs : List Byte)
    (h : c + n ≤ a ∨ a + bs.length ≤ c) : loadBytes (storeBytes m a bs) c n = loadBytes m c n :=
  loadBytes_congr n fun _ h1 h2 => byteAt_storeBytes_outside _ _ _ (by omega)

@[simp] theorem loadBytes_length (m : Memory) (a n : Nat) : (loadBytes m a n).length = n := by
  induction n generalizing a with
  | zero => rfl
  | succ n ih => simp [loadBytes, ih]

/-! ### Values -/

@[simp] theorem unpackBytes_length (n v : Nat) : (unpackBytes n v).length = n := by
  induction n generalizing v with
  | zero => rfl
  | succ n ih => simp [unpackBytes, ih]

@[simp] theorem inOrder_length (o : ByteOrder) (bs : List Byte) : (inOrder o bs).length = bs.length := by
  cases o <;> simp [inOrder]

@[simp] theorem inOrder_inOrder (o : ByteOrder) (bs : List Byte) : inOrder o (inOrder o bs) = bs := by
  cases o <;> simp [inOrder]

theorem packBytes_unpackBytes (n v : Nat) : packBytes (unpackBytes n v) = v % 256 ^ n := by
  induction n generalizing v with
  | zero => simp [unpackBytes, packBytes, Nat.mod_one]
  | succ n ih =>
    rw [Nat.pow_succ', Nat.mod_mul, unpackBytes, packBytes, ih, BitVec.toNat_ofNat]

theorem packBytes_lt (bs : List Byte) : packBytes bs < 256 ^ bs.length := by
  induction bs with
  | nil => simp [packBytes]
  | cons b bs ih =>
    have hb := b.isLt
    simp only [packBytes, List.length_cons, Nat.pow_succ']
    omega

theorem storeValue_wf (o : ByteOrder) {m : Memory} (h : Memory.wf m) (a : Nat) (w : Width) (v : Word) :
    Memory.wf (storeValue o m a w v) := storeBytes_wf h _ _

/-- A write changes no byte outside its own (R45). -/
theorem byteAt_storeValue_outside (o : ByteOrder) (m : Memory) (a : Nat) (w : Width) (v : Word) {x : Nat}
    (hx : x < a ∨ a + w.bytes ≤ x) : byteAt (storeValue o m a w v) x = byteAt m x :=
  byteAt_storeBytes_outside _ _ _ (by simpa using hx)

/-- A read of a width after a write of it gives the bits written, in either byte order (R42, R44, R45). -/
theorem loadValue_storeValue_same (o : ByteOrder) {m : Memory} (h : Memory.wf m) (a : Nat) (w : Width)
    (v : Word) : loadValue o (storeValue o m a w v) a w = BitVec.ofNat 64 (v.toNat % 256 ^ w.bytes) := by
  have hl : (inOrder o (unpackBytes w.bytes v.toNat)).length = w.bytes := by simp
  have := loadBytes_storeBytes_same h a (inOrder o (unpackBytes w.bytes v.toNat))
  rw [hl] at this
  rw [loadValue, storeValue, this, inOrder_inOrder, packBytes_unpackBytes]

theorem loadValue_storeValue_word (o : ByteOrder) {m : Memory} (h : Memory.wf m) (a : Nat) (v : Word) :
    loadValue o (storeValue o m a .w64 v) a .w64 = v := by
  rw [loadValue_storeValue_same o h]
  have : v.toNat % 256 ^ Width.w64.bytes = v.toNat := Nat.mod_eq_of_lt v.isLt
  rw [this, BitVec.ofNat_toNat, BitVec.setWidth_eq]

theorem loadValue_storeValue_outside (o : ByteOrder) (m : Memory) (a c : Nat) (w w' : Width) (v : Word)
    (h : c + w'.bytes ≤ a ∨ a + w.bytes ≤ c) :
    loadValue o (storeValue o m a w v) c w' = loadValue o m c w' := by
  rw [loadValue, storeValue, loadBytes_storeBytes_outside _ _ _ _ _ (by simpa using h), ← loadValue]

theorem loadValue_congr (o : ByteOrder) {m m' : Memory} (a : Nat) (w : Width)
    (h : ∀ x, a ≤ x → x < a + w.bytes → byteAt m' x = byteAt m x) :
    loadValue o m' a w = loadValue o m a w := by
  rw [loadValue, loadBytes_congr _ h, ← loadValue]

/-! ### Words at 8-aligned addresses -/

theorem secondWord_toNat {a : Word} (h : a.toNat ≤ 2 ^ 64 - 16) : (secondWord a).toNat = a.toNat + 8 := by
  unfold secondWord
  bv_omega

/-- Two different 8-aligned words do not overlap. -/
theorem aligned_disjoint {a c : Word} (ha : a.toNat % 8 = 0) (hc : c.toNat % 8 = 0) (h : c ≠ a) :
    c.toNat + 8 ≤ a.toNat ∨ a.toNat + 8 ≤ c.toNat := by
  have : c.toNat ≠ a.toNat := fun e => h (BitVec.eq_of_toNat_eq e)
  omega

theorem word_put_same {s : State} (h : Memory.wf s.mem) (a v : Word) : (s.put a .w64 v).word a = v :=
  loadValue_storeValue_word _ h _ _

theorem word_put_other {s : State} {a c : Word} (ha : a.toNat % 8 = 0) (hc : c.toNat % 8 = 0) (h : c ≠ a)
    (v : Word) : (s.put a .w64 v).word c = s.word c :=
  loadValue_storeValue_outside _ _ _ _ _ _ _ (aligned_disjoint ha hc h)

theorem put_wf {s : State} (h : Memory.wf s.mem) (a : Word) (w : Width) (v : Word) :
    Memory.wf (s.put a w v).mem := storeValue_wf _ h _ _ _

theorem writeEvent_wf {s : State} (h : Memory.wf s.mem) (who : Actor) (a : Word) (w : Width) (v : Word) :
    Memory.wf (s.writeEvent who a w v).mem := storeValue_wf _ h _ _ _

theorem casEvent_wf {s : State} (h : Memory.wf s.mem) (who : Actor) (a : Word) (e n : GenState) :
    Memory.wf (s.casEvent who a e n).mem := by
  rw [State.casEvent_mem]
  split
  · exact storeValue_wf _ (storeValue_wf _ h _ _ _) _ _ _
  · exact h

end Sys2Proof.Machine
end

