-- ==== Sys2Proof/Laws/Steps.lean ====
section
/-! SUPPORT. What a step can do, said once: the cases of `exec`, of an agent's step and of the machine's
step. Provers cite these instead of unfolding the step. -/

namespace Sys2Proof.Machine

open Sys2Proof

/-- The one form of all nine meanings. -/
theorem exec_eq (i : Instr) (s : State) :
    exec i s = if i.kind.op = .seed then seedMachine i.kind (encode i) s
      else updateMachine i.kind (encode i) s := by
  cases i <;> rfl

/-- Everything `exec` can do when it answers a next state. -/
inductive ExecCase (k : CommandKind) (r : Request) (s : State) (a : Agent) : State → Prop
  | waits (h : enabled a = false) : ExecCase k r s a s
  | accepts (q : Request) (hp : a.phase = .idle) (hq : a.req = some q) :
      ExecCase k r s a (s.setActive (accepted k.op (checkKind s.params k r.addr) r a))
  | seedW0 (hp : a.phase = .seedW0) (hk : k.op = .seed) (ok : wordAccessOk s.params a.addrr = true) :
      ExecCase k r s a
        ((s.writeEvent (.agent s.active) a.addrr .w64 a.opa).setActive { a with phase := .seedW1 })
  | seedW1 (hp : a.phase = .seedW1) (hk : k.op = .seed)
      (ok : wordAccessOk s.params (secondWord a.addrr) = true) :
      ExecCase k r s a
        ((s.writeEvent (.agent s.active) (secondWord a.addrr) .w64 a.opb).setActive { a with phase := .resp })
  | rd0 (hp : a.phase = .rd0) (hk : k.op ≠ .seed) (ok : wordAccessOk s.params a.addrr = true) :
      ExecCase k r s a
        ((s.readEvent (.agent s.active) a.addrr .w64).setActive
          { a with exp0 := s.word a.addrr, phase := .rd1 })
  | rd1 (hp : a.phase = .rd1) (hk : k.op ≠ .seed) (ok : wordAccessOk s.params (secondWord a.addrr) = true) :
      ExecCase k r s a
        ((s.readEvent (.agent s.active) (secondWord a.addrr) .w64).setActive
          { a with exp1 := s.word (secondWord a.addrr), phase := .compute })
  | computesNext (hp : a.phase = .compute) (hk : k.op = .next) :
      ExecCase k r s a (s.setActive (computedNext k a))
  | computesJump (hp : a.phase = .compute) (hk : k.op = .jump) :
      ExecCase k r s a (s.setActive (computedJump a))
  | iterates (hp : a.phase = .jiter) (hk : k.op = .jump) : ExecCase k r s a (s.setActive (iterated k a))
  | swaps (hp : a.phase = .cas) (hk : k.op ≠ .seed) (ha : k.atomic = true)
      (ok : casAccessOk s.params a.addrr = true) :
      ExecCase k r s a
        ((s.casEvent (.agent s.active) a.addrr (snapshot a) (candidate a)).setActive
          { a with phase := if s.casSucceeds a.addrr (snapshot a) then .resp else .rd0 })
  | wr0 (hp : a.phase = .wr0) (hk : k.op ≠ .seed) (ha : k.atomic = false)
      (ok : wordAccessOk s.params a.addrr = true) :
      ExecCase k r s a
        ((s.writeEvent (.agent s.active) a.addrr .w64 a.cand0).setActive { a with phase := .wr1 })
  | wr1 (hp : a.phase = .wr1) (hk : k.op ≠ .seed) (ha : k.atomic = false)
      (ok : wordAccessOk s.params (secondWord a.addrr) = true) :
      ExecCase k r s a
        ((s.writeEvent (.agent s.active) (secondWord a.addrr) .w64 a.cand1).setActive { a with phase := .resp })
  | responds (hp : a.phase = .resp) (hr : a.rsp = none) :
      ExecCase k r s a
        (s.setActive
          { a with
            rsp := some (responseOf a)
            busy := false
            phase := if a.fault = 0 then .idle else .halted })
  | answers (q : Request) (hp : a.phase = .halted) (hq : a.req = some q) (hr : a.rsp = none) :
      ExecCase k r s a (s.setActive { a with req := none, rsp := some ⟨a.fault, 0⟩ })

theorem acceptStep_cases {k : CommandKind} {r : Request} {s t : State} {a : Agent} (hp : a.phase = .idle)
    (h : acceptStep k r s a = .next t) : ExecCase k r s a t := by
  unfold acceptStep at h
  split at h <;> cases h
  case h_1 hq => exact .waits (by simp [enabled, hp, hq])
  case h_2 q hq => exact .accepts q hp hq

theorem respStep_cases {k : CommandKind} {r : Request} {s t : State} {a : Agent} (hp : a.phase = .resp)
    (h : respStep s a = .next t) : ExecCase k r s a t := by
  unfold respStep at h
  split at h <;> cases h
  case h_1 hq => exact .waits (by simp [enabled, hp, hq])
  case h_2 hr => exact .responds hp hr

theorem haltedStep_cases {k : CommandKind} {r : Request} {s t : State} {a : Agent} (hp : a.phase = .halted)
    (h : haltedStep s a = .next t) : ExecCase k r s a t := by
  unfold haltedStep at h
  split at h <;> cases h
  case h_1 q hq hr => exact .answers q hp hq hr
  case h_2 hn =>
    refine .waits ?_
    cases hq : a.req <;> cases hr : a.rsp <;> simp_all [enabled]

theorem readStep_next {addr : Word} {f : Word → Agent} {s t : State} (h : readStep addr f s = .next t) :
    wordAccessOk s.params addr = true ∧
      t = (s.readEvent (.agent s.active) addr .w64).setActive (f (s.word addr)) := by
  unfold readStep at h
  split at h <;> cases h
  exact ⟨‹_›, rfl⟩

theorem writeStep_next {addr v : Word} {a' : Agent} {s t : State} (h : writeStep addr v a' s = .next t) :
    wordAccessOk s.params addr = true ∧
      t = (s.writeEvent (.agent s.active) addr .w64 v).setActive a' := by
  unfold writeStep at h
  split at h <;> cases h
  exact ⟨‹_›, rfl⟩

theorem withActive_next {s t : State} {f : Agent → Host.Outcome State Fault Refusal}
    (h : withActive s f = .next t) : ∃ a, s.agents[s.active]? = some a ∧ f a = .next t := by
  unfold withActive at h
  split at h
  · exact ⟨_, ‹_›, h⟩
  · cases h

theorem withActive_some {s : State} {a : Agent} (h : s.agents[s.active]? = some a)
    (f : Agent → Host.Outcome State Fault Refusal) : withActive s f = f a := by
  unfold withActive
  rw [h]

theorem seedMachine_cases {k : CommandKind} {r : Request} {s t : State} (hk : k.op = .seed)
    (h : seedMachine k r s = .next t) : ∃ a, s.agents[s.active]? = some a ∧ ExecCase k r s a t := by
  obtain ⟨a, ha, h⟩ := withActive_next h
  refine ⟨a, ha, ?_⟩
  split at h
  case h_1 hp => exact acceptStep_cases hp h
  case h_2 hp => obtain ⟨ok, rfl⟩ := writeStep_next h; exact .seedW0 hp hk ok
  case h_3 hp => obtain ⟨ok, rfl⟩ := writeStep_next h; exact .seedW1 hp hk ok
  case h_4 hp => exact respStep_cases hp h
  case h_5 hp => exact haltedStep_cases hp h
  all_goals cases h

theorem updateMachine_cases {k : CommandKind} {r : Request} {s t : State} (hk : k.op ≠ .seed)
    (h : updateMachine k r s = .next t) : ∃ a, s.agents[s.active]? = some a ∧ ExecCase k r s a t := by
  obtain ⟨a, ha, h⟩ := withActive_next h
  refine ⟨a, ha, ?_⟩
  split at h
  case h_1 hp => exact acceptStep_cases hp h
  case h_2 hp => obtain ⟨ok, rfl⟩ := readStep_next h; exact .rd0 hp hk ok
  case h_3 hp => obtain ⟨ok, rfl⟩ := readStep_next h; exact .rd1 hp hk ok
  case h_4 hp =>
    unfold computeStep at h
    split at h
    case h_1 ho => cases h; exact .computesNext hp ho
    case h_2 ho => cases h; exact .computesJump hp ho
    case h_3 => cases h
  case h_5 hp =>
    split at h
    case isTrue ho => cases h; exact .iterates hp ho
    case isFalse => cases h
  case h_6 hp =>
    split at h
    case isTrue ho =>
      unfold casStep at h
      split at h <;> cases h
      exact .swaps hp hk ho ‹_›
    case isFalse => cases h
  case h_7 hp =>
    split at h
    case isTrue => cases h
    case isFalse ho => obtain ⟨ok, rfl⟩ := writeStep_next h; exact .wr0 hp hk (by simpa using ho) ok
  case h_8 hp =>
    split at h
    case isTrue => cases h
    case isFalse ho => obtain ⟨ok, rfl⟩ := writeStep_next h; exact .wr1 hp hk (by simpa using ho) ok
  case h_9 hp => exact respStep_cases hp h
  case h_10 hp => exact haltedStep_cases hp h
  all_goals cases h

/-- If `exec` answers a next state, one of these cases holds. -/
theorem exec_cases {i : Instr} {s t : State} (h : exec i s = .next t) :
    ∃ a, s.agents[s.active]? = some a ∧ ExecCase i.kind (encode i) s a t := by
  rw [exec_eq] at h
  split at h
  · exact seedMachine_cases ‹_› h
  · exact updateMachine_cases ‹_› h

/-- Everything the active agent's step can do when it answers a next state: a case of `exec` for the request
it accepts or has latched, or the accept step of an illegal request. -/
inductive ActiveCase (s : State) (a : Agent) : State → Prop
  | runs (k : CommandKind) (r : Request) (t : State)
      (hidle : a.phase = .idle → ∀ q, a.req = some q → q = r ∧ decodeCmd q.cmd = .ok k)
      (hbusy : a.phase ≠ .idle → a.phase ≠ .halted → a.phase ≠ .resp → decodeCmd a.cmdr = .ok k)
      (h : ExecCase k r s a t) : ActiveCase s a t
  | rejects (r : Request) (e : DecodeError) (hp : a.phase = .idle) (hq : a.req = some r)
      (he : decodeCmd r.cmd = .error e) :
      ActiveCase s a (s.setActive (raiseFault .illegalCommand (latch r a)))

theorem decode_error {r : Request} {e : DecodeError} (h : decode r = .error e) :
    decodeCmd r.cmd = .error e := by
  unfold decode at h
  split at h <;> cases h
  assumption

theorem encode_of_decode {r : Request} {i : Instr} (h : decode r = .ok i) : encode i = r := by
  obtain ⟨k, hk, rfl⟩ := decode_ok_iff.mp h
  obtain ⟨cmd, addr, opa, opb⟩ := r
  have hw := lt_sixteen_of_reserved_zero (reserved_zero_of_ok hk)
  exact forall_small_word
    (P := fun w => decodeCmd w = .ok k → encode (Instr.ofKind k ⟨w, addr, opa, opb⟩) = ⟨w, addr, opa, opb⟩)
    (fun n hn => (ofKind_small n k addr opa opb hn).2) hw hk

theorem exec_cases_at {i : Instr} {s t : State} {a : Agent} (ha : s.agents[s.active]? = some a)
    (h : exec i s = .next t) : ExecCase i.kind (encode i) s a t := by
  obtain ⟨b, hb, hc⟩ := exec_cases h
  rw [ha] at hb
  cases hb
  exact hc

theorem idleStep_cases {s t : State} {a : Agent} (ha : s.agents[s.active]? = some a) (hp : a.phase = .idle)
    (h : idleStep s a = .next t) : ActiveCase s a t := by
  unfold idleStep at h
  split at h
  case h_1 hq =>
    cases h
    exact .runs ⟨.seed, false, .a⟩ ⟨0, 0, 0, 0⟩ _ (fun _ q hq' => by simp [hq] at hq')
      (fun hn => absurd hp hn) (.waits (by simp [enabled, hp, hq]))
  case h_2 r hq =>
    split at h
    case h_1 i hd =>
      refine .runs i.kind r t (fun _ q hq' => ?_) (fun hn => absurd hp hn) ?_
      · rw [hq] at hq'
        cases hq'
        exact ⟨rfl, decode_kind hd⟩
      · rw [← encode_of_decode hd]
        exact exec_cases_at ha h
    case h_2 e hd =>
      cases h
      exact .rejects r e hp hq (decode_error hd)

theorem busyStep_cases {s t : State} {a : Agent} (ha : s.agents[s.active]? = some a)
    (hp : busyPhase a.phase = true) (h : busyStep s a = .next t) : ActiveCase s a t := by
  have hni : a.phase ≠ .idle := fun e => by simp [busyPhase, e] at hp
  unfold busyStep at h
  split at h
  case h_1 i hd =>
    exact .runs i.kind (encode i) t (fun e => absurd e hni) (fun _ _ _ => decode_kind hd)
      (exec_cases_at ha h)
  case h_2 e hd =>
    split at h
    case isTrue hr =>
      exact .runs ⟨.seed, false, .a⟩ ⟨0, 0, 0, 0⟩ t (fun e => absurd e hni)
        (fun _ _ hn => absurd hr hn) (respStep_cases hr h)
    case isFalse => cases h

/-- If the active agent's step answers a next state, one of these cases holds. -/
theorem activeStep_cases {s t : State} (h : activeStep s = .next t) :
    ∃ a, s.agents[s.active]? = some a ∧ ActiveCase s a t := by
  obtain ⟨a, ha, h⟩ := withActive_next h
  refine ⟨a, ha, ?_⟩
  split at h
  case h_1 hp => exact idleStep_cases ha hp h
  case h_2 hp =>
    exact .runs ⟨.seed, false, .a⟩ ⟨0, 0, 0, 0⟩ t (fun e => by simp [hp] at e)
      (fun _ hn => absurd hp hn) (haltedStep_cases hp h)
  all_goals exact busyStep_cases ha (by simp [busyPhase, *]) h

theorem agentStep_cases {j : Nat} {s t : State} (h : agentStep j s = .next t) :
    ∃ a, s.agents[j]? = some a ∧ ActiveCase { s with active := j } a t := by
  unfold agentStep at h
  split at h
  · cases h
  · exact activeStep_cases h

/-- A machine step is a move of the list, a step of the default order's agent, or nothing. -/
theorem step_cases {s t : State} (h : step s = .next t) :
    (∃ m ms, s.moves = m :: ms ∧ perform m { s with moves := ms } = .next t) ∨
    (∃ j, s.moves = [] ∧ agentStep j s = .next t) ∨ (s.moves = [] ∧ t = s) := by
  unfold step runStep at h
  split at h
  case h_1 hm =>
    unfold defaultStep at h
    split at h
    case h_1 j hj => exact .inr (.inl ⟨j, hm, h⟩)
    case h_2 => cases h; exact .inr (.inr ⟨hm, rfl⟩)
  case h_2 m ms hm => exact .inl ⟨m, ms, hm, h⟩

end Sys2Proof.Machine
end

