-- ==== Sys2Proof/Laws/Invariant.lean ====
section
/-! SUPPORT. What the invariant gives the steps: the check's meaning, the accesses it admits, and an agent's
own invariant. -/

namespace Sys2Proof.Machine

open Sys2Proof

theorem cellAdmitted_iff (p : Params) (a : Word) :
    cellAdmitted p a = true ↔ a.toNat ≤ 2 ^ 64 - 16 ∧ admits p a = true ∧ admits p (a + 8) = true := by
  simp [cellAdmitted, secondWord, and_assoc]

/-- The check of R141 passes exactly under the spec's conditions. -/
theorem checkKind_ok_iff (p : Params) (k : CommandKind) (a : Word) :
    checkKind p k a = .ok ↔ Admissible p k a := by
  unfold checkKind Admissible alignedTo
  rw [← cellAdmitted_iff]
  cases k.atomic <;> cases p.hasCas128 <;> cases cellAdmitted p a <;> simp
  · split <;> simp
  · split <;> simp
  · split <;> simp
  · omega

theorem Admissible.aligned {p : Params} {k : CommandKind} {a : Word} (h : Admissible p k a) :
    a.toNat % 8 = 0 := h.2.1

theorem Admissible.second_toNat {p : Params} {k : CommandKind} {a : Word} (h : Admissible p k a) :
    (secondWord a).toNat = a.toNat + 8 := secondWord_toNat h.2.2.1

theorem Admissible.firstOk {p : Params} {k : CommandKind} {a : Word} (h : Admissible p k a) :
    wordAccessOk p a = true := by
  simp [wordAccessOk, alignedTo, h.aligned, h.2.2.2.1]

theorem Admissible.secondOk {p : Params} {k : CommandKind} {a : Word} (h : Admissible p k a) :
    wordAccessOk p (secondWord a) = true := by
  have h8 := h.aligned
  have hs := h.second_toNat
  simp only [wordAccessOk, alignedTo, Bool.and_eq_true, decide_eq_true_eq]
  exact ⟨by omega, h.2.2.2.2⟩

theorem Admissible.casOk {p : Params} {k : CommandKind} {a : Word} (h : Admissible p k a)
    (hk : k.atomic = true) : casAccessOk p a = true := by
  have h1 := h.1 hk
  have h2 := h.2.2.2.2
  simp only [casAccessOk, alignedTo, Bool.and_eq_true, decide_eq_true_eq]
  exact ⟨⟨⟨h1.1, h1.2⟩, h.2.2.2.1⟩, h2⟩

theorem Inv.agent {s : State} {j : Nat} {a : Agent} (h : Inv s) (ha : s.agents[j]? = some a) :
    AgentInv s.params a := h.2.2.2 a (List.mem_of_getElem? ha)

theorem Inv.memory {s : State} (h : Inv s) : Memory.wf s.mem := h.2.2.1

/-- Inside a command before RESP, the latched command passed its check. -/
theorem AgentInv.command {p : Params} {a : Agent} (h : AgentInv p a) (hb : busyPhase a.phase = true)
    (hr : a.phase ≠ .resp) :
    a.fault = 0 ∧ ∃ k, decodeCmd a.cmdr = .ok k ∧ Admissible p k a.addrr ∧ PhaseMeets k a := by
  have h3 : a.fault = 0 ∧ InCommand p a := by
    have h3 := h.2.2
    cases hp : a.phase <;> simp only [hp] at h3 <;> first | exact h3 | simp [hp, busyPhase] at hb hr
  obtain ⟨hf, k, hk, hc, hm⟩ := h3
  exact ⟨hf, k, hk, (checkKind_ok_iff _ _ _).mp hc, hm⟩

theorem AgentInv.no_fault {p : Params} {a : Agent} (h : AgentInv p a) (hp : a.phase = .idle) :
    a.fault = 0 := by
  have := h.2.2
  simpa [hp] using this

end Sys2Proof.Machine
end

