-- ==== Sys2Proof/Laws/Phases.lean ====
section
/-! SUPPORT. One lemma per phase operation, and `exec` by the phase of the active agent. -/

namespace Sys2Proof.Machine

open Sys2Proof

/-- The accept step of a command, for all nine (R110). -/
theorem exec_idle {i : Instr} {s : State} {a : Agent} {q : Request} (h : ActiveIn s .idle a)
    (hq : a.req = some q) :
    exec i s = .next (s.setActive (accepted i.kind.op (checkKind s.params i.kind i.addr) (encode i) a)) := by
  obtain ⟨ha, hp⟩ := h
  rw [exec_eq]
  split <;> (first | unfold seedMachine | unfold updateMachine) <;>
    rw [withActive_some ha] <;> simp only [hp, acceptStep, hq, encode_addr]

/-- A NEXT or JUMP command, by the active agent's phase. -/
theorem exec_update {i : Instr} {s : State} {a : Agent} (ha : s.agents[s.active]? = some a)
    (hk : i.kind.op ≠ .seed) : exec i s =
    match a.phase with
    | .idle => acceptStep i.kind (encode i) s a
    | .rd0 => rd0Step s a
    | .rd1 => rd1Step s a
    | .compute => computeStep i.kind s a
    | .jiter => if i.kind.op = .jump then jiterStep i.kind s a else .fault .strayPhase
    | .cas => if i.kind.atomic then casStep s a else .fault .strayPhase
    | .wr0 => if i.kind.atomic then .fault .strayPhase else wr0Step s a
    | .wr1 => if i.kind.atomic then .fault .strayPhase else wr1Step s a
    | .resp => respStep s a
    | .halted => haltedStep s a
    | .seedW0 | .seedW1 => .fault .strayPhase := by
  rw [exec_eq, if_neg hk, updateMachine, withActive_some ha] <;> rfl

/-- A SEED command, by the active agent's phase. -/
theorem exec_seed {i : Instr} {s : State} {a : Agent} (ha : s.agents[s.active]? = some a)
    (hk : i.kind.op = .seed) : exec i s =
    match a.phase with
    | .idle => acceptStep i.kind (encode i) s a
    | .seedW0 => seedW0Step s a
    | .seedW1 => seedW1Step s a
    | .resp => respStep s a
    | .halted => haltedStep s a
    | .rd0 | .rd1 | .compute | .jiter | .cas | .wr0 | .wr1 => .fault .strayPhase := by
  rw [exec_eq, if_pos hk, seedMachine, withActive_some ha] <;> rfl

/-- What a step that writes one word does (R45). -/
theorem writeStep_ok {addr v : Word} {a' : Agent} {s : State} (ok : wordAccessOk s.params addr = true)
    (hm : Memory.wf s.mem) : ∃ t, writeStep addr v a' s = .next t ∧ t.word addr = v ∧
      SameOutside addr.toNat 8 s t ∧ t.agents = s.agents.set s.active a' ∧
      t.order = .write (.agent s.active) addr .w64 v :: s.order ∧ SameElse s t := by
  refine ⟨(s.writeEvent (.agent s.active) addr .w64 v).setActive a', ?_, ?_, ?_, by simp, by simp,
    ⟨rfl, rfl, rfl, rfl, rfl⟩⟩
  · unfold writeStep; rw [if_pos ok]
  · exact loadValue_storeValue_word _ hm _ _
  · intro b hb
    exact byteAt_storeValue_outside _ _ _ _ _ hb

/-- What a step that reads one word does (R44). -/
theorem readStep_ok {addr : Word} {f : Word → Agent} {s : State} (ok : wordAccessOk s.params addr = true) :
    ∃ t, readStep addr f s = .next t ∧ t.agents = s.agents.set s.active (f (s.word addr)) ∧
      t.order = .read (.agent s.active) addr .w64 (s.word addr) :: s.order ∧ t.mem = s.mem ∧ SameElse s t := by
  refine ⟨(s.readEvent (.agent s.active) addr .w64).setActive (f (s.word addr)), ?_, by simp,
    by simp [State.word], by simp, ⟨rfl, rfl, rfl, rfl, rfl⟩⟩
  unfold readStep
  rw [if_pos ok]

/-- Inside a command before RESP the latched command passed its check. -/
theorem command_of {s : State} {ph : Phase} {a : Agent} (hi : Inv s) (h : ActiveIn s ph a)
    (hb : busyPhase ph = true) (hr : ph ≠ .resp) :
    ∃ k, decodeCmd a.cmdr = .ok k ∧ Admissible s.params k a.addrr ∧ PhaseMeets k a := by
  have hA := hi.agent h.1
  exact (hA.command (by rw [h.2]; exact hb) (by rw [h.2]; exact hr)).2

/-- A CAS128 whose compare succeeds (R46): both words written, no other byte, one event. -/
theorem casEvent_swaps {s : State} {a : Word} {e : GenState} (who : Actor) (h16 : a.toNat % 16 = 0)
    (hm : Memory.wf s.mem) (n : GenState) (h : s.word a = e.s0 ∧ s.word (a + 8) = e.s1) :
    (s.casEvent who a e n).word a = n.s0 ∧ (s.casEvent who a e n).word (a + 8) = n.s1 ∧
      SameOutside a.toNat 16 s (s.casEvent who a e n) ∧
      (s.casEvent who a e n).order = .cas who a e n true :: s.order := by
  have hs : (secondWord a).toNat = a.toNat + 8 := secondWord_toNat (by have := a.isLt; omega)
  have ht : s.casSucceeds a e = true := decide_eq_true (congrArg₂ GenState.mk h.1 h.2)
  unfold State.casEvent
  rw [ht, if_pos rfl]
  refine ⟨?_, word_put_same (put_wf hm _ _ _) _ _, fun b hb => ?_, rfl⟩
  · refine (word_put_other (by omega) (by omega) (fun e => ?_) n.s1).trans (word_put_same hm _ _)
    have := congrArg BitVec.toNat e
    omega
  · show byteAt (storeValue _ (storeValue _ s.mem _ _ _) _ _ _) b = _
    rw [byteAt_storeValue_outside, byteAt_storeValue_outside] <;> simp only [Width.bytes] <;> omega

/-- A CAS128 whose compare fails (R46): nothing written, one event. -/
theorem casEvent_fails {s : State} {a : Word} {e : GenState} (who : Actor) (n : GenState)
    (h : ¬ (s.word a = e.s0 ∧ s.word (a + 8) = e.s1)) :
    (s.casEvent who a e n).mem = s.mem ∧ (s.casEvent who a e n).order = .cas who a e n false :: s.order := by
  have ht : s.casSucceeds a e = false :=
    decide_eq_false fun hc => h ⟨congrArg GenState.s0 hc, congrArg GenState.s1 hc⟩
  unfold State.casEvent
  rw [ht]
  exact ⟨rfl, rfl⟩

/-- What the CAS step does, when it succeeds and when it fails (R46, R118). -/
theorem casStep_ok {s : State} {a : Agent} (ok : casAccessOk s.params a.addrr = true) (hm : Memory.wf s.mem) :
    ((s.word a.addrr = a.exp0 ∧ s.word (a.addrr + 8) = a.exp1) → ∃ t, casStep s a = .next t ∧
      t.word a.addrr = a.cand0 ∧ t.word (a.addrr + 8) = a.cand1 ∧ SameOutside a.addrr.toNat 16 s t ∧
      t.agents = s.agents.set s.active { a with phase := .resp } ∧
      t.order = .cas (.agent s.active) a.addrr ⟨a.exp0, a.exp1⟩ ⟨a.cand0, a.cand1⟩ true :: s.order ∧
      SameElse s t) ∧
    (¬ (s.word a.addrr = a.exp0 ∧ s.word (a.addrr + 8) = a.exp1) → ∃ t, casStep s a = .next t ∧
      t.mem = s.mem ∧ t.agents = s.agents.set s.active { a with phase := .rd0 } ∧
      t.order = .cas (.agent s.active) a.addrr ⟨a.exp0, a.exp1⟩ ⟨a.cand0, a.cand1⟩ false :: s.order ∧
      SameElse s t) := by
  have h16 : a.addrr.toNat % 16 = 0 := by
    simp only [casAccessOk, alignedTo, Bool.and_eq_true, decide_eq_true_eq] at ok
    exact ok.1.1.2
  have hiff : s.casSucceeds a.addrr (snapshot a) =
      decide (s.word a.addrr = a.exp0 ∧ s.word (a.addrr + 8) = a.exp1) := by
    simp [State.casSucceeds, State.cell, snapshot, secondWord]
  unfold casStep
  rw [if_pos ok]
  refine ⟨fun h => ?_, fun h => ?_⟩
  · obtain ⟨h0, h1, hout, ho⟩ := casEvent_swaps (.agent s.active) h16 hm (e := snapshot a) (candidate a) h
    rw [hiff, decide_eq_true h]
    exact ⟨_, rfl, h0, h1, hout, by simp, ho, by simp [SameElse]⟩
  · obtain ⟨hmem, ho⟩ := casEvent_fails (.agent s.active) (e := snapshot a) (candidate a) h
    rw [hiff, decide_eq_false h]
    exact ⟨_, rfl, hmem, by simp, ho, by simp [SameElse]⟩

/-- RESP is the same for all nine commands (R121). -/
theorem exec_resp {i : Instr} {s : State} {a : Agent} (h : ActiveIn s .resp a) : exec i s = respStep s a := by
  by_cases hk : i.kind.op = .seed
  · rw [exec_seed h.1 hk, h.2]
  · rw [exec_update h.1 hk, h.2]

/-- HALTED is the same for all nine commands (R122). -/
theorem exec_halted {i : Instr} {s : State} {a : Agent} (h : ActiveIn s .halted a) :
    exec i s = haltedStep s a := by
  by_cases hk : i.kind.op = .seed
  · rw [exec_seed h.1 hk, h.2]
  · rw [exec_update h.1 hk, h.2]

end Sys2Proof.Machine
end

