-- ==== Sys2Proof/Laws/Agents.lean ====
section
/-! SUPPORT. Agents in the list of agents, what a step leaves alone, and commands carried through step by
step. -/

namespace Sys2Proof.Machine

open Sys2Proof

/-! ### The active agent in the list -/

/-- The active agent, after its registers were replaced. -/
theorem set_active_get {s : State} {a : Agent} (ha : s.agents[s.active]? = some a) (c : Agent) :
    (s.agents.set s.active c)[s.active]? = some c :=
  List.getElem?_set_self (List.getElem?_eq_some_iff.mp ha).1

theorem getElem?_set_active {s : State} {a b c : Agent} (ha : s.agents[s.active]? = some a)
    (h : (s.agents.set s.active c)[s.active]? = some b) : b = c :=
  (Option.some.inj ((set_active_get ha c).symm.trans h)).symm

theorem setActive_self {s : State} {a : Agent} (h : s.agents[s.active]? = some a) : s.setActive a = s := by
  obtain ⟨hl, rfl⟩ := List.getElem?_eq_some_iff.mp h
  unfold State.setActive State.setAgent
  rw [List.set_getElem_self hl]

@[simp] theorem setActive_setActive (s : State) (a b : Agent) :
    (s.setActive a).setActive b = s.setActive b := by
  simp [State.setActive, State.setAgent]

theorem setActive_active {s : State} {a : Agent} (h : s.agents[s.active]? = some a) (b : Agent) :
    (s.setActive b).agents[(s.setActive b).active]? = some b := set_active_get h b

/-! ### The step of the active agent -/

theorem activeStep_eq {s : State} {a : Agent} (ha : s.agents[s.active]? = some a) :
    activeStep s = match a.phase with
      | .idle => idleStep s a
      | .halted => haltedStep s a
      | .seedW0 | .seedW1 | .rd0 | .rd1 | .compute | .jiter | .cas | .wr0 | .wr1 | .resp => busyStep s a := by
  unfold activeStep
  rw [withActive_some ha] <;> rfl

theorem perform_agent {s : State} {j : Nat} {a : Agent} (ha : s.agents[j]? = some a) :
    perform (.agent j) s = activeStep { s with active := j } := by
  simp only [perform, agentStep, ha]

/-- A latched word that decodes to a kind is the encoding of a command of that kind. -/
theorem latched_decode {a : Agent} {k : CommandKind} (h : decodeCmd a.cmdr = .ok k) :
    ∃ i, decode (latched a) = .ok i ∧ i.kind = k ∧ encode i = latched a := by
  have h1 := decode_of_cmd (r := latched a) h
  have h2 := decode_kind h1
  rw [show (latched a).cmd = a.cmdr from rfl, h] at h2
  exact ⟨_, h1, (Except.ok.inj h2).symm, encode_of_decode h1⟩

/-- What the active agent's step leaves of the rest of the machine. -/
theorem ActiveCase.same {s t : State} {a : Agent} (hc : ActiveCase s a t) :
    t.agents.length = s.agents.length ∧ SameElse s t := by
  cases hc
  case rejects => exact ⟨by simp, rfl, rfl, rfl, rfl, rfl⟩
  case runs k r hi hb hc => cases hc <;> simp [SameElse]

/-- The active agent's step changes no other agent. -/
theorem ActiveCase.other {s t : State} {a : Agent} (hc : ActiveCase s a t) {j : Nat} (hj : j ≠ s.active) :
    t.agents[j]? = s.agents[j]? := by
  cases hc
  case rejects => simp [List.getElem?_set_ne (Ne.symm hj)]
  case runs k r hi hb hc => cases hc <;> first | rfl | simp [List.getElem?_set_ne (Ne.symm hj)]

theorem ActiveCase.some {s t : State} {a : Agent} (ha : s.agents[s.active]? = some a)
    (hc : ActiveCase s a t) : ∃ b, t.agents[s.active]? = some b := by
  have hl := (List.getElem?_eq_some_iff.mp ha).1
  exact ⟨_, List.getElem?_eq_getElem (by rw [hc.same.1]; exact hl)⟩

/-! ### The moves of others -/

/-- A move that is no reset and not agent `j`'s leaves `j`'s registers, and can only empty its RSP. -/
theorem others_keep_registers {s t : State} {m : Move} {j : Nat} {a : Agent} (h : perform m s = .next t)
    (hr : m ≠ .reset) (hm : m ≠ .agent j) (ha : s.agents[j]? = some a) :
    ∃ q p, t.agents[j]? = some { a with req := q, rsp := p } ∧ (a.rsp = none → p = none) := by
  cases m with
  | reset => exact absurd rfl hr
  | agent i =>
    obtain ⟨_, _, hc⟩ := agentStep_cases h
    exact ⟨a.req, a.rsp, (hc.other fun e : j = i => hm (congrArg Move.agent e.symm)).trans ha, id⟩
  | present i r =>
    simp only [perform, presentMove] at h
    split at h
    · cases h
    case h_2 c hc =>
      split at h <;> cases h
      by_cases hij : i = j
      · subst hij
        rw [ha] at hc
        cases hc
        exact ⟨some r, a.rsp, List.getElem?_set_self (List.getElem?_eq_some_iff.mp ha).1, id⟩
      · exact ⟨a.req, a.rsp, (List.getElem?_set_ne hij).trans ha, id⟩
  | take i =>
    simp only [perform, takeMove] at h
    split at h
    · cases h
    case h_2 c hc =>
      split at h <;> cases h
      by_cases hij : i = j
      · subst hij
        rw [ha] at hc
        cases hc
        exact ⟨a.req, none, List.getElem?_set_self (List.getElem?_eq_some_iff.mp ha).1, fun _ => rfl⟩
      · exact ⟨a.req, a.rsp, (List.getElem?_set_ne hij).trans ha, id⟩
  | sample i reg =>
    simp only [perform, sampleMove] at h
    split at h <;> cases h
    exact ⟨a.req, a.rsp, ha, id⟩
  | userRead u x w =>
    simp only [perform, userReadMove] at h
    split at h <;> cases h
    exact ⟨a.req, a.rsp, ha, id⟩
  | userWrite u x w v =>
    simp only [perform, userWriteMove] at h
    split at h <;> cases h
    exact ⟨a.req, a.rsp, ha, id⟩
  | userCas u x e n =>
    simp only [perform, userCasMove] at h
    split at h <;> cases h
    exact ⟨a.req, a.rsp, by rw [State.casEvent_agents]; exact ha, id⟩

/-- A move of the environment, but a reset, changes an agent in its slots at most. -/
theorem env_keeps_registers {s t : State} {m : Move} {j : Nat} {a : Agent} (h : perform m s = .next t)
    (hr : m ≠ .reset) (hm : ∀ j, m ≠ .agent j) (ha : s.agents[j]? = some a) :
    ∃ q p, t.agents[j]? = some { a with req := q, rsp := p } := by
  obtain ⟨q, p, h, -⟩ := others_keep_registers h hr (hm j) ha
  exact ⟨q, p, h⟩

/-- No move changes the parameters of a run or the number of its agents (R4). -/
theorem perform_keeps_params {s t : State} {m : Move} (h : perform m s = .next t) :
    t.params = s.params ∧ t.agents.length = s.agents.length := by
  cases m with
  | reset => cases h; simp
  | agent j =>
    obtain ⟨a, ha, hc⟩ := agentStep_cases h
    exact ⟨hc.same.2.1, hc.same.1⟩
  | present j r =>
    simp only [perform, presentMove] at h
    split at h
    · cases h
    · split at h <;> cases h
      simp
  | take j =>
    simp only [perform, takeMove] at h
    split at h
    · cases h
    · split at h <;> cases h
      simp
  | sample j reg =>
    simp only [perform, sampleMove] at h
    split at h <;> cases h
    simp
  | userRead u x w =>
    simp only [perform, userReadMove] at h
    split at h <;> cases h
    simp
  | userWrite u x w v =>
    simp only [perform, userWriteMove] at h
    split at h <;> cases h
    simp
  | userCas u x e n =>
    simp only [perform, userCasMove] at h
    split at h <;> cases h
    simp

/-! ### Words and cells that a step leaves alone -/

theorem word_same {s t : State} {c : Word} (hp : t.params = s.params)
    (h : ∀ b, c.toNat ≤ b → b < c.toNat + 8 → byteAt t.mem b = byteAt s.mem b) : t.word c = s.word c := by
  unfold State.word
  rw [hp]
  exact loadValue_congr _ _ _ h

theorem cell_same {s t : State} {c : Word} (hp : t.params = s.params) (hc : c.toNat ≤ 2 ^ 64 - 16)
    (h : ∀ b, c.toNat ≤ b → b < c.toNat + 16 → byteAt t.mem b = byteAt s.mem b) : t.cell c = s.cell c := by
  have hs := secondWord_toNat hc
  unfold State.cell
  rw [word_same hp fun b h1 h2 => h b h1 (by omega), word_same hp fun b h1 h2 => h b (by omega) (by omega)]

/-- A 16-aligned address leaves room for a cell. -/
theorem le_of_aligned16 {c : Word} (h : c.toNat % 16 = 0) : c.toNat ≤ 2 ^ 64 - 16 := by
  have := c.isLt
  omega

/-! ### Commands carried through -/

theorem execTimes_add (m n : Nat) (i : Instr) (s t : State) (h : execTimes m i s = .next t) :
    execTimes (m + n) i s = execTimes n i t := by
  induction m generalizing s with
  | zero => cases h; rw [Nat.zero_add]
  | succ m ih =>
    rw [Nat.succ_add]
    simp only [execTimes] at h ⊢
    split at h <;> try cases h
    exact ih _ h

theorem execTimes_one {i : Instr} {s t : State} (h : exec i s = .next t) : execTimes 1 i s = .next t := by
  simp [execTimes, h]

theorem SameElse.trans {s t u : State} (h : SameElse s t) (h' : SameElse t u) : SameElse s u :=
  ⟨h'.1.trans h.1, h'.2.1.trans h.2.1, h'.2.2.1.trans h.2.2.1, h'.2.2.2.1.trans h.2.2.2.1,
    h'.2.2.2.2.trans h.2.2.2.2⟩

end Sys2Proof.Machine
end

