-- ==== Sys2Proof/Laws/Runs.lean ====
section
/-! SUPPORT. Runs: what a reset leaves of an agent, lists of moves, and infinite runs. -/

namespace Sys2Proof.Machine

open Sys2Proof

/-- After a reset every agent is IDLE. -/
theorem reset_idle {s t : State} {j : Nat} {b : Agent} (h : perform .reset s = .next t)
    (hb : t.agents[j]? = some b) : b.phase = .idle := by
  cases h
  simp only [List.getElem?_mapIdx, Option.map_eq_some_iff] at hb
  obtain ⟨_, _, rfl⟩ := hb
  rfl

theorem roundPhase_busy {ph : Phase} (h : roundPhase ph = true) : busyPhase ph = true ∧ ph ≠ .resp := by
  revert h
  cases ph <;> simp [busyPhase, roundPhase]

theorem latched_fields {a b : Agent} (h : latched b = latched a) : b.cmdr = a.cmdr ∧ b.addrr = a.addrr :=
  ⟨congrArg Request.cmd h, congrArg Request.addr h⟩

theorem runMoves_append {ms ns : List Move} {s t : State} (h : runMoves ms s = .next t) :
    runMoves (ms ++ ns) s = runMoves ns t := by
  induction ms generalizing s with
  | nil => cases h; rfl
  | cons m ms ih =>
    simp only [runMoves, List.cons_append] at h ⊢
    split at h <;> try cases h
    exact ih h

theorem commitsOf_cons {c : Word} {m : Move} {ms : List Move} {s t : State} (h : perform m s = .next t) :
    commitsOf c (m :: ms) s = (commitOf c m s).toList ++ commitsOf c ms t := by
  simp only [commitsOf, h]

/-- Until agent `j`'s own step or a reset, its registers stay. -/
theorem Run.held {r : Run} (hl : r.Legal) {j n : Nat} {a : Agent} (ha : r.agent n j = some a) (d : Nat)
    (hd : ∀ p, n ≤ p → p < n + d → r.move p ≠ .agent j ∧ r.move p ≠ .reset) :
    ∃ q p, r.agent (n + d) j = some { a with req := q, rsp := p } ∧ (a.rsp = none → p = none) := by
  induction d with
  | zero => exact ⟨a.req, a.rsp, ha, id⟩
  | succ d ih =>
    obtain ⟨_, _, h1, h2⟩ := ih fun x hx hy => hd x hx (by omega)
    have h := hd (n + d) (by omega) (by omega)
    obtain ⟨q, p, h3, h4⟩ := others_keep_registers (hl (n + d)) h.2 h.1 h1
    exact ⟨q, p, h3, fun e => h4 (h2 e)⟩

end Sys2Proof.Machine
end

