-- ==== Sys2Proof/Laws/Transition.lean ====
section
/-! SUPPORT. The exclusive or of States as a group operation, and the jump loop one iteration at a time. -/

namespace Sys2Proof.Machine

open Sys2Proof

theorem GenState.xor_comm (x y : GenState) : x.xor y = y.xor x := by
  simp [GenState.xor, BitVec.xor_comm]

theorem GenState.xor_assoc (x y z : GenState) : (x.xor y).xor z = x.xor (y.xor z) := by
  simp [GenState.xor, BitVec.xor_assoc]

@[simp] theorem GenState.xor_self (x : GenState) : x.xor x = ⟨0, 0⟩ := by
  simp [GenState.xor]

@[simp] theorem GenState.xor_zero (x : GenState) : x.xor ⟨0, 0⟩ = x := by
  simp [GenState.xor]

@[simp] theorem GenState.zero_xor (x : GenState) : GenState.xor ⟨0, 0⟩ x = x := by
  simp [GenState.xor]

@[simp] theorem jumpAfter_zero (f : Family) (s : GenState) : jumpAfter f s 0 = ⟨⟨0, 0⟩, s⟩ := rfl

theorem jumpAfter_succ_w (f : Family) (s : GenState) (n : Nat) :
    (jumpAfter f s (n + 1)).w = transState f (jumpAfter f s n).w := rfl

theorem jumpAfter_succ_acc (f : Family) (s : GenState) (n : Nat) :
    (jumpAfter f s (n + 1)).acc =
      if jumpBit f n then (jumpAfter f s n).acc.xor (jumpAfter f s n).w else (jumpAfter f s n).acc := rfl

/-- The loop of R117 inside the machine: `m` JITER steps from its start. -/
theorem execTimes_jiter {i : Instr} {s : State} {a : Agent} {g : GenState} (hk : i.kind.op = .jump)
    (h : ActiveIn s .jiter a) (h0 : a.k = 0) (hr : jumpRegs a = jumpStart g) : ∀ m, m ≤ 128 →
    execTimes m i s = .next (s.setActive
      { withJumpRegs a (jumpAfter i.kind.family g m) with k := BitVec.ofNat 8 m })
  | 0, _ => by
    have hk0 : a.k = BitVec.ofNat 8 0 := h0
    have : ({ withJumpRegs a (jumpAfter i.kind.family g 0) with k := BitVec.ofNat 8 0 } : Agent) = a := by
      rw [jumpAfter, ← hr, ← hk0]
      rfl
    rw [this, setActive_self h.1]
    rfl
  | m + 1, hm => by
    rw [execTimes_add m 1 i s _ (execTimes_jiter hk h h0 hr m (by omega))]
    apply execTimes_one
    rw [exec_update (setActive_active h.1 _) (by simp [hk])]
    have hp : a.phase = .jiter := h.2
    simp only [withJumpRegs, hp, hk, if_true, jiterStep, setActive_setActive]
    have hmn : (BitVec.ofNat 8 m).toNat = m := by simp; omega
    unfold iterated
    simp only [hmn]
    rw [if_pos (by omega)]
    have : BitVec.ofNat 8 m + 1 = BitVec.ofNat 8 (m + 1) := by
      apply BitVec.eq_of_toNat_eq
      simp
    rw [this]
    rfl

end Sys2Proof.Machine
end

