-- ==== Sys2Proof/Tests/Slice0.lean ====
section
/-! SUPPORT. The model's own tests: the checks of WellFormed.lean on ill-formed terms, decoding of words written
out from spec/30_encoding.md, one-step tests with the vectors of spec/95_test_vectors.md (their ids are in the
docstrings), and for every obligation with hypotheses a state and operands that meet them. -/

namespace Sys2Proof.Tests

open Sys2Proof Sys2Proof.Machine

/-! ### Helpers -/

/-- An agent as the launch leaves it. -/
def fresh : Agent := Agent.reset (fun _ => 0)

/-- Two agents under the reference parameters: agent 0 is `a`, agent 1 as launched. -/
def stateOf (a : Agent) (m : Memory) : State := { State.reset with agents := [a, fresh], mem := m }

/-- The cell at 0x1000 holds (0, 1), in little-endian words. -/
def cell01 : Memory := [(0x1008, 1)]

/-- An agent that has a request waiting. -/
def waiting (r : Request) : Agent := { fresh with req := some r }

/-- An agent in a phase of the command of a request. -/
def busyIn (ph : Phase) (r : Request) : Agent := { latch r fresh with phase := ph }

/-- An agent in a phase of a command, with a snapshot of the cell (0, 1). -/
def snapIn (ph : Phase) (r : Request) : Agent := { busyIn ph r with exp0 := 0, exp1 := 1 }

/-- An agent at the commit of a Family A NEXT of the snapshot (0, 1): step 1 of V-A10. -/
def commitIn (ph : Phase) (r : Request) : Agent := { snapIn ph r with cand0 := 1, cand1 := 1, outr := 2 }

/-- An agent that halted with MISALIGNED on `xs.next.cas 0x1008` (P5). -/
def halted : Agent :=
  { fresh with phase := .halted, cmdr := 0x5, addrr := 0x1008, fault := 3, faultCmd := 0x5, faultAddr := 0x1008 }

def seedReq : Request := ⟨0x0, 0x1000, 0, 1⟩
def xsNextReq : Request := ⟨0x1, 0x1000, 0, 0⟩
def xsCasReq : Request := ⟨0x5, 0x1000, 0, 0⟩
def xoCasReq : Request := ⟨0xD, 0x1000, 0, 0⟩
def xsJumpReq : Request := ⟨0x2, 0x1000, 0, 0⟩

def isNext (o : Host.Outcome State Fault Refusal) : Bool :=
  match o with
  | .next _ => true
  | .fault _ => false
  | .refused _ => false

/-- The next state of an outcome (the reset state where it has none). -/
def after (o : Host.Outcome State Fault Refusal) : State :=
  match o with
  | .next t => t
  | .fault _ => State.reset
  | .refused _ => State.reset

/-- Agent 0 of an outcome's next state. -/
def agent0 (o : Host.Outcome State Fault Refusal) : Agent := ((after o).agents[0]?).getD fresh

theorem eq_next {o : Host.Outcome State Fault Refusal} (h : isNext o = true) : o = .next (after o) := by
  cases o with
  | next => rfl
  | fault => cases h
  | refused => cases h

theorem exists_next {o : Host.Outcome State Fault Refusal} (h : isNext o = true) : ∃ t, o = .next t :=
  ⟨_, eq_next h⟩

/-! ### WellFormed -/

theorem test_wf_line : AsmLine.wf Params.reference ⟨1, .seed, [0x1000, 0, 2 ^ 64 - 1]⟩ = true := by decide
theorem test_wf_line_agent : AsmLine.wf Params.reference ⟨2, .xsNext, [0x1000]⟩ = false := by decide
theorem test_wf_line_arity : AsmLine.wf Params.reference ⟨0, .xsNext, [0x1000, 0]⟩ = false := by decide
theorem test_wf_line_seed_arity : AsmLine.wf Params.reference ⟨0, .seed, [0x1000]⟩ = false := by decide
theorem test_wf_line_literal : AsmLine.wf Params.reference ⟨0, .xsNext, [2 ^ 64]⟩ = false := by decide
theorem test_asmForm_seed : (Instr.seed 1 0x1000 0 1).asmForm = false := by decide
theorem test_asmForm_opa : (Instr.xoNextCas 0x1000 1 0).asmForm = false := by decide
theorem test_asmForm_opb : (Instr.xsJump 0x1000 0 1).asmForm = false := by decide
theorem test_memory_unsorted : ¬ Memory.wf [(2, 1), (1, 1)] := by decide
theorem test_memory_repeated : ¬ Memory.wf [(1, 1), (1, 2)] := by decide
theorem test_memory_zero : ¬ Memory.wf [(1, 0)] := by decide
theorem test_params_agents : ¬ Params.wf { Params.reference with nAgents := 0 } := by decide
theorem test_params_m0 : ¬ Params.wf { Params.reference with m0 := [(1, 0)] } := by decide

/-! ### Decoding: RSV[31:4], FAM, AT, OP written out (R61, R63) -/

theorem test_decode_seed :
    decode ⟨0b0000000000000000000000000000_0_0_00, 0x1000, 0, 1⟩ = .ok (.seed 0 0x1000 0 1) := by decide
theorem test_decode_seed_fam :
    decode ⟨0b0000000000000000000000000000_1_0_00, 0x1000, 0, 1⟩ = .ok (.seed 1 0x1000 0 1) := by decide
theorem test_decode_xsNext :
    decode ⟨0b0000000000000000000000000000_0_0_01, 0x1000, 2, 3⟩ = .ok (.xsNext 0x1000 2 3) := by decide
theorem test_decode_xoNext :
    decode ⟨0b0000000000000000000000000000_1_0_01, 0x1000, 2, 3⟩ = .ok (.xoNext 0x1000 2 3) := by decide
theorem test_decode_xsNextCas :
    decode ⟨0b0000000000000000000000000000_0_1_01, 0x1000, 2, 3⟩ = .ok (.xsNextCas 0x1000 2 3) := by decide
theorem test_decode_xoNextCas :
    decode ⟨0b0000000000000000000000000000_1_1_01, 0x1000, 2, 3⟩ = .ok (.xoNextCas 0x1000 2 3) := by decide
theorem test_decode_xsJump :
    decode ⟨0b0000000000000000000000000000_0_0_10, 0x1000, 2, 3⟩ = .ok (.xsJump 0x1000 2 3) := by decide
theorem test_decode_xoJump :
    decode ⟨0b0000000000000000000000000000_1_0_10, 0x1000, 2, 3⟩ = .ok (.xoJump 0x1000 2 3) := by decide
theorem test_decode_xsJumpCas :
    decode ⟨0b0000000000000000000000000000_0_1_10, 0x1000, 2, 3⟩ = .ok (.xsJumpCas 0x1000 2 3) := by decide
theorem test_decode_xoJumpCas :
    decode ⟨0b0000000000000000000000000000_1_1_10, 0x1000, 2, 3⟩ = .ok (.xoJumpCas 0x1000 2 3) := by decide

/-- The illegal words below 0x10, and the examples above (section 4 of the vectors). -/
theorem test_decode_illegal :
    ([0x3, 0x4, 0x7, 0xB, 0xC, 0xF, 0x10, 0x11, 0x80000001, 0xFFFFFFFF] : List CmdWord).map decodeCmd =
      [.error .reservedOperation, .error .seedAtomic, .error .reservedOperation, .error .reservedOperation,
       .error .seedAtomic, .error .reservedOperation, .error .reservedBits, .error .reservedBits,
       .error .reservedBits, .error .reservedBits] := by decide

/-- A whole request as one number, CMD lowest. -/
theorem test_decodeTableWord :
    decodeTableWord 224
      0x0000000000000003_0000000000000002_0000000000001000_0000000D = some (.xoNextCas 0x1000 2 3) := by decide

/-! ### The assembler (R67 to R69) -/

/-- `seed 0x1000, 0x0, 0x1   ; c` -/
theorem test_readLine_seed :
    readLine ['s', 'e', 'e', 'd', ' ', '0', 'x', '1', '0', '0', '0', ',', ' ', '0', 'x', '0', ',', ' ', '0',
      'x', '1', ' ', ';', 'c'] = some (some ⟨0, .seed, [0x1000, 0, 1]⟩) := by decide

/-- `@1: xo.jump.cas 8192` -/
theorem test_readLine_agent :
    readLine ['@', '1', ':', ' ', 'x', 'o', '.', 'j', 'u', 'm', 'p', '.', 'c', 'a', 's', ' ', '8', '1', '9',
      '2'] = some (some ⟨1, .xoJumpCas, [0x2000]⟩) := by decide

/-- The row of `xo.jump.cas 0x2000` in section 4 of the vectors. -/
theorem test_encodingLine :
    (assemble ⟨0, .xoJumpCas, [0x2000]⟩).map (fun i => encodingLine (encode i)) =
      some "CMD=0x0000000E ADDR=0x0000000000002000 OPA=0x0000000000000000 OPB=0x0000000000000000".toList := by
  decide

/-- R68: the second line of an agent is presented after its first response was taken. -/
theorem test_presentsProgram :
    presentsProgram [(0, seedReq), (0, xsNextReq)] 2
      [.present 0 seedReq, .agent 0, .take 0, .present 0 xsNextReq] = true ∧
    presentsProgram [(0, seedReq), (0, xsNextReq)] 2
      [.present 0 seedReq, .agent 0, .present 0 xsNextReq] = false := by decide

/-! ### Transition Core and Jump Engine -/

/-- V-A5: the addition wraps. -/
theorem test_transA_wraps :
    transA ⟨0xffffffffffffffff, 0xffffffffffffffff⟩ =
      (⟨0xffffffffffffffff, 0xf8000000007fffe0⟩, 0xf8000000007fffdf) := by decide
/-- V-A6. -/
theorem test_transA_bit63 :
    transA ⟨0x8000000000000000, 1⟩ = (⟨1, 0x8000200000000001⟩, 0x8000200000000002) := by decide
/-- V-A7. -/
theorem test_transA_dense :
    transA ⟨0x0123456789abcdef, 0xfedcba9876543210⟩ =
      (⟨0xfedcba9876543210, 0x4bcde3742fed01e5⟩, 0x4aaa9e0ca64133f5) := by decide
/-- V-B6: the rotation carries bit 63 around. -/
theorem test_transB_bit63 :
    transB ⟨0x8000000000000000, 1⟩ = (⟨0x8040000000004001, 0x1800000000⟩, 0x8000000000000001) := by decide
/-- V-B7. -/
theorem test_transB_dense :
    transB ⟨0x0123456789abcdef, 0xfedcba9876543210⟩ =
      (⟨0xf78091a2b3c4ea19, 0xffffffffffffffff⟩, 0xffffffffffffffff) := by decide

set_option maxRecDepth 20000 in
/-- The JITER table of the vectors, K = 64: mask 0 is spent. -/
theorem test_jumpAfter_64 :
    jumpAfter .a ⟨0, 1⟩ 64 =
        ⟨⟨0xf95f8def415d03c1, 0x08ec2aa7eb8220a2⟩, ⟨0x386d36698fcc2447, 0xa56ed2ecf51edb28⟩⟩ ∧
      jumpAfter .b ⟨0, 1⟩ 64 =
        ⟨⟨0x85aa1b4f1bf958d0, 0x37ebcfa2dff1c556⟩, ⟨0x533007185bbd1f01, 0x27abe5eea69a742d⟩⟩ := by decide

set_option maxRecDepth 20000 in
/-- V-JA1. -/
theorem test_jump_a : jump .a ⟨0, 1⟩ = ⟨0x88ab9282f841d5aa, 0x718cadb927185603⟩ := by decide

set_option maxRecDepth 20000 in
/-- V-JA4. -/
theorem test_jump_a_dense :
    jump .a ⟨0x0123456789abcdef, 0xfedcba9876543210⟩ = ⟨0x4e552797d1a3d2f0, 0x7142093e22342a53⟩ := by decide

set_option maxRecDepth 20000 in
/-- V-JB1. -/
theorem test_jump_b : jump .b ⟨0, 1⟩ = ⟨0x94076d025b6cdee7, 0xe250ba88d01f5fdb⟩ := by decide

set_option maxRecDepth 20000 in
/-- V-JB4. -/
theorem test_jump_b_dense :
    jump .b ⟨0x0123456789abcdef, 0xfedcba9876543210⟩ = ⟨0xbfda63b357fc9180, 0x3e616852aef48283⟩ := by decide

/-! ### The check at accept -/

/-- `Params.reference` with no double-word CAS, and with every address admitted. -/
def noCas : Params := { Params.reference with hasCas128 := false }
def admitAll : Params := { Params.reference with admitRanges := [⟨0, 2 ^ 64⟩] }

/-- V-F1 to V-F19. -/
theorem test_check :
    [ check Params.reference 0x1 0x1000, check Params.reference 0x1 0x1008, check Params.reference 0x5 0x1008,
      check Params.reference 0x1 0x1004, check Params.reference 0x0 0x1004, check Params.reference 0x8 0x1000,
      check Params.reference 0x4 0x1000, check Params.reference 0x3 0x1001, check Params.reference 0x10 0x1000,
      check Params.reference 0x80000001 0x1000 ] =
    [.ok, .ok, .misaligned, .misaligned, .misaligned, .ok, .illegalCommand, .illegalCommand, .illegalCommand,
      .illegalCommand] ∧
    [ check noCas 0x5 0x1008, check noCas 0x5 0x1000, check noCas 0x1 0x1000,
      check Params.reference 0x1 0x200000, check Params.reference 0x5 0x200008,
      check Params.reference 0x2 0xFFFF8, check Params.reference 0xE 0x0,
      check admitAll 0x1 0xFFFFFFFFFFFFFFF8, check admitAll 0x1 0xFFFFFFFFFFFFFFF0 ] =
    [.casUnsupported, .casUnsupported, .ok, .accessFault, .misaligned, .accessFault, .ok, .accessFault,
      .ok] := by decide

/-! ### Memory -/

/-- The CAS128 table of section 6: the cell at 0x40 holds (5, 6). -/
theorem test_cas128 :
    let s := stateOf fresh [(0x40, 5), (0x48, 6)]
    let row (e n : GenState) := (s.casSucceeds 0x40 e, (s.casEvent (.user 0) 0x40 e n).cell 0x40)
    [row ⟨5, 6⟩ ⟨7, 8⟩, row ⟨5, 7⟩ ⟨7, 8⟩, row ⟨6, 5⟩ ⟨7, 8⟩, row ⟨5, 6⟩ ⟨5, 6⟩] =
      [(true, ⟨7, 8⟩), (false, ⟨5, 6⟩), (false, ⟨5, 6⟩), (true, ⟨5, 6⟩)] := by decide

/-- R42: the two byte orders of the word 0x0102 at 0x10. -/
theorem test_byte_orders :
    storeValue .little [] 0x10 .w64 0x0102 = [(0x10, 2), (0x11, 1)] ∧
      storeValue .big [] 0x10 .w64 0x0102 = [(0x16, 1), (0x17, 2)] := by decide

/-- A write of the unlisted value removes the entry. -/
theorem test_store_zero : storeValue .little cell01 0x1008 .w64 0 = [] := by decide

/-! ### One step of each command -/

/-- V-C1, second step of `seed`: W(0x1008). -/
theorem test_seed_writes :
    let o := exec (.seed 0 0x1000 0 1) (stateOf (busyIn .seedW1 seedReq) [])
    (isNext o, (after o).mem, (agent0 o).phase) = (true, cell01, .resp) := by decide
/-- V-F5: SEED needs an 8-aligned address. -/
theorem test_seed_misaligned :
    let o := exec (.seed 0 0x1004 0 1) (stateOf (waiting ⟨0, 0x1004, 0, 1⟩) [])
    ((agent0 o).fault, (agent0 o).faultAddr, (agent0 o).phase, (after o).order) =
      (3, 0x1004, .resp, []) := by decide
/-- V-C2 at COMPUTE. -/
theorem test_xsNext_computes :
    let o := exec (.xsNext 0x1000 0 0) (stateOf (snapIn .compute xsNextReq) cell01)
    (candidate (agent0 o), (agent0 o).outr, (agent0 o).phase) = (⟨1, 1⟩, 2, .wr0) := by decide
/-- V-C2 at WR0: only s0 is written. -/
theorem test_xsNext_writes :
    let o := exec (.xsNext 0x1000 0 0) (stateOf (commitIn .wr0 xsNextReq) cell01)
    ((after o).cell 0x1000, (agent0 o).phase) = (⟨1, 1⟩, .wr1) := by decide
/-- V-C4 at COMPUTE. -/
theorem test_xoNext_computes :
    let o := exec (.xoNext 0x1000 0 0) (stateOf (snapIn .compute ⟨0x9, 0x1000, 0, 0⟩) cell01)
    (candidate (agent0 o), (agent0 o).outr, (agent0 o).phase) = (⟨0x4001, 0x1000000000⟩, 1, .wr0) := by decide
/-- V-R1: after WR0 and a reset the cell is a mix and the agent is IDLE with nothing to say. -/
theorem test_reset_mixes :
    let a : Agent := { snapIn .wr0 ⟨0x9, 0x1000, 0, 0⟩ with cand0 := 0x4001, cand1 := 0x1000000000, outr := 1 }
    let o := perform .reset (after (exec (.xoNext 0x1000 0 0) (stateOf a cell01)))
    ((after o).cell 0x1000, (agent0 o).phase, (agent0 o).busy, (agent0 o).rsp, (agent0 o).fault) =
      (⟨0x4001, 1⟩, .idle, false, none, 0) := by decide
/-- P3, row 8: the CAS of agent 1 succeeds. -/
theorem test_xsNextCas_commits :
    let o := exec (.xsNextCas 0x1000 0 0) (stateOf (commitIn .cas xsCasReq) cell01)
    ((after o).cell 0x1000, (agent0 o).phase) = (⟨1, 1⟩, .resp) := by decide
/-- P3, row 11: on a changed cell it fails, and the agent reads again. -/
theorem test_xsNextCas_retries :
    let o := exec (.xsNextCas 0x1000 0 0) (stateOf (commitIn .cas xsCasReq) [(0x1000, 1), (0x1008, 1)])
    ((after o).cell 0x1000, (agent0 o).phase) = (⟨1, 1⟩, .rd0) := by decide
/-- V-C4 at COMPUTE, atomic. -/
theorem test_xoNextCas_computes :
    let o := exec (.xoNextCas 0x1000 0 0) (stateOf (snapIn .compute xoCasReq) cell01)
    (candidate (agent0 o), (agent0 o).outr, (agent0 o).phase) = (⟨0x4001, 0x1000000000⟩, 1, .cas) := by decide
/-- V-F12. -/
theorem test_xoNextCas_unsupported :
    let o := exec (.xoNextCas 0x1000 0 0) { stateOf (waiting xoCasReq) [] with params := noCas }
    ((agent0 o).fault, (agent0 o).faultCmd) = (2, 0xD) := by decide
/-- The JITER table, family A, K = 1. -/
theorem test_xsJump_iterates :
    let o := exec (.xsJump 0x1000 0 0) (stateOf { snapIn .jiter xsJumpReq with w0 := 0, w1 := 1 } cell01)
    (jumpRegs (agent0 o), (agent0 o).k, (agent0 o).phase) = (⟨⟨0, 1⟩, ⟨1, 1⟩⟩, 1, .jiter) := by decide
/-- The JITER table, family B, from K = 2: bit 2 of JB0 is 0, so the accumulator stays. -/
theorem test_xoJump_skips :
    let a : Agent := { snapIn .jiter ⟨0xA, 0x1000, 0, 0⟩ with
      acc0 := 0x4001, acc1 := 0x1000000001, w0 := 0x0084001010000021, w1 := 0x0004001000000100, k := 2 }
    let o := exec (.xoJump 0x1000 0 0) (stateOf a cell01)
    (jumpRegs (agent0 o), (agent0 o).k) =
      (⟨⟨0x4001, 0x1000000001⟩, ⟨0x1000460018404121, 0x0000121008000001⟩⟩, 3) := by decide
/-- The last JITER step of `xs.jump.cas` from (0, 1) (V-JA1). -/
theorem test_xsJumpCas_ends :
    let a : Agent := { snapIn .jiter ⟨0x6, 0x1000, 0, 0⟩ with
      acc0 := 0x88ab9282f841d5aa, acc1 := 0x718cadb927185603, k := 128, outr := 7 }
    let o := exec (.xsJumpCas 0x1000 0 0) (stateOf a cell01)
    (candidate (agent0 o), (agent0 o).outr, (agent0 o).phase) =
      (⟨0x88ab9282f841d5aa, 0x718cadb927185603⟩, 0, .cas) := by decide
/-- V-C6 at CAS. -/
theorem test_xoJumpCas_commits :
    let a : Agent := { snapIn .cas ⟨0xE, 0x1000, 0, 0⟩ with
      cand0 := 0x94076d025b6cdee7, cand1 := 0xe250ba88d01f5fdb, outr := 0 }
    let o := exec (.xoJumpCas 0x1000 0 0) (stateOf a cell01)
    ((after o).cell 0x1000, (agent0 o).phase) = (⟨0x94076d025b6cdee7, 0xe250ba88d01f5fdb⟩, .resp) := by decide
/-- P5: a HALTED agent answers with its fault's code. -/
theorem test_halted_answers :
    let o := perform (.agent 0) (stateOf { halted with req := some seedReq } [])
    ((agent0 o).rsp, (agent0 o).req, (agent0 o).cmdr, (after o).order) = (some ⟨3, 0⟩, none, 0x5, []) := by
  decide
/-- V-R3. -/
theorem test_halted_reset :
    let o := perform .reset (stateOf halted [])
    ((agent0 o).phase, (agent0 o).fault, (agent0 o).faultCmd, (agent0 o).faultAddr) = (.idle, 0, 0, 0) := by
  decide
/-- The request `withFetchWord` places is the one the next step accepts. -/
theorem test_withFetchWord :
    let o := step (State.reset.withFetchWord 32 0x5)
    ((agent0 o).cmdr, (agent0 o).phase, (agent0 o).busy) = (0x5, .rd0, true) := by decide

/-! ### Witnesses: states and operands that meet the hypotheses of the statements -/

theorem inv_stateOf {a : Agent} {m : Memory} (ha : AgentInv Params.reference a) (hm : Memory.wf m) :
    Inv (stateOf a m) := by
  refine ⟨(by decide : Params.wf Params.reference), rfl, hm, fun b hb => ?_⟩
  simp only [stateOf, List.mem_cons, List.not_mem_nil, or_false] at hb
  rcases hb with rfl | rfl
  · exact ha
  · exact ⟨rfl, fun r h => by simp [fresh, Agent.reset] at h, rfl⟩

theorem inv_waiting (r : Request) {m : Memory} (hm : Memory.wf m) : Inv (stateOf (waiting r) m) :=
  inv_stateOf ⟨rfl, fun r h => by simp [waiting, fresh, Agent.reset] at h, rfl⟩ hm

theorem wf_cell01 : Memory.wf cell01 := by decide

theorem inv_seedW0 : Inv (stateOf (busyIn .seedW0 ⟨0, 0x1000, 0, 1⟩) []) := by
  refine inv_stateOf ⟨rfl, fun r h => by simp [busyIn, latch, fresh, Agent.reset] at h, rfl, ?_⟩ (by decide)
  exact ⟨⟨.seed, false, .a⟩, by decide, by decide, rfl, rfl⟩

theorem inv_seedW1 : Inv (stateOf (busyIn .seedW1 seedReq) []) := by
  refine inv_stateOf ⟨rfl, fun r h => by simp [busyIn, latch, fresh, Agent.reset] at h, rfl, ?_⟩ (by decide)
  exact ⟨⟨.seed, false, .a⟩, by decide, by decide, rfl, rfl⟩

theorem inv_rd0 : Inv (stateOf (busyIn .rd0 xsCasReq) cell01) := by
  refine inv_stateOf ⟨rfl, fun r h => by simp [busyIn, latch, fresh, Agent.reset] at h, rfl, ?_⟩ wf_cell01
  exact ⟨⟨.next, true, .a⟩, by decide, by decide, fun h => by cases h⟩

theorem inv_rd1 : Inv (stateOf (busyIn .rd1 xsCasReq) cell01) := by
  refine inv_stateOf ⟨rfl, fun r h => by simp [busyIn, latch, fresh, Agent.reset] at h, rfl, ?_⟩ wf_cell01
  exact ⟨⟨.next, true, .a⟩, by decide, by decide, fun h => by cases h⟩

theorem inv_compute : Inv (stateOf (snapIn .compute xsCasReq) cell01) := by
  refine inv_stateOf
    ⟨rfl, fun r h => by simp [snapIn, busyIn, latch, fresh, Agent.reset] at h, rfl, ?_⟩ wf_cell01
  exact ⟨⟨.next, true, .a⟩, by decide, by decide, fun h => by cases h⟩

/-- At CAS with the snapshot (0, 1), over any memory. -/
theorem inv_cas {m : Memory} (hm : Memory.wf m) : Inv (stateOf (commitIn .cas xsCasReq) m) := by
  refine inv_stateOf
    ⟨rfl, fun r h => by simp [commitIn, snapIn, busyIn, latch, fresh, Agent.reset] at h, rfl, ?_⟩ hm
  exact ⟨⟨.next, true, .a⟩, by decide, by decide, by decide, rfl, by decide, by decide⟩

theorem inv_wr0 : Inv (stateOf (commitIn .wr0 xsNextReq) cell01) := by
  refine inv_stateOf
    ⟨rfl, fun r h => by simp [commitIn, snapIn, busyIn, latch, fresh, Agent.reset] at h, rfl, ?_⟩ wf_cell01
  exact ⟨⟨.next, false, .a⟩, by decide, by decide, by decide, rfl, by decide, by decide⟩

theorem inv_wr1 : Inv (stateOf (commitIn .wr1 xsNextReq) cell01) := by
  refine inv_stateOf
    ⟨rfl, fun r h => by simp [commitIn, snapIn, busyIn, latch, fresh, Agent.reset] at h, rfl, ?_⟩ wf_cell01
  exact ⟨⟨.next, false, .a⟩, by decide, by decide, by decide, rfl, by decide, by decide⟩

theorem inv_halted (q : Option Request) : Inv (stateOf { halted with req := q } []) := by
  refine inv_stateOf ⟨rfl, fun r h => by simp [halted, fresh, Agent.reset] at h, ?_⟩ (by decide)
  exact ⟨(by decide : halted.fault ≠ 0), rfl, rfl,
    (by decide : halted.fault = (check Params.reference halted.cmdr halted.addrr).code)⟩

/-- The schedule `ms` before a state. -/
def scheduled (ms : List Move) (s : State) : State := { s with moves := ms }

/-! #### Encoding -/

theorem witness_DecodeAndEncodeAreInverse : ∃ (r : Request) (i : Instr), decode r = .ok i :=
  ⟨xoCasReq, .xoNextCas 0x1000 0 0, by decide⟩

theorem witness_OpcodeMapSelectsTheCommandsRow :
    (∃ r i, decode r = .ok i) ∧ ∃ r e, decode r = .error e :=
  ⟨⟨⟨8, 0, 0, 0⟩, .seed 1 0 0 0, by decide⟩, ⟨4, 0, 0, 0⟩, .seedAtomic, by decide⟩

theorem witness_ReservedWordsAreIllegal :
    ∃ (s : State) (a : Agent) (r : Request) (e : DecodeError),
      ActiveIn s .idle a ∧ a.req = some r ∧ decodeCmd r.cmd = .error e :=
  ⟨stateOf (waiting ⟨0x3, 0x1000, 0, 0⟩) [], _, _, .reservedOperation, ⟨rfl, rfl⟩, rfl, by decide⟩

theorem witness_WellFormedLinesAssemble :
    AsmLine.wf Params.reference ⟨1, .xoJumpCas, [2 ^ 64 - 1]⟩ = true ∧
      AsmLine.wf Params.reference ⟨0, .seed, [0, 0, 2 ^ 64 - 1]⟩ = true := by decide

/-! #### Steps and accept -/

theorem witness_StepRunsTheDecodedCommand :
    (∃ (s : State) (a : Agent) (r : Request) (i : Instr) (ms : List Move), s.agents[0]? = some a ∧
      a.phase = .idle ∧ a.req = some r ∧ decode r = .ok i ∧ s.moves = .agent 0 :: ms) ∧
    (∃ (s : State) (a : Agent) (i : Instr), s.agents[0]? = some a ∧ busyPhase a.phase = true ∧
      decode (latched a) = .ok i ∧ s.moves = [] ∧ firstEnabled s.agents = some 0) :=
  ⟨⟨scheduled [.agent 0] (stateOf (waiting xsCasReq) []), _, xsCasReq, .xsNextCas 0x1000 0 0, [], rfl, rfl, rfl,
      by decide, rfl⟩,
    stateOf (busyIn .rd0 xsCasReq) [], _, .xsNextCas 0x1000 0 0, rfl, rfl, by decide, rfl, by decide⟩

/-- Boundaries: the last admitted cell, and the last cell of the space. -/
theorem witness_AcceptLatchesTheRequest :
    (∃ (s : State) (a : Agent) (q : Request), ActiveIn s .idle a ∧ a.req = some q ∧
      Admissible s.params (Instr.xoJumpCas 0xFFFF0 0 0).kind 0xFFFF0) ∧
    Admissible admitAll (Instr.seed 1 0xFFFFFFFFFFFFFFF0 0 0).kind 0xFFFFFFFFFFFFFFF0 ∧
    Admissible noCas (Instr.xsNext 0x1008 0 0).kind 0x1008 :=
  ⟨⟨stateOf (waiting xsCasReq) [], _, xsCasReq, ⟨rfl, rfl⟩, rfl, (checkKind_ok_iff _ _ _).mp (by decide)⟩,
    (checkKind_ok_iff _ _ _).mp (by decide), (checkKind_ok_iff _ _ _).mp (by decide)⟩

/-- One failing check for each fault: no CAS, 8 but not 16, 4 but not 8, s1 outside, and a cell that wraps. -/
theorem witness_AcceptTakesTheFirstFault :
    (∃ (s : State) (a : Agent) (q : Request), ActiveIn s .idle a ∧ a.req = some q ∧
      ¬ Admissible s.params (Instr.xsNextCas 0x1008 0 0).kind 0x1008) ∧
    ¬ Admissible noCas (Instr.xsNextCas 0x1000 0 0).kind 0x1000 ∧
    ¬ Admissible Params.reference (Instr.seed 0 0x1004 0 0).kind 0x1004 ∧
    ¬ Admissible Params.reference (Instr.xsJump 0xFFFF8 0 0).kind 0xFFFF8 ∧
    ¬ Admissible admitAll (Instr.xoNext 0xFFFFFFFFFFFFFFF8 0 0).kind 0xFFFFFFFFFFFFFFF8 := by
  refine ⟨⟨stateOf (waiting xsCasReq) [], _, xsCasReq, ⟨rfl, rfl⟩, rfl, fun h => ?_⟩, fun h => ?_, fun h => ?_,
    fun h => ?_, fun h => ?_⟩ <;>
  exact absurd ((checkKind_ok_iff _ _ _).mpr h) (by decide)

theorem witness_SeedWritesTheCell :
    (∃ s a, Inv s ∧ ActiveIn s .seedW0 a) ∧ ∃ s a, Inv s ∧ ActiveIn s .seedW1 a :=
  ⟨⟨_, _, inv_seedW0, rfl, rfl⟩, _, _, inv_seedW1, rfl, rfl⟩

theorem witness_SnapshotReadsTheCell :
    (Instr.xsNextCas 0 0 0).kind.op ≠ .seed ∧ (∃ s a, Inv s ∧ ActiveIn s .rd0 a) ∧
      ∃ s a, Inv s ∧ ActiveIn s .rd1 a :=
  ⟨by decide, ⟨_, _, inv_rd0, rfl, rfl⟩, _, _, inv_rd1, rfl, rfl⟩

theorem witness_ComputeAppliesFamilyA : ∃ s a, ActiveIn s .compute a :=
  ⟨stateOf (snapIn .compute xsNextReq) cell01, _, rfl, rfl⟩

theorem witness_ComputeAppliesFamilyB : ∃ s a, ActiveIn s .compute a :=
  ⟨stateOf (snapIn .compute xoCasReq) cell01, _, rfl, rfl⟩

/-- K at its ends and where the masks meet. -/
theorem witness_JumpIteratesOverItsMasks :
    (Instr.xoJumpCas 0 0 0).kind.op = .jump ∧ (∃ s a, ActiveIn s .compute a) ∧
      (∀ n ∈ [0, 63, 64, 127], ∃ s a, ActiveIn s .jiter a ∧ a.k = BitVec.ofNat 8 n ∧ a.k.toNat < 128) ∧
      (∃ s a, ActiveIn s .jiter a ∧ a.k = 128) ∧
      ∃ s a, ActiveIn s .jiter a ∧ a.k = 0 ∧ a.acc0 = 0 ∧ a.acc1 = 0 ∧ a.w0 = a.exp0 ∧ a.w1 = a.exp1 := by
  refine ⟨rfl, ⟨stateOf (snapIn .compute xsJumpReq) [], _, rfl, rfl⟩, fun n hn => ?_,
    ⟨stateOf { snapIn .jiter xsJumpReq with k := 128 } [], _, ⟨rfl, rfl⟩, rfl⟩,
    stateOf { snapIn .jiter xsJumpReq with w0 := 0, w1 := 1 } [], _, ⟨rfl, rfl⟩, rfl, rfl, rfl, rfl, rfl⟩
  refine ⟨stateOf { snapIn .jiter xsJumpReq with k := BitVec.ofNat 8 n } [], _, ⟨rfl, rfl⟩, rfl, ?_⟩
  simp only [List.mem_cons, List.not_mem_nil, or_false] at hn
  rcases hn with rfl | rfl | rfl | rfl <;> decide

theorem witness_CasCommitsOrRetries :
    (Instr.xsNextCas 0 0 0).kind.atomic = true ∧
    (∃ s a, Inv s ∧ ActiveIn s .cas a ∧ s.word a.addrr = a.exp0 ∧ s.word (a.addrr + 8) = a.exp1) ∧
      ∃ s a, Inv s ∧ ActiveIn s .cas a ∧ ¬ (s.word a.addrr = a.exp0 ∧ s.word (a.addrr + 8) = a.exp1) :=
  ⟨rfl, ⟨_, _, inv_cas wf_cell01, ⟨rfl, rfl⟩, by decide, by decide⟩, _, _, inv_cas (m := []) (by decide),
    ⟨rfl, rfl⟩, by decide⟩

theorem witness_UnsharedCommitWritesTheCandidate :
    (Instr.xsNext 0 0 0).kind.atomic = false ∧ (∃ s a, Inv s ∧ ActiveIn s .wr0 a) ∧
      ∃ s a, Inv s ∧ ActiveIn s .wr1 a :=
  ⟨rfl, ⟨_, _, inv_wr0, rfl, rfl⟩, _, _, inv_wr1, rfl, rfl⟩

theorem witness_RespondDeliversTheResult :
    (∃ s a, ActiveIn s .resp a ∧ a.rsp = none ∧ a.fault = 0) ∧
      (∃ s a, ActiveIn s .resp a ∧ a.rsp = none ∧ a.fault ≠ 0) ∧ ∃ s a r, ActiveIn s .resp a ∧ a.rsp = some r :=
  ⟨⟨stateOf (busyIn .resp xsCasReq) [], _, ⟨rfl, rfl⟩, rfl, rfl⟩,
    ⟨stateOf { busyIn .resp xsCasReq with fault := 3 } [], _, ⟨rfl, rfl⟩, rfl, by decide⟩,
    stateOf { busyIn .resp xsCasReq with rsp := some ⟨0, 1⟩ } [], _, _, ⟨rfl, rfl⟩, rfl⟩

theorem witness_HaltedAnswersWithItsFault :
    (∃ s a q, ActiveIn s .halted a ∧ a.req = some q ∧ a.rsp = none) ∧
      (∃ s a, ActiveIn s .halted a ∧ a.req = none) ∧ ∃ s a r, ActiveIn s .halted a ∧ a.rsp = some r :=
  ⟨⟨stateOf { halted with req := some seedReq } [], _, seedReq, ⟨rfl, rfl⟩, rfl, rfl⟩,
    ⟨stateOf halted [], _, ⟨rfl, rfl⟩, rfl⟩,
    stateOf { halted with rsp := some ⟨3, 0⟩ } [], _, _, ⟨rfl, rfl⟩, rfl⟩

/-! #### Whole commands -/

/-- A state that meets the hypotheses of the completion statements, for a command at 0x1000. -/
theorem witness_completes (i : Instr) (h : checkKind Params.reference i.kind i.addr = .ok) :
    ∃ (s : State) (a : Agent) (q : Request), Inv s ∧ ActiveIn s .idle a ∧ a.req = some q ∧ a.rsp = none ∧
      Admissible s.params i.kind i.addr :=
  ⟨_, _, encode i, inv_waiting (encode i) wf_cell01, ⟨rfl, rfl⟩, rfl, rfl, (checkKind_ok_iff _ _ _).mp h⟩

theorem witness_SeedCompletes :
    ∃ (s : State) (a : Agent) (q : Request), Inv s ∧ ActiveIn s .idle a ∧ a.req = some q ∧ a.rsp = none ∧
      Admissible s.params ⟨.seed, false, .a⟩ 0x1008 := witness_completes (.seed 1 0x1008 0 1) (by decide)

theorem witness_UnsharedNextCompletes :
    ∃ (s : State) (a : Agent) (q : Request), Inv s ∧ ActiveIn s .idle a ∧ a.req = some q ∧ a.rsp = none ∧
      Admissible s.params ⟨.next, false, .b⟩ 0x1008 := witness_completes (.xoNext 0x1008 0 0) (by decide)

theorem witness_AtomicNextCompletes :
    ∃ (s : State) (a : Agent) (q : Request), Inv s ∧ ActiveIn s .idle a ∧ a.req = some q ∧ a.rsp = none ∧
      Admissible s.params ⟨.next, true, .a⟩ 0x1000 := witness_completes (.xsNextCas 0x1000 0 0) (by decide)

theorem witness_UnsharedJumpCompletes :
    ∃ (s : State) (a : Agent) (q : Request), Inv s ∧ ActiveIn s .idle a ∧ a.req = some q ∧ a.rsp = none ∧
      Admissible s.params ⟨.jump, false, .a⟩ 0xFFFF0 := witness_completes (.xsJump 0xFFFF0 0 0) (by decide)

theorem witness_AtomicJumpCompletes :
    ∃ (s : State) (a : Agent) (q : Request), Inv s ∧ ActiveIn s .idle a ∧ a.req = some q ∧ a.rsp = none ∧
      Admissible s.params ⟨.jump, true, .b⟩ 0x1000 := witness_completes (.xoJumpCas 0x1000 0 0) (by decide)

theorem witness_UnsharedEqualsAtomicUncontended :
    ∃ (i c : Instr) (s : State) (a : Agent) (q : Request), i.kind.op ≠ .seed ∧ i.kind.atomic = false ∧
      c.kind = ⟨i.kind.op, true, i.kind.family⟩ ∧ c.addr = i.addr ∧ Inv s ∧ ActiveIn s .idle a ∧
      a.req = some q ∧ a.rsp = none ∧ Admissible s.params c.kind c.addr :=
  ⟨.xoJump 0x1000 0 0, .xoJumpCas 0x1000 0 0, _, _, xoCasReq, by decide, rfl, rfl, rfl,
    inv_waiting xoCasReq wf_cell01, ⟨rfl, rfl⟩, rfl, rfl, (checkKind_ok_iff _ _ _).mp (by decide)⟩

/-! #### Frames -/

theorem witness_ExecChangesOnlyTheActiveAgent : ∃ i s t, exec i s = .next t :=
  ⟨.xsNextCas 0x1000 0 0, stateOf (commitIn .cas xsCasReq) cell01, exists_next (by decide)⟩

theorem witness_RegistersChangeOnlyInTheirSteps :
    ∃ i s t a b, exec i s = .next t ∧ s.agents[s.active]? = some a ∧ t.agents[s.active]? = some b ∧
      a.phase ≠ .idle ∧ a.phase ≠ .rd0 ∧ a.phase ≠ .compute ∧ a.phase ≠ .jiter :=
  ⟨.xsNext 0x1000 0 0, stateOf (commitIn .wr0 xsNextReq) cell01, _, _, commitIn .wr1 xsNextReq,
    eq_next (by decide), rfl, by decide, by decide, by decide, by decide, by decide⟩

theorem witness_ExecStoresOnlyInItsRange :
    (∃ i s t a, exec i s = .next t ∧ s.agents[s.active]? = some a ∧ storedRange s a = some (0x1000, 16)) ∧
      (∃ i s t a, exec i s = .next t ∧ s.agents[s.active]? = some a ∧ storedRange s a = some (0x1008, 8)) ∧
      ∃ i s t a, exec i s = .next t ∧ s.agents[s.active]? = some a ∧ storedRange s a = none :=
  ⟨⟨.xsNextCas 0x1000 0 0, stateOf (commitIn .cas xsCasReq) cell01, _, _, eq_next (by decide), rfl, by decide⟩,
    ⟨.seed 0 0x1000 0 1, stateOf (busyIn .seedW1 seedReq) [], _, _, eq_next (by decide), rfl, by decide⟩,
    .xsNextCas 0x1000 0 0, stateOf (commitIn .cas xsCasReq) [], _, _, eq_next (by decide), rfl, by decide⟩

theorem witness_AgentStepMakesAtMostOneEvent : ∃ s t, perform (.agent 0) s = .next t :=
  ⟨stateOf (commitIn .cas xsCasReq) cell01, exists_next (by decide)⟩

/-- REQ filled, REQ emptied, RSP filled, RSP emptied. -/
theorem witness_SlotsLoseNothing :
    (∃ s t a b, perform (.present 0 seedReq) s = .next t ∧ s.agents[0]? = some a ∧ t.agents[0]? = some b ∧
      b.req ≠ a.req) ∧
    (∃ s t a b, perform (.agent 0) s = .next t ∧ s.agents[0]? = some a ∧ t.agents[0]? = some b ∧
      b.req ≠ a.req) ∧
    (∃ s t a b, perform (.agent 0) s = .next t ∧ s.agents[0]? = some a ∧ t.agents[0]? = some b ∧
      b.rsp ≠ a.rsp) ∧
    ∃ s t a b, perform (.take 0) s = .next t ∧ s.agents[0]? = some a ∧ t.agents[0]? = some b ∧
      b.rsp ≠ a.rsp := by
  refine ⟨⟨stateOf fresh [], _, _, waiting seedReq, eq_next (by decide), rfl, by decide, by decide⟩,
    ⟨stateOf (waiting seedReq) [], _, _, busyIn .seedW0 seedReq, eq_next (by decide), rfl, by decide, by decide⟩,
    ⟨stateOf (busyIn .resp seedReq) [], _, _, { busyIn .idle seedReq with busy := false, rsp := some ⟨0, 0⟩ },
      eq_next (by decide), rfl, by decide, by decide⟩,
    stateOf { fresh with rsp := some ⟨0, 0⟩ } [], _, _, fresh, eq_next (by decide), rfl, by decide, by decide⟩

/-! #### The invariant and progress -/

theorem witness_LaunchMeetsTheInvariant : Params.wf Params.reference ∧ Params.wf admitAll ∧ Params.wf noCas := by
  decide

theorem witness_EveryStepKeepsTheInvariant : ∃ s t, Inv s ∧ step s = .next t :=
  ⟨_, _, inv_rd0, eq_next (by decide)⟩

theorem witness_AgentsNeverStop : ∃ s a, Inv s ∧ s.agents[0]? = some a := ⟨_, _, inv_cas wf_cell01, rfl⟩

theorem witness_StepRefusesOnlyTheEnvironment :
    (∃ s r, Inv s ∧ s.moves = [.take 0] ∧ step s = .refused r) ∧
      (∃ s r, Inv s ∧ s.moves = [.agent 2] ∧ step s = .refused r) ∧
      ∃ s t, Inv s ∧ s.moves = [.userCas 0 0xFFFF0 ⟨0, 0⟩ ⟨1, 2⟩] ∧ step s = .next t :=
  ⟨⟨scheduled [.take 0] (stateOf (busyIn .rd0 xsCasReq) cell01), .responseSlotEmpty, inv_rd0, rfl, rfl⟩,
    ⟨scheduled [.agent 2] (stateOf (busyIn .rd0 xsCasReq) cell01), .noSuchAgent, inv_rd0, rfl, rfl⟩,
    scheduled [.userCas 0 0xFFFF0 ⟨0, 0⟩ ⟨1, 2⟩] (stateOf (busyIn .rd0 xsCasReq) cell01), _, inv_rd0, rfl,
    eq_next (by decide)⟩

theorem witness_HaltedUntilReset :
    (∃ s t a r, perform (.agent 0) s = .next t ∧ s.agents[0]? = some a ∧ a.phase = .halted ∧
      a.req = some r ∧ a.rsp = none) ∧
      ∃ s t a, perform (.present 0 seedReq) s = .next t ∧ s.agents[0]? = some a ∧ a.phase = .halted :=
  ⟨⟨stateOf { halted with req := some seedReq } [], _, _, _, eq_next (by decide), rfl, rfl, rfl, rfl⟩,
    stateOf halted [], _, _, eq_next (by decide), rfl, rfl⟩

theorem witness_FirstFaultIsKept :
    ∃ s t a, Inv s ∧ step s = .next t ∧ s.agents[0]? = some a ∧ a.fault ≠ 0 ∧ ∀ ms, s.moves ≠ .reset :: ms :=
  ⟨_, _, _, inv_halted (some seedReq), eq_next (by decide), rfl, by decide, fun ms h => by cases h⟩

/-! #### Memory order and atomicity -/

theorem witness_MemoryOrderExplainsTheMemory : ∃ s t, OrderExplains s ∧ step s = .next t :=
  ⟨stateOf (busyIn .seedW1 seedReq) [], _, ⟨rfl, trivial⟩, eq_next (by decide)⟩

theorem witness_SuccessfulCasCommitsOneTransition :
    ∃ s t a b k, Inv s ∧ s.agents[0]? = some a ∧ a.phase = .cas ∧ decodeCmd a.cmdr = .ok k ∧
      perform (.agent 0) s = .next t ∧ t.agents[0]? = some b ∧ b.phase = .resp :=
  ⟨_, _, _, commitIn .resp xsCasReq, ⟨.next, true, .a⟩, inv_cas wf_cell01, rfl, rfl, by decide,
    eq_next (by decide), by decide, rfl⟩

theorem atomicOn_of {c : Word} {r : Request} {k : CommandKind} (h : decodeCmd r.cmd = .ok k)
    (hk : k.atomic = true) : AtomicOn c r := by
  intro k' h'
  rw [h] at h'
  cases h'
  exact .inl hk

/-- Agent 0 commits `xs.next.cas` to the cell at 0x1000 while a memory user writes beside it and agent 1 accepts
an unshared command on another cell. -/
theorem witness_SharedCellHoldsOnlyTransitions :
    ∃ (c : Word) (ms : List Move) (s t : State), Inv s ∧ c.toNat % 16 = 0 ∧ AgentsAtomicOn c s ∧
      (∀ m ∈ ms, MoveAtomicOn c m) ∧ runMoves ms s = .next t ∧ commitsOf c ms s = [(0, ⟨.next, true, .a⟩)] := by
  refine ⟨0x1000, [.present 1 ⟨0x1, 0x1010, 0, 0⟩, .userWrite 0 0x0FF8 .w64 7, .agent 1, .agent 0, .agent 0],
    _, _, inv_cas wf_cell01, by decide, ?_, ?_, eq_next (by decide), by decide⟩
  · intro a ha
    simp only [stateOf, List.mem_cons, List.not_mem_nil, or_false] at ha
    rcases ha with rfl | rfl
    · exact ⟨fun r h => by simp [commitIn, snapIn, busyIn, latch, fresh, Agent.reset] at h,
        fun _ => atomicOn_of (k := ⟨.next, true, .a⟩) (by decide) rfl⟩
    · exact ⟨fun r h => by simp [fresh, Agent.reset] at h, fun h => by simp [fresh, Agent.reset, busyPhase] at h⟩
  · intro m hm
    simp only [List.mem_cons, List.not_mem_nil, or_false] at hm
    rcases hm with rfl | rfl | rfl | rfl | rfl
    · exact fun _ _ => .inr (by simp [CellsApart])
    · simp [MoveAtomicOn, Width.bytes]
    · trivial
    · trivial
    · trivial

theorem witness_SharedCellChangesOnlyByACommit :
    ∃ (c : Word) (s t : State), Inv s ∧ c.toNat % 16 = 0 ∧ AgentsAtomicOn c s ∧ MoveAtomicOn c (.agent 0) ∧
      perform (.agent 0) s = .next t ∧ t.cell c ≠ s.cell c := by
  refine ⟨0x1000, _, _, inv_cas wf_cell01, by decide, ?_, trivial, eq_next (by decide), by decide⟩
  intro a ha
  simp only [stateOf, List.mem_cons, List.not_mem_nil, or_false] at ha
  rcases ha with rfl | rfl
  · exact ⟨fun r h => by simp [commitIn, snapIn, busyIn, latch, fresh, Agent.reset] at h,
      fun _ => atomicOn_of (k := ⟨.next, true, .a⟩) (by decide) rfl⟩
  · exact ⟨fun r h => by simp [fresh, Agent.reset] at h, fun h => by simp [fresh, Agent.reset, busyPhase] at h⟩

theorem witness_UndisturbedCasSucceeds :
    (∃ s t a b, Inv s ∧ perform (.agent 0) s = .next t ∧ s.agents[0]? = some a ∧ t.agents[0]? = some b ∧
      t.word a.addrr = s.word a.addrr ∧ t.word (a.addrr + 8) = s.word (a.addrr + 8) ∧ a.phase = .rd0) ∧
    (∃ s t a b, Inv s ∧ perform (.userWrite 0 0x1010 .w64 7) s = .next t ∧ s.agents[0]? = some a ∧
      t.agents[0]? = some b ∧ t.word a.addrr = s.word a.addrr ∧ t.word (a.addrr + 8) = s.word (a.addrr + 8) ∧
      Fresh s a) ∧
    (∃ s t a b, Inv s ∧ perform (.agent 0) s = .next t ∧ s.agents[0]? = some a ∧ t.agents[0]? = some b ∧
      t.word a.addrr = s.word a.addrr ∧ t.word (a.addrr + 8) = s.word (a.addrr + 8) ∧ Fresh s a ∧
      a.phase ≠ .cas) ∧
    ∃ s t a b, Inv s ∧ perform (.agent 0) s = .next t ∧ s.agents[0]? = some a ∧ t.agents[0]? = some b ∧
      Fresh s a ∧ a.phase = .cas := by
  have fresh_of (a : Agent) (m : Memory) (h : snapshot a = (stateOf a m).cell a.addrr)
      (hp : a.phase = .compute ∨ a.phase = .cas) : Fresh (stateOf a m) a := by
    rcases hp with hp | hp <;> simp only [Fresh, hp] <;> exact h
  exact ⟨⟨_, _, _, { busyIn .rd1 xsCasReq with exp0 := 0 }, inv_rd0, eq_next (by decide), rfl, by decide,
      by decide, by decide, rfl⟩,
    ⟨_, _, _, snapIn .compute xsCasReq, inv_compute, eq_next (by decide), rfl, by decide, by decide, by decide,
      fresh_of _ _ (by decide) (.inl rfl)⟩,
    ⟨_, _, _, commitIn .cas xsCasReq, inv_compute, eq_next (by decide), rfl, by decide, by decide, by decide,
      fresh_of _ _ (by decide) (.inl rfl), by decide⟩,
    _, _, _, commitIn .resp xsCasReq, inv_cas wf_cell01, eq_next (by decide), rfl, by decide,
      fresh_of _ _ (by decide) (.inr rfl), rfl⟩

/-- `xs.next.cas 0x1000` from RD0 to its response in moves 0 to 4, the response taken in move 5, and steps of the
idle agent 0 from then on. -/
def casRunMove (n : Nat) : Move := if n = 5 then .take 0 else .agent 0

def casRunState : Nat → State
  | 0 => stateOf (busyIn .rd0 xsCasReq) cell01
  | n + 1 => after (perform (casRunMove n) (casRunState n))

def casRun : Run := ⟨casRunState, casRunMove⟩

theorem casRun_rest (d : Nat) : casRunState (6 + d) = casRunState 6 := by
  induction d with
  | zero => rfl
  | succ d ih =>
    have h : casRunMove (6 + d) = .agent 0 := if_neg (by omega)
    rw [Nat.add_succ, casRunState, ih, h]
    decide

/-- What holds of the first seven points of the run holds of all. -/
theorem casRun_all {P : Nat → Prop} (h : ∀ n < 6, P n) (h6 : ∀ d, P (6 + d)) (n : Nat) : P n := by
  by_cases hn : n < 6
  · exact h n hn
  · have := h6 (n - 6)
    rwa [show 6 + (n - 6) = n by omega] at this

theorem casRun_legal : casRun.Legal := by
  refine casRun_all (fun n hn => eq_next ?_) fun d => eq_next ?_
  · revert n; decide
  · have h : casRunMove (6 + d) = .agent 0 := if_neg (by omega)
    show isNext (perform (casRunMove (6 + d)) (casRunState (6 + d))) = true
    rw [casRun_rest, h]
    decide

theorem casRun_agents (n : Nat) : ∃ a, (casRunState n).agents = [a, fresh] := by
  refine casRun_all (P := fun n => ∃ a, (casRunState n).agents = [a, fresh]) (fun n hn => ?_) (fun d => ?_) n
  · have : ∀ n < 6, ((casRunState n).agents[0]?.map fun a => [a, fresh]) = some (casRunState n).agents := by
      decide
    obtain ⟨a, -, h⟩ := Option.map_eq_some_iff.mp (this n hn)
    exact ⟨a, h.symm⟩
  · rw [casRun_rest]
    exact ⟨_, (by decide : (casRunState 6).agents =
      [(casRunState 6).agents[0]?.getD fresh, fresh])⟩

/-- At the end of the run agent 0 is IDLE with empty slots. -/
theorem casRun_rest_agent (d j : Nat) {a : Agent} (h : casRun.agent (6 + d) j = some a) :
    a.phase = .idle ∧ a.req = none ∧ a.rsp = none := by
  have h : (casRunState (6 + d)).agents[j]? = some a := h
  rw [casRun_rest] at h
  have : ∀ a ∈ (casRunState 6).agents, a.phase = .idle ∧ a.req = none ∧ a.rsp = none := by decide
  exact this a (List.mem_of_getElem? h)

theorem casRun_rest_some {n j : Nat} {a : Agent} (h : casRun.agent n j = some a) :
    ∃ b, casRun.agent (6 + n) j = some b := by
  obtain ⟨x, hx⟩ := casRun_agents n
  obtain ⟨y, hy⟩ := casRun_agents (6 + n)
  have h : (casRunState n).agents[j]? = some a := h
  show ∃ b, (casRunState (6 + n)).agents[j]? = some b
  rw [hx] at h
  rw [hy]
  match j, h with
  | 0, _ => exact ⟨y, rfl⟩
  | 1, _ => exact ⟨fresh, rfl⟩

/-- The window of the one round is moves 0 to 3, and no event writes the cell between them. -/
theorem casRun_window : casRun.Window 0 0 3 ∧ casRun.Quiet 0x1000 0 3 := by
  refine ⟨⟨by decide, rfl, rfl, ⟨_, rfl, rfl⟩, ⟨agent0 (.next (casRunState 3)), by decide, by decide⟩,
    fun p h1 h2 => ?_⟩, fun p e h1 h2 h => ?_⟩
  · have : ∀ p < 4, 0 < p → ((casRunState p).agents[0]?.any fun a =>
        roundPhase a.phase && decide (a.phase ≠ .rd0)) = true := by decide
    have := this p (by omega) h1
    show ∃ a, (casRunState p).agents[0]? = some a ∧ _
    cases h : (casRunState p).agents[0]? with
    | none => rw [h] at this; cases this
    | some a => rw [h] at this; exact ⟨a, rfl, by simpa using this⟩
  · have : ∀ p < 3, 0 < p → ((casRunState (p + 1)).order.head?.all fun e => !e.writesCell 0x1000) = true := by
      decide
    have := this p h2 h1
    rw [show (casRunState (p + 1)).order = e :: (casRunState p).order from h] at this
    simpa using this

theorem witness_QuietWindowCommits :
    ∃ (r : Run) (a : Agent), Inv (r.state 0) ∧ r.Legal ∧ r.Window 0 0 3 ∧ r.agent 0 0 = some a ∧
      r.Quiet a.addrr 0 3 :=
  ⟨casRun, busyIn .rd0 xsCasReq, inv_rd0, casRun_legal, casRun_window.1, rfl, casRun_window.2⟩

theorem witness_RetriesHaveNoBound :
    ∃ s a k, Inv s ∧ s.agents[0]? = some a ∧ a.phase = .rd0 ∧ decodeCmd a.cmdr = .ok k ∧ k.atomic = true :=
  ⟨_, _, ⟨.next, true, .a⟩, inv_rd0, rfl, rfl, by decide, rfl⟩

theorem witness_FairRunsEndEveryCommand :
    ∃ (r : Run) (a : Agent), Inv (r.state 0) ∧ r.Legal ∧ WeaklyFair r ∧ EventuallyQuiet r ∧ CallersTake r ∧
      r.agent 0 0 = some a ∧ busyPhase a.phase = true := by
  refine ⟨casRun, busyIn .rd0 xsCasReq, inv_rd0, casRun_legal, fun n j a h _ => ?_, fun n j a k _ _ _ h => ?_,
    fun n j a h => ?_, rfl, rfl⟩
  · obtain ⟨b, hb⟩ := casRun_rest_some h
    have := casRun_rest_agent n j hb
    exact ⟨6 + n, b, by omega, hb, .inr (by simp [enabled, this])⟩
  · obtain ⟨b, hb, hr⟩ := h (6 + n) (by omega)
    rw [(casRun_rest_agent n j hb).1] at hr
    cases hr
  · obtain ⟨b, hb⟩ := casRun_rest_some h
    exact ⟨6 + n, b, by omega, hb, (casRun_rest_agent n j hb).2.2⟩

/-! #### Two runs compared -/

/-- The two differ in registers RD0 does not read: EXP0, OUTR and K. -/
theorem witness_UnspecifiedRegistersAreNotRead :
    ∃ s u t, Inv s ∧ Inv u ∧ SameLiveState s u ∧ s ≠ u ∧ step s = .next t := by
  have hu : Inv (stateOf { busyIn .rd0 xsCasReq with exp0 := 5, outr := 6, k := 200 } cell01) := by
    refine inv_stateOf ⟨rfl, fun r h => by simp [busyIn, latch, fresh, Agent.reset] at h, rfl, ?_⟩ wf_cell01
    exact ⟨⟨.next, true, .a⟩, by decide, by decide, fun h => by cases h⟩
  refine ⟨_, _, _, inv_rd0, hu, ⟨rfl, rfl, rfl, rfl, rfl, rfl, rfl, ?_⟩, by decide, eq_next (by decide)⟩
  have live (a : Agent) : SameLive fresh fresh := ⟨rfl, rfl, rfl, rfl, rfl, rfl, rfl, fun _ _ => rfl, trivial⟩
  exact .cons ⟨rfl, rfl, rfl, rfl, rfl, rfl, rfl, fun _ _ => rfl, trivial⟩ (.cons (live fresh) .nil)

/-- The word 1 at 0x1008 in the two byte orders. -/
theorem witness_ByteOrderIsInvisibleToTheBlock :
    ∃ s u t, Inv s ∧ SameWords s u ∧ s.params.byteOrder ≠ u.params.byteOrder ∧
      perform (.agent 0) s = .next t := by
  refine ⟨_, { stateOf (busyIn .rd0 xsCasReq) [(0x100F, 1)] with
      params := { Params.reference with byteOrder := .big } }, _, inv_rd0,
    ⟨rfl, rfl, rfl, rfl, rfl, rfl, rfl, rfl, rfl, wf_cell01, by decide, fun a h => ?_⟩, by decide,
    eq_next (by decide)⟩
  by_cases e : a = 0x1008
  · subst e
    decide
  · have hne : a.toNat ≠ 0x1008 := fun h' => e (BitVec.eq_of_toNat_eq h')
    have bytes (m : Memory) (hm : ∀ x, a.toNat ≤ x → x < a.toNat + 8 → byteAt m x = byteAt [] x)
        (o : ByteOrder) : loadValue o m a.toNat .w64 = 0 := by
      rw [loadValue_congr (m := []) o a.toNat .w64 hm]
      cases o <;> simp [loadValue, loadBytes, byteAt, packBytes, inOrder, Width.bytes, Config.unlistedByte]
    refine (bytes [(0x100F, 1)] (fun x h1 h2 => ?_) .big).trans
      (bytes cell01 (fun x h1 h2 => ?_) .little).symm
    · have : 0x100F ≠ x := by omega
      simp [byteAt, this]
    · have : 0x1008 ≠ x := by omega
      simp [cell01, byteAt, this]

theorem witness_WithoutCasOnlyAtomicCommandsFault :
    (∃ s a q, (Instr.xsNextCas 0x1000 0 0).kind.atomic = true ∧ ActiveIn s .idle a ∧ a.req = some q) ∧
      ∃ i s t, i.kind.atomic = false ∧ exec i s = .next t :=
  ⟨⟨stateOf (waiting xsCasReq) [], _, xsCasReq, rfl, ⟨rfl, rfl⟩, rfl⟩,
    .xsNext 0x1000 0 0, stateOf (commitIn .wr0 xsNextReq) cell01, _, rfl, eq_next (by decide)⟩

/-! #### The environment -/

theorem witness_CallersPresentTakeAndSample :
    (∃ (s : State) (a : Agent), s.agents[0]? = some a ∧ a.req = none ∧ a.rsp = none) ∧
      ∃ (s : State) (a : Agent) (q : Request) (r : Response), s.agents[0]? = some a ∧ a.req = some q ∧ a.rsp = some r :=
  ⟨⟨stateOf fresh [], _, rfl, rfl, rfl⟩,
    stateOf { waiting seedReq with rsp := some ⟨0, 1⟩ } [], _, _, _, rfl, rfl, rfl⟩

/-- A half word at the end of its word, and the last admitted word. -/
theorem witness_MemoryUserBytesFollowTheByteOrder :
    Memory.wf (stateOf fresh cell01).mem ∧ userAccessOk Params.reference 0x1006 .w16 = true ∧
      userAccessOk Params.reference 0xFFFF8 .w64 = true ∧ userAccessOk Params.reference 0x1007 .w16 = false ∧
      userAccessOk Params.reference 0x100000 .w8 = false := by decide

/-- At the last cell the reference parameters admit, one that succeeds and one that fails. -/
theorem witness_MemoryUserCasIsOneEvent :
    ∃ (s : State) (a : Word) (e f : GenState), Memory.wf s.mem ∧ s.params.hasCas128 = true ∧ a.toNat % 16 = 0 ∧
      admits s.params a = true ∧ admits s.params (a + 8) = true ∧
      (s.word a = e.s0 ∧ s.word (a + 8) = e.s1) ∧ ¬ (s.word a = f.s0 ∧ s.word (a + 8) = f.s1) :=
  ⟨State.reset, 0xFFFF0, ⟨0, 0⟩, ⟨0, 1⟩, by decide, rfl, by decide, by decide, by decide, by decide, by decide⟩

theorem witness_MemoryEventsKeepTheCanonicalForm :
    ∃ s t, Memory.wf s.mem ∧ perform (.userWrite 0 0x1008 .w8 0) s = .next t :=
  ⟨stateOf fresh cell01, _, wf_cell01, eq_next (by decide)⟩

end Sys2Proof.Tests
end

section
/-! PROOFS. The moves of the environment said once, and what a step of a command leaves of its agent: the
lemmas the statements of spec/10_state.md are assembled from. -/

namespace Sys2Proof.Machine

open Sys2Proof

/-! ### The moves of the environment -/

/-- Everything a move of the environment can do when it answers a next state (R160, R170). -/
inductive EnvCase (s : State) : Move → State → Prop
  | presents (j : Nat) (r : Request) (a : Agent) (ha : s.agents[j]? = some a) (hq : a.req = none) :
      EnvCase s (.present j r) (s.setAgent j { a with req := some r })
  | takes (j : Nat) (r : Response) (a : Agent) (ha : s.agents[j]? = some a) (hr : a.rsp = some r) :
      EnvCase s (.take j) { s.setAgent j { a with rsp := none } with seen := .took j r :: s.seen }
  | samples (j : Nat) (reg : SampleReg) (a : Agent) (ha : s.agents[j]? = some a) :
      EnvCase s (.sample j reg) { s with seen := .sampled j reg (sampleValue s.params a reg) :: s.seen }
  | userReads (u : Nat) (x : Word) (w : Width) : EnvCase s (.userRead u x w) (s.readEvent (.user u) x w)
  | userWrites (u : Nat) (x : Word) (w : Width) (v : Word) :
      EnvCase s (.userWrite u x w v) (s.writeEvent (.user u) x w v)
  | userSwaps (u : Nat) (x : Word) (e n : GenState) : EnvCase s (.userCas u x e n) (s.casEvent (.user u) x e n)
  | resets :
      EnvCase s .reset
        { s with
          agents := s.agents.mapIdx (fun j _ => Agent.reset (Config.freeValue s.resets j))
          resets := s.resets + 1 }

/-- A move that answers a next state is a step of an agent of the block, or one of the environment's cases. -/
theorem perform_cases {m : Move} {s t : State} (h : perform m s = .next t) :
    (∃ j a, m = .agent j ∧ s.agents[j]? = some a ∧ ActiveCase { s with active := j } a t) ∨ EnvCase s m t := by
  cases m with
  | agent j =>
    obtain ⟨a, ha, hc⟩ := agentStep_cases h
    exact .inl ⟨j, a, rfl, ha, hc⟩
  | present j r =>
    simp only [perform, presentMove] at h
    split at h
    · cases h
    case h_2 a ha =>
      split at h <;> cases h
      exact .inr (.presents j r a ha (Option.not_isSome_iff_eq_none.mp ‹_›))
  | take j =>
    simp only [perform, takeMove] at h
    split at h
    · cases h
    case h_2 a ha =>
      split at h <;> cases h
      exact .inr (.takes j _ a ha ‹_›)
  | sample j reg =>
    simp only [perform, sampleMove] at h
    split at h <;> cases h
    exact .inr (.samples j reg _ ‹_›)
  | userRead u x w =>
    simp only [perform, userReadMove] at h
    split at h <;> cases h
    exact .inr (.userReads u x w)
  | userWrite u x w v =>
    simp only [perform, userWriteMove] at h
    split at h <;> cases h
    exact .inr (.userWrites u x w v)
  | userCas u x e n =>
    simp only [perform, userCasMove] at h
    split at h <;> cases h
    exact .inr (.userSwaps u x e n)
  | reset =>
    cases h
    exact .inr .resets

/-! ### What a step of a command leaves -/

/-- The step from `s` to `t` replaces the registers of the active agent by some that meet `P`, and no other
agent's. -/
def Updates (P : Agent → Prop) (s t : State) : Prop := ∃ b, t.agents = s.agents.set s.active b ∧ P b

theorem updates_setActive {P : Agent → Prop} {s t : State} {b : Agent} (hb : P b)
    (hg : t.agents = s.agents := by rfl) (hn : t.active = s.active := by rfl) :
    Updates P s (t.setActive b) := ⟨b, by rw [State.setActive_agents, hg, hn], hb⟩

/-- The state of a CAS128 has the agents of the state before it, so an agent's registers are replaced there as
in any other (R46). -/
theorem updates_casEvent {P : Agent → Prop} {s : State} {b : Agent} (hb : P b) (who : Actor) (x : Word)
    (e n : GenState) : Updates P s ((s.casEvent who x e n).setActive b) :=
  updates_setActive hb (State.casEvent_agents s who x e n) (State.casEvent_active s who x e n)

/-- A step that changes no register meets what the registers met. -/
theorem updates_self {P : Agent → Prop} {s : State} {a : Agent} (ha : s.agents[s.active]? = some a)
    (h : P a) : Updates P s s := ⟨a, (congrArg State.agents (setActive_self ha)).symm, h⟩

theorem Updates.active {P : Agent → Prop} {s t : State} {a b : Agent} (h : Updates P s t)
    (ha : s.agents[s.active]? = some a) (hb : t.agents[s.active]? = some b) : P b := by
  obtain ⟨c, hc, hP⟩ := h
  rw [hc] at hb
  exact getElem?_set_active ha hb ▸ hP

theorem Updates.others {P : Agent → Prop} {s t : State} (h : Updates P s t) {j : Nat} (hj : j ≠ s.active) :
    t.agents[j]? = s.agents[j]? := by
  obtain ⟨c, hc, -⟩ := h
  rw [hc, List.getElem?_set_ne (Ne.symm hj)]

theorem Updates.length {P : Agent → Prop} {s t : State} (h : Updates P s t) :
    t.agents.length = s.agents.length := by
  obtain ⟨c, hc, -⟩ := h
  rw [hc, List.length_set]

/-- A step of a command leaves the parameters, the moves and the observations (R20). -/
theorem ExecCase.sameElse {k : CommandKind} {r : Request} {s t : State} {a : Agent}
    (h : ExecCase k r s a t) : SameElse s t := by
  cases h
  case swaps => simp [SameElse]
  all_goals exact ⟨rfl, rfl, rfl, rfl, rfl⟩

/-- The latched request and the registers of the first fault (R25, R31, R32): `b` holds them as `a` does. -/
def SameRequest (a b : Agent) : Prop :=
  latched b = latched a ∧ b.fault = a.fault ∧ b.faultCmd = a.faultCmd ∧ b.faultAddr = a.faultAddr

/-- The candidate and the registers of the jump loop (R26, R27): `b` holds them as `a` does. -/
def SameComputation (a b : Agent) : Prop := candidate b = candidate a ∧ jumpRegs b = jumpRegs a ∧ b.k = a.k

/-- The registers of an agent before and after one of its steps: each is written in the phases that the spec
names for it only (R25 to R28, R31 to R33). -/
structure RegisterFrame (a b : Agent) : Prop where
  request : a.phase ≠ .idle → SameRequest a b
  exp0 : a.phase ≠ .rd0 → b.exp0 = a.exp0
  exp1 : a.phase ≠ .rd1 → b.exp1 = a.exp1
  computation : a.phase ≠ .compute → a.phase ≠ .jiter → SameComputation a b
  outr : a.phase ≠ .compute → a.phase ≠ .jiter → a.phase ≠ .idle → b.outr = a.outr
  req : a.phase ≠ .idle → a.phase ≠ .halted → b.req = a.req
  rsp : a.phase ≠ .resp → a.phase ≠ .halted → b.rsp = a.rsp
  busy : a.phase ≠ .idle → a.phase ≠ .resp → b.busy = a.busy

/-- A step that writes the phase register only is within the frame. -/
theorem RegisterFrame.of_phase (a : Agent) (ph : Phase) : RegisterFrame a { a with phase := ph } :=
  ⟨fun _ => ⟨rfl, rfl, rfl, rfl⟩, fun _ => rfl, fun _ => rfl, fun _ _ => ⟨rfl, rfl, rfl⟩, fun _ _ _ => rfl,
    fun _ _ => rfl, fun _ _ => rfl, fun _ _ => rfl⟩

/-- The accept step is within the frame, whether the check passes or not (R110, R143). -/
theorem RegisterFrame.accepted {a : Agent} (hp : a.phase = .idle) (op : Operation) (code : Status)
    (r : Request) : RegisterFrame a (accepted op code r a) := by
  unfold Machine.accepted
  split <;> constructor <;> simp [hp, raiseFault, latch, SameComputation, candidate, jumpRegs]

/-- COMPUTE of a NEXT is within the frame (R116). -/
theorem RegisterFrame.computedNext {a : Agent} (hp : a.phase = .compute) (k : CommandKind) :
    RegisterFrame a (computedNext k a) := by
  constructor <;> simp [hp, Machine.computedNext, withCandidate, SameRequest, latched]

/-- COMPUTE of a JUMP is within the frame (R116). -/
theorem RegisterFrame.computedJump {a : Agent} (hp : a.phase = .compute) :
    RegisterFrame a (computedJump a) := by
  constructor <;> simp [hp, Machine.computedJump, withJumpRegs, SameRequest, latched]

/-- A JITER step is within the frame (R117). -/
theorem RegisterFrame.iterated {a : Agent} (hp : a.phase = .jiter) (k : CommandKind) :
    RegisterFrame a (iterated k a) := by
  unfold Machine.iterated
  split <;> constructor <;> simp [hp, withJumpRegs, withCandidate, SameRequest, latched]

/-- RD0 is within the frame (R114). -/
theorem RegisterFrame.rd0 {a : Agent} (hp : a.phase = .rd0) (v : Word) :
    RegisterFrame a { a with exp0 := v, phase := .rd1 } := by
  constructor <;> simp [hp, SameRequest, SameComputation, latched, candidate, jumpRegs]

/-- RD1 is within the frame (R115). -/
theorem RegisterFrame.rd1 {a : Agent} (hp : a.phase = .rd1) (v : Word) :
    RegisterFrame a { a with exp1 := v, phase := .compute } := by
  constructor <;> simp [hp, SameRequest, SameComputation, latched, candidate, jumpRegs]

/-- RESP is within the frame (R121). -/
theorem RegisterFrame.responded {a : Agent} (hp : a.phase = .resp) (p : Option Response) (busy : Bool)
    (ph : Phase) : RegisterFrame a { a with rsp := p, busy := busy, phase := ph } := by
  constructor <;> simp [hp, SameRequest, SameComputation, latched, candidate, jumpRegs]

/-- The answer in HALTED is within the frame (R122). -/
theorem RegisterFrame.answered {a : Agent} (hp : a.phase = .halted) (q : Option Request)
    (p : Option Response) : RegisterFrame a { a with req := q, rsp := p } := by
  constructor <;> simp [hp, SameRequest, SameComputation, latched, candidate, jumpRegs]

/-- Each step of a command replaces the active agent's registers within the frame. -/
theorem ExecCase.frame {k : CommandKind} {r : Request} {s t : State} {a : Agent}
    (ha : s.agents[s.active]? = some a) (h : ExecCase k r s a t) : Updates (RegisterFrame a) s t := by
  cases h
  case waits => exact updates_self ha (.of_phase a a.phase)
  case accepts hp hq => exact updates_setActive (.accepted hp _ _ _)
  case rd0 hp hk ok => exact updates_setActive (.rd0 hp _)
  case rd1 hp hk ok => exact updates_setActive (.rd1 hp _)
  case computesNext hp hk => exact updates_setActive (.computedNext hp k)
  case computesJump hp hk => exact updates_setActive (.computedJump hp)
  case iterates hp hk => exact updates_setActive (.iterated hp k)
  case swaps hp hk hat ok => exact updates_casEvent (.of_phase a _) _ _ _ _
  case responds hp hr => exact updates_setActive (.responded hp _ _ _)
  case answers hp hq hr => exact updates_setActive (.answered hp _ _)
  all_goals exact updates_setActive (.of_phase a _)

end Sys2Proof.Machine
end

section
/-! PROOFS. The invariant of the block: what each phase hands to the next, and every move. -/

namespace Sys2Proof.Machine

open Sys2Proof

/-! ### An agent's own invariant -/

theorem agentInv_reset (p : Params) (u : Nat → Word) : AgentInv p (Agent.reset u) :=
  ⟨rfl, fun _ h => absurd h (by simp [Agent.reset]), rfl⟩

/-- The slots are bound to the other registers by nothing but R35. -/
theorem AgentInv.slots {p : Params} {a : Agent} (h : AgentInv p a) (q : Option Request) {r : Option Response}
    (hr : ∀ x, r = some x → ResponseLegal x) : AgentInv p { a with req := q, rsp := r } := by
  obtain ⟨hb, -, hph⟩ := h
  exact ⟨hb, hr, hph⟩

theorem AgentInv.responseLegal {p : Params} {a : Agent} (h : AgentInv p a) :
    ∀ x, a.rsp = some x → ResponseLegal x := h.2.1

theorem AgentInv.busy_eq {p : Params} {a : Agent} (h : AgentInv p a) : a.busy = busyPhase a.phase := h.1

theorem AgentInv.resp {p : Params} {a : Agent} (h : AgentInv p a) (hp : a.phase = .resp) :
    (a.fault = 0 ∧ InCommand p a) ∨ FaultRecorded p a := by
  have h3 := h.2.2
  simpa only [hp] using h3

theorem AgentInv.halted {p : Params} {a : Agent} (h : AgentInv p a) (hp : a.phase = .halted) :
    FaultRecorded p a := by
  have h3 := h.2.2
  simpa only [hp] using h3

/-- In a phase of a command that passed its check the invariant holds. -/
theorem agentInv_of_command {p : Params} {a : Agent} (hp : busyPhase a.phase = true) (hb : a.busy = true)
    (hr : ∀ x, a.rsp = some x → ResponseLegal x) (hf : a.fault = 0) (hc : InCommand p a) : AgentInv p a := by
  refine ⟨hb.trans hp.symm, hr, ?_⟩
  split
  case h_1 hi => simp [hi, busyPhase] at hp
  case h_2 hh => simp [hh, busyPhase] at hp
  case h_3 => exact .inl ⟨hf, hc⟩
  all_goals exact ⟨hf, hc⟩

/-- `b` is the agent `a` in another phase of the same command, not yet answered. -/
def SameCommand (a b : Agent) : Prop :=
  b.cmdr = a.cmdr ∧ b.addrr = a.addrr ∧ b.busy = a.busy ∧ b.rsp = a.rsp ∧ b.fault = a.fault

/-- A step inside the command of kind `k` keeps the invariant when the phase it goes to has what that phase owes
to the earlier ones. -/
theorem AgentInv.continues {p : Params} {a b : Agent} {k : CommandKind} (h : AgentInv p a)
    (hp : busyPhase a.phase = true) (hr : a.phase ≠ .resp) (hk : decodeCmd a.cmdr = .ok k)
    (hs : SameCommand a b) (hbp : busyPhase b.phase = true) (hm : PhaseMeets k a → PhaseMeets k b) :
    AgentInv p b := by
  obtain ⟨hcmd, haddr, hbusy, hrsp, hfault⟩ := hs
  obtain ⟨hf, k', hk', hadm, hph⟩ := h.command hp hr
  cases Except.ok.inj (hk.symm.trans hk')
  refine agentInv_of_command hbp ?_ (hrsp ▸ h.responseLegal) (hfault.trans hf) ⟨k, ?_, ?_, hm hph⟩
  · rw [hbusy, h.busy_eq, hp]
  · rw [hcmd, hk]
  · rw [haddr]
    exact (checkKind_ok_iff _ _ _).mpr hadm

/-! ### Faults and responses -/

/-- A fault's code is not 0 (R29). -/
theorem Status.code_ne_zero {c : Status} (h : c ≠ .ok) : c.code ≠ 0 := by
  cases c
  case ok => exact absurd rfl h
  all_goals decide

theorem Status.code_le (c : Status) : c.code.toNat ≤ 4 := by
  cases c <;> decide

/-- The answer with a recorded fault is one R35 allows. -/
theorem FaultRecorded.legal {p : Params} {a : Agent} (h : FaultRecorded p a) : ResponseLegal ⟨a.fault, 0⟩ := by
  obtain ⟨-, -, -, hc⟩ := h
  exact ⟨hc ▸ Status.code_le _, fun _ => rfl⟩

/-- Entering a fault with the code that the check gives records it (R143). -/
theorem agentInv_raiseFault {p : Params} {a : Agent} {r : Request} {code : Status} (h : AgentInv p a)
    (hc : check p r.cmd r.addr = code) (hne : code ≠ .ok) : AgentInv p (raiseFault code (latch r a)) :=
  ⟨rfl, h.responseLegal, .inr ⟨Status.code_ne_zero hne, rfl, rfl, congrArg Status.code hc.symm⟩⟩

/-- RESP delivers a response R35 allows, and ends in IDLE or with its fault in HALTED (R121). -/
theorem AgentInv.responds {p : Params} {a : Agent} (h : AgentInv p a) (hp : a.phase = .resp) :
    AgentInv p
      { a with
        rsp := some (responseOf a)
        busy := false
        phase := if a.fault = 0 then .idle else .halted } := by
  unfold responseOf
  by_cases hf : a.fault = 0
  · simp only [if_pos hf]
    refine ⟨rfl, fun x hx => ?_, hf⟩
    cases hx
    exact ⟨Nat.zero_le 4, fun hn => absurd rfl hn⟩
  · have hrec : FaultRecorded p a := (h.resp hp).resolve_left fun hc => hf hc.1
    simp only [if_neg hf]
    refine ⟨rfl, fun x hx => ?_, hrec⟩
    cases hx
    exact hrec.legal

/-- HALTED answers with its fault's code and stays as it is (R122). -/
theorem AgentInv.answers {p : Params} {a : Agent} (h : AgentInv p a) (hp : a.phase = .halted) :
    AgentInv p { a with req := none, rsp := some ⟨a.fault, 0⟩ } := by
  exact h.slots none fun x hx => by cases hx; exact (h.halted hp).legal

/-- The accept step of a legal request, passed or failed (R110). -/
theorem AgentInv.accepts {p : Params} {a : Agent} {r : Request} {k : CommandKind} (h : AgentInv p a)
    (hp : a.phase = .idle) (hk : decodeCmd r.cmd = .ok k) :
    AgentInv p (accepted k.op (checkKind p k r.addr) r a) := by
  have hcheck : check p r.cmd r.addr = checkKind p k r.addr := by simp only [check, hk]
  unfold accepted
  split
  case isFalse hn => exact agentInv_raiseFault h hcheck hn
  case isTrue hok =>
    refine agentInv_of_command ?_ rfl h.responseLegal (h.no_fault hp) ⟨k, hk, hok, ?_⟩
    · cases k.op <;> rfl
    · cases ho : k.op <;> simp [PhaseMeets, firstPhase, ho]

/-! ### The phases that compute -/

/-- COMPUTE of a NEXT leaves the command's transition of the snapshot (R116). -/
theorem computedNext_meets {k : CommandKind} (ho : k.op = .next) (a : Agent) :
    PhaseMeets k (computedNext k a) := by
  have hc : Computed k (computedNext k a) := by
    simp [Computed, applied, ho, computedNext, withCandidate, candidate, snapshot, transState, transOut]
  cases hat : k.atomic <;>
    simpa [PhaseMeets, computedNext, withCandidate, hat, ho] using hc

/-- COMPUTE of a JUMP starts the loop on the snapshot (R116). -/
theorem computedJump_meets {k : CommandKind} (ho : k.op = .jump) (a : Agent) :
    PhaseMeets k (computedJump a) := ⟨ho, by simp [computedJump], rfl⟩

theorem phaseMeets_jiter {k : CommandKind} {a : Agent} (hp : a.phase = .jiter) :
    PhaseMeets k a ↔
      k.op = .jump ∧ a.k.toNat ≤ 128 ∧ jumpRegs a = jumpAfter k.family (snapshot a) a.k.toNat := by
  simp only [PhaseMeets, hp]

/-- A JITER step makes one iteration, or after the 128th leaves the jump of the snapshot (R117). -/
theorem iterated_meets {k : CommandKind} {a : Agent} (hp : a.phase = .jiter) (h : PhaseMeets k a) :
    PhaseMeets k (iterated k a) := by
  obtain ⟨ho, hle, hregs⟩ := (phaseMeets_jiter hp).mp h
  unfold iterated
  split
  case isTrue hlt =>
    have hk1 : (a.k + 1).toNat = a.k.toNat + 1 := by bv_omega
    refine (phaseMeets_jiter ?_).mpr ⟨ho, hk1.trans_le hlt, ?_⟩
    · exact hp
    rw [hk1]
    exact congrArg (jumpIteration k.family a.k.toNat) hregs
  case isFalse hge =>
    have h128 : a.k.toNat = 128 := by omega
    have hc : Computed k (withCandidate k.atomic (jumpRegs a).acc 0 a) := by
      have hacc : (jumpRegs a).acc = jump k.family (snapshot a) := by rw [hregs, h128]; rfl
      simpa [Computed, applied, ho, withCandidate, candidate, snapshot] using hacc
    cases hat : k.atomic <;> simpa [PhaseMeets, withCandidate, hat, ho] using hc

/-- The phases from which COMPUTE and JITER go on are phases of the command. -/
theorem busyPhase_iterated {a : Agent} (hp : a.phase = .jiter) (k : CommandKind) :
    busyPhase (iterated k a).phase = true := by
  unfold iterated
  split
  · exact congrArg busyPhase hp
  · cases k.atomic <;> rfl

theorem sameCommand_iterated (k : CommandKind) (a : Agent) : SameCommand a (iterated k a) := by
  unfold iterated
  split <;> exact ⟨rfl, rfl, rfl, rfl, rfl⟩

/-! ### A step of the active agent -/

/-- A step of a command, or a wait, leaves the agent's invariant. -/
theorem ExecCase.keeps_agentInv {k : CommandKind} {r : Request} {s t : State} {a : Agent}
    (ha : s.agents[s.active]? = some a) (hA : AgentInv s.params a)
    (hidle : a.phase = .idle → ∀ q, a.req = some q → q = r ∧ decodeCmd q.cmd = .ok k)
    (hbusy : a.phase ≠ .idle → a.phase ≠ .halted → a.phase ≠ .resp → decodeCmd a.cmdr = .ok k)
    (h : ExecCase k r s a t) : Updates (AgentInv s.params) s t := by
  have go {ph : Phase} {b : Agent} (hp : a.phase = ph) (hph : busyPhase ph = true ∧ ph ≠ .resp)
      (hs : SameCommand a b) (hb : busyPhase b.phase = true) (hm : PhaseMeets k a → PhaseMeets k b) :
      AgentInv s.params b := by
    subst hp
    refine hA.continues hph.1 hph.2 (hbusy ?_ ?_ hph.2) hs hb hm <;> rintro hp <;> simp [hp, busyPhase] at hph
  have same (ph : Phase) : SameCommand a { a with phase := ph } := ⟨rfl, rfl, rfl, rfl, rfl⟩
  cases h
  case waits => exact updates_self ha hA
  case accepts q hp hq =>
    obtain ⟨rfl, hk⟩ := hidle hp q hq
    exact updates_setActive (hA.accepts hp hk)
  case seedW0 hp hk ok =>
    exact updates_setActive (go hp (by decide) (same _) rfl (by simp [PhaseMeets, hp]))
  case seedW1 hp hk ok =>
    exact updates_setActive (go hp (by decide) (same _) rfl (by simp [PhaseMeets, hp, hk]))
  case rd0 hp hk ok =>
    exact updates_setActive (go hp (by decide) ⟨rfl, rfl, rfl, rfl, rfl⟩ rfl (by simp [PhaseMeets, hp]))
  case rd1 hp hk ok =>
    exact updates_setActive (go hp (by decide) ⟨rfl, rfl, rfl, rfl, rfl⟩ rfl (by simp [PhaseMeets, hp]))
  case computesNext hp hk =>
    refine updates_setActive (go hp (by decide) ⟨rfl, rfl, rfl, rfl, rfl⟩ ?_ fun _ => computedNext_meets hk a)
    cases hat : k.atomic <;> simp [computedNext, withCandidate, hat, busyPhase]
  case computesJump hp hk =>
    exact updates_setActive (go hp (by decide) ⟨rfl, rfl, rfl, rfl, rfl⟩ rfl fun _ => computedJump_meets hk a)
  case iterates hp hk =>
    exact updates_setActive
      (go hp (by decide) (sameCommand_iterated k a) (busyPhase_iterated hp k) (iterated_meets hp))
  case swaps hp hk hat ok =>
    refine updates_casEvent (go hp (by decide) (same _) ?_ ?_) _ _ _ _
    · split <;> rfl
    · cases s.casSucceeds a.addrr (snapshot a) <;>
        simp +contextual [PhaseMeets, hp, hk, Computed, candidate, snapshot]
  case wr0 hp hk hat ok =>
    exact updates_setActive
      (go hp (by decide) (same _) rfl (by simp [PhaseMeets, hp, Computed, candidate, snapshot]))
  case wr1 hp hk hat ok =>
    exact updates_setActive
      (go hp (by decide) (same _) rfl (by simp +contextual [PhaseMeets, hp, hk, Computed, candidate, snapshot]))
  case responds hp hr => exact updates_setActive (hA.responds hp)
  case answers q hp hq hr => exact updates_setActive (hA.answers hp)

/-- A step of the active agent keeps that agent's invariant. -/
theorem ActiveCase.keeps_agentInv {s t : State} {a : Agent} (ha : s.agents[s.active]? = Option.some a)
    (hA : AgentInv s.params a) (h : ActiveCase s a t) : Updates (AgentInv s.params) s t := by
  cases h
  case runs k r hidle hbusy hc => exact hc.keeps_agentInv ha hA hidle hbusy
  case rejects r e hp hq he =>
    have hc : check s.params r.cmd r.addr = .illegalCommand := by simp only [check, he]
    exact updates_setActive (agentInv_raiseFault hA hc (by decide))

/-! ### The memory -/

/-- A step of a command keeps the canonical form of the memory (log 11). -/
theorem ExecCase.keeps_memory_wf {k : CommandKind} {r : Request} {s t : State} {a : Agent}
    (hm : Memory.wf s.mem) (h : ExecCase k r s a t) : Memory.wf t.mem := by
  cases h
  case seedW0 | seedW1 | wr0 | wr1 => exact writeEvent_wf hm (.agent s.active) _ .w64 _
  case swaps => exact casEvent_wf hm (.agent s.active) _ _ _
  all_goals exact hm

theorem ActiveCase.keeps_memory_wf {s t : State} {a : Agent} (hm : Memory.wf s.mem) (h : ActiveCase s a t) :
    Memory.wf t.mem := by
  cases h
  case runs hc => exact hc.keeps_memory_wf hm
  case rejects => exact hm

theorem EnvCase.keeps_memory_wf {s t : State} {m : Move} (hm : Memory.wf s.mem) (h : EnvCase s m t) :
    Memory.wf t.mem := by
  cases h
  case userWrites u x w v => exact writeEvent_wf hm (.user u) x w v
  case userSwaps u x e n => exact casEvent_wf hm (.user u) x e n
  all_goals exact hm

/-- Every move keeps the canonical form of the memory (log 11). -/
theorem perform_keeps_memory_wf {s t : State} {m : Move} (hm : Memory.wf s.mem) (h : perform m s = .next t) :
    Memory.wf t.mem := by
  obtain ⟨j, a, -, -, hc⟩ | hc := perform_cases h
  · exact hc.keeps_memory_wf (s := { s with active := j }) hm
  · exact hc.keeps_memory_wf hm

/-! ### Every agent, whatever the move -/

/-- A property of every agent holds of every agent after one of them was replaced by one that has it. -/
theorem forall_mem_set {P : Agent → Prop} {as : List Agent} (h : ∀ a ∈ as, P a) (j : Nat) {b : Agent} (hb : P b) :
    ∀ a ∈ as.set j b, P a := fun _ ha =>
  (List.mem_or_eq_of_mem_set ha).elim (h _) fun e => e ▸ hb

theorem EnvCase.keeps_agentInv {s t : State} {m : Move} (hA : ∀ a ∈ s.agents, AgentInv s.params a)
    (h : EnvCase s m t) : ∀ a ∈ t.agents, AgentInv s.params a := by
  cases h
  case presents j r a ha hq =>
    have ha' := hA a (List.mem_of_getElem? ha)
    exact forall_mem_set hA j (ha'.slots _ ha'.responseLegal)
  case takes j r a ha hr =>
    exact forall_mem_set hA j ((hA a (List.mem_of_getElem? ha)).slots _ fun _ hx => by cases hx)
  case userSwaps => rwa [State.casEvent_agents]
  case resets =>
    intro b hb
    obtain ⟨j, hj, rfl⟩ := List.mem_mapIdx.mp hb
    exact agentInv_reset _ _
  all_goals exact hA

/-- Every move that answers a next state keeps the invariant of the block. -/
theorem perform_keeps_inv {s t : State} {m : Move} (hi : Inv s) (h : perform m s = .next t) : Inv t := by
  obtain ⟨hparams, hlen⟩ := perform_keeps_params h
  obtain ⟨hwf, hn, hm, hA⟩ := hi
  refine ⟨hparams ▸ hwf, hlen.trans (hparams ▸ hn), perform_keeps_memory_wf hm h, hparams ▸ ?_⟩
  obtain ⟨j, a, -, ha, hc⟩ | hc := perform_cases h
  · obtain ⟨b, hb, hB⟩ :=
      hc.keeps_agentInv (s := { s with active := j }) ha (hA a (List.mem_of_getElem? ha))
    rw [hb]
    exact forall_mem_set hA j hB
  · exact hc.keeps_agentInv hA

end Sys2Proof.Machine

namespace Sys2Proof.Proofs

open Sys2Proof Sys2Proof.Machine

/-- Settles O29: no register that the launch fixes is against the invariant, and the launch memory is
canonical. -/
theorem launchMeetsTheInvariant : Obligations.LaunchMeetsTheInvariant := by
  have launch (p : Params) (hp : Params.wf p) : Inv (State.launch p) :=
    ⟨hp, List.length_replicate, hp.2, fun a ha => List.eq_of_mem_replicate ha ▸ agentInv_reset p _⟩
  exact ⟨launch _ (by decide), launch⟩

/-- Settles O30: the step is a move of the list, the default order's agent's, or nothing, and every move keeps
the invariant, which does not speak of the list. -/
theorem everyStepKeepsTheInvariant : Obligations.EveryStepKeepsTheInvariant := by
  intro s t hi h
  obtain ⟨m, ms, -, h⟩ | ⟨j, -, h⟩ | ⟨-, rfl⟩ := step_cases h
  · exact perform_keeps_inv (s := { s with moves := ms }) hi h
  · exact perform_keeps_inv (m := .agent j) hi h
  · exact hi

end Sys2Proof.Proofs
end

section
/-! PROOFS. Who changes what: the frame of a step, the slots, the first fault, and the callers' moves. -/

namespace Sys2Proof.Machine

open Sys2Proof

/-! ### The slots -/

/-- What an agent's own step does with its slots (R33, R110, R121, R122): REQ is emptied, RSP is filled, each in
the phases that the spec names for it. -/
structure SlotUse (a b : Agent) : Prop where
  req : b.req ≠ a.req → (a.phase = .idle ∨ a.phase = .halted) ∧ a.req ≠ none ∧ b.req = none
  rsp : b.rsp ≠ a.rsp → (a.phase = .resp ∨ a.phase = .halted) ∧ a.rsp = none ∧ b.rsp ≠ none

theorem SlotUse.of_same {a b : Agent} (hq : b.req = a.req) (hr : b.rsp = a.rsp) : SlotUse a b :=
  ⟨fun h => absurd hq h, fun h => absurd hr h⟩

/-- Both ways out of the accept step empty REQ (R110). -/
theorem SlotUse.accepted {a : Agent} {q : Request} (hp : a.phase = .idle) (hq : a.req = some q)
    (op : Operation) (code : Status) (r : Request) : SlotUse a (accepted op code r a) := by
  unfold Machine.accepted
  split <;> exact ⟨fun _ => ⟨.inl hp, by simp [hq], rfl⟩, fun h => absurd rfl h⟩

theorem SlotUse.iterated (k : CommandKind) (a : Agent) : SlotUse a (iterated k a) := by
  unfold Machine.iterated
  split <;> exact .of_same rfl rfl

theorem ExecCase.slotUse {k : CommandKind} {r : Request} {s t : State} {a : Agent}
    (ha : s.agents[s.active]? = some a) (h : ExecCase k r s a t) : Updates (SlotUse a) s t := by
  cases h
  case waits => exact updates_self ha (.of_same rfl rfl)
  case accepts q hp hq => exact updates_setActive (.accepted hp hq _ _ _)
  case iterates hp hk => exact updates_setActive (.iterated k a)
  case swaps hp hk hat ok => exact updates_casEvent (.of_same rfl rfl) _ _ _ _
  case responds hp hr =>
    exact updates_setActive ⟨fun h => absurd rfl h, fun _ => ⟨.inl hp, hr, Option.some_ne_none _⟩⟩
  case answers q hp hq hr =>
    exact updates_setActive
      ⟨fun _ => ⟨.inr hp, by simp [hq], rfl⟩, fun _ => ⟨.inr hp, hr, Option.some_ne_none _⟩⟩
  all_goals exact updates_setActive (.of_same rfl rfl)

theorem ActiveCase.slotUse {s t : State} {a : Agent} (ha : s.agents[s.active]? = Option.some a)
    (h : ActiveCase s a t) : Updates (SlotUse a) s t := by
  cases h
  case runs hc => exact hc.slotUse ha
  case rejects r e hp hq he => exact updates_setActive (.accepted hp hq .seed .illegalCommand r)

/-- After agent `i` is written to `d`, agent `j` is that one, or as it was. -/
theorem setAgent_get {s : State} {i j : Nat} {a b c d : Agent} (hi : s.agents[i]? = some c)
    (ha : s.agents[j]? = some a) (hb : (s.agents.set i d)[j]? = some b) : (i = j ∧ a = c ∧ b = d) ∨ b = a := by
  by_cases hij : i = j
  · subst hij
    cases hi.symm.trans ha
    rw [List.getElem?_set_self (List.getElem?_eq_some_iff.mp hi).1] at hb
    exact .inl ⟨rfl, rfl, (Option.some.inj hb).symm⟩
  · rw [List.getElem?_set_ne hij, ha] at hb
    exact .inr (Option.some.inj hb).symm

/-- Slots that stay meet any condition on their changes. -/
theorem slots_stay {a b : Agent} {P Q : Prop} (h : b = a) : (b.req ≠ a.req → P) ∧ (b.rsp ≠ a.rsp → Q) :=
  ⟨fun hn => absurd (congrArg Agent.req h) hn, fun hn => absurd (congrArg Agent.rsp h) hn⟩

/-! ### The first fault -/

/-- The active agent's step writes its request and fault registers in IDLE only (R25, R31, R32). -/
theorem ActiveCase.keeps_request {s t : State} {a : Agent} (ha : s.agents[s.active]? = Option.some a)
    (hp : a.phase ≠ .idle) (h : ActiveCase s a t) : Updates (SameRequest a) s t := by
  cases h
  case rejects hp' _ _ => exact absurd hp' hp
  case runs hc =>
    obtain ⟨b, hb, hf⟩ := hc.frame ha
    exact ⟨b, hb, hf.request hp⟩

/-- No move but a reset writes the fault registers of an agent that has a fault (R31, R32, R144). -/
theorem perform_keeps_fault {s t : State} {m : Move} {j : Nat} {a : Agent} (hi : Inv s)
    (h : perform m s = .next t) (hr : m ≠ .reset) (ha : s.agents[j]? = some a) (hf : a.fault ≠ 0) :
    ∃ b, t.agents[j]? = some b ∧ b.fault = a.fault ∧ b.faultCmd = a.faultCmd ∧ b.faultAddr = a.faultAddr := by
  by_cases hm : m = .agent j
  · subst hm
    have hp : a.phase ≠ .idle := fun hp => hf ((hi.agent ha).no_fault hp)
    obtain ⟨c, hc, hcase⟩ := agentStep_cases h
    cases ha.symm.trans hc
    obtain ⟨b, hb, -, hfault⟩ := hcase.keeps_request (s := { s with active := j }) ha hp
    exact ⟨b, hb ▸ List.getElem?_set_self (List.getElem?_eq_some_iff.mp ha).1, hfault⟩
  · obtain ⟨q, p, hb, -⟩ := others_keep_registers h hr hm ha
    exact ⟨_, hb, rfl, rfl, rfl⟩

/-! ### The step of the decoded command -/

/-- Inside a command, RESP included, the active agent's step is the one of its latched request (R28). -/
theorem activeStep_busy {s : State} {a : Agent} (ha : s.agents[s.active]? = some a)
    (hp : busyPhase a.phase = true) : activeStep s = busyStep s a := by
  rw [activeStep_eq ha]
  cases hph : a.phase
  case idle | halted => simp [hph, busyPhase] at hp
  all_goals rfl

/-- The active agent's step is `exec` of the command of the request it accepts or has latched (R110). -/
theorem activeStep_eq_exec {s : State} {a : Agent} {i : Instr} (ha : s.agents[s.active]? = some a)
    (h : (a.phase = .idle ∧ ∃ r, a.req = some r ∧ decode r = .ok i) ∨
      (busyPhase a.phase = true ∧ decode (latched a) = .ok i)) : activeStep s = exec i s := by
  obtain ⟨hp, r, hq, hd⟩ | ⟨hp, hd⟩ := h
  · simp only [activeStep_eq ha, hp, idleStep, hq, hd]
  · simp only [activeStep_busy ha hp, busyStep, hd]

/-- `CAP` (R30), zero extended as a sample reads it. -/
theorem capValue_setWidth (p : Params) :
    (capValue p).setWidth 64 = if p.hasCas128 then (0b111 : Word) else 0b110 := by
  unfold capValue
  cases p.hasCas128 <;> decide

end Sys2Proof.Machine

namespace Sys2Proof.Proofs

open Sys2Proof Sys2Proof.Machine

/-- Settles O24: a step of a command replaces one agent's registers and no other field but the memory's two. -/
theorem execChangesOnlyTheActiveAgent : Obligations.ExecChangesOnlyTheActiveAgent := by
  intro i s t h
  obtain ⟨a, ha, hc⟩ := exec_cases h
  have hu := hc.frame ha
  exact ⟨hc.sameElse, hu.length, fun _ => hu.others⟩

/-- Settles O25, from the frame of each step. -/
theorem registersChangeOnlyInTheirSteps : Obligations.RegistersChangeOnlyInTheirSteps := by
  intro i s t a b h ha hb
  have hf : RegisterFrame a b := ((exec_cases_at ha h).frame ha).active ha hb
  refine ⟨fun hp => ?_, hf.exp0, hf.exp1, fun hc hj => ?_, hf.outr, hf.req, hf.rsp, hf.busy⟩
  · obtain ⟨hl, hfault⟩ := hf.request hp
    exact ⟨congrArg Request.cmd hl, congrArg Request.addr hl, congrArg Request.opa hl,
      congrArg Request.opb hl, hfault⟩
  · obtain ⟨hcand, hregs, hk⟩ := hf.computation hc hj
    exact ⟨congrArg GenState.s0 hcand, congrArg GenState.s1 hcand, congrArg (·.acc.s0) hregs,
      congrArg (·.acc.s1) hregs, congrArg (·.w.s0) hregs, congrArg (·.w.s1) hregs, hk⟩

/-- Settles O28: the agent's own step uses its slots as `SlotUse` says, a present and a take change the one slot
they name, and no other move but a reset changes a slot. -/
theorem slotsLoseNothing : Obligations.SlotsLoseNothing := by
  intro s t m j a b h hr ha hb
  obtain ⟨i, c, rfl, hc, hcase⟩ | hcase := perform_cases h
  · have hu := hcase.slotUse (s := { s with active := i }) hc
    by_cases hij : j = i
    · subst hij
      cases ha.symm.trans hc
      have hs : SlotUse a b := hu.active (s := { s with active := j }) ha hb
      exact ⟨fun hn => .inr ⟨rfl, hs.req hn⟩, fun hn => .inr ⟨rfl, hs.rsp hn⟩⟩
    · exact slots_stay (Option.some.inj (hb.symm.trans ((hu.others hij).trans ha)))
  · cases hcase
    case presents i r c hc hq =>
      obtain ⟨rfl, rfl, rfl⟩ | rfl := setAgent_get hc ha hb
      · exact ⟨fun _ => .inl ⟨r, rfl, hq, rfl⟩, fun hn => absurd rfl hn⟩
      · exact slots_stay rfl
    case takes i r c hc hrsp =>
      obtain ⟨rfl, rfl, rfl⟩ | rfl := setAgent_get hc ha hb
      · exact ⟨fun hn => absurd rfl hn, fun _ => .inl ⟨rfl, rfl, r, hrsp, rfl⟩⟩
      · exact slots_stay rfl
    case resets => exact absurd rfl hr
    case userSwaps =>
      rw [State.casEvent_agents] at hb
      exact slots_stay (Option.some.inj (hb.symm.trans ha))
    all_goals exact slots_stay (Option.some.inj (hb.symm.trans ha))

/-- Settles O34: an agent with a fault is in RESP or HALTED by the invariant, where its step leaves the fault
registers, and no other move but a reset writes them. -/
theorem firstFaultIsKept : Obligations.FirstFaultIsKept := by
  intro s t j a hi h ha hf hr
  obtain ⟨m, ms, hms, h⟩ | ⟨i, -, h⟩ | ⟨-, rfl⟩ := step_cases h
  · exact perform_keeps_fault (s := { s with moves := ms }) hi h (fun e => hr ms (e ▸ hms)) ha hf
  · exact perform_keeps_fault (m := .agent i) hi h (by simp) ha hf
  · exact ⟨a, ha, rfl, rfl, rfl⟩

/-- Settles O6: the due move, or the default order, makes agent `j` active, and the active agent's step is that
of the request it accepts or has latched. -/
theorem stepRunsTheDecodedCommand : Obligations.StepRunsTheDecodedCommand := by
  intro s j a i ha h
  refine ⟨fun ms hms => ?_, fun hms hj => ?_⟩
  · calc step s = perform (.agent j) { s with moves := ms } := by simp only [step, runStep, hms]
      _ = activeStep { s with moves := ms, active := j } := perform_agent ha
      _ = exec i { s with moves := ms, active := j } := activeStep_eq_exec ha h
  · calc step s = perform (.agent j) s := by simp only [step, runStep, hms, defaultStep, hj, perform]
      _ = activeStep { s with active := j } := perform_agent ha
      _ = exec i { s with active := j } := activeStep_eq_exec ha h

/-- Settles O54: each caller's move by the slot it needs, and each sample by the register it names. -/
theorem callersPresentTakeAndSample : Obligations.CallersPresentTakeAndSample := by
  intro s j a ha
  refine ⟨fun r => ⟨fun hq => ?_, fun q hq => ?_⟩, fun r hr => ?_, fun hr => ?_, fun reg => ?_⟩
  · simp [perform, presentMove, ha, hq]
  · simp [perform, presentMove, ha, hq]
  · simp only [perform, takeMove, ha, hr]
  · simp only [perform, takeMove, ha, hr]
  · refine ⟨sampleValue s.params a reg, by simp only [perform, sampleMove, ha], ?_, ?_, ?_, ?_, ?_⟩ <;>
      rintro rfl
    case refine_1 => rfl
    case refine_2 => exact capValue_setWidth s.params
    case refine_3 => exact BitVec.toNat_setWidth_of_le (by decide)
    case refine_4 => exact BitVec.toNat_setWidth_of_le (by decide)
    case refine_5 => rfl

end Sys2Proof.Proofs
end

section
/-! PROOFS. Registers that no rule reads before writing them: each function of a step takes two states that
differ there at most to outcomes that differ there at most (R39). -/

namespace Sys2Proof.Machine

open Sys2Proof

/-! ### Two agents -/

/-- What `SameLive` asks of the registers that a phase has live, by the phase. -/
def SameLiveRegs (ph : Phase) (a b : Agent) : Prop :=
  match ph with
  | .idle | .halted | .rd0 => True
  | .seedW0 | .seedW1 | .resp => a.outr = b.outr
  | .rd1 => a.exp0 = b.exp0
  | .compute => snapshot a = snapshot b
  | .jiter => snapshot a = snapshot b ∧ jumpRegs a = jumpRegs b ∧ a.k = b.k
  | .cas => snapshot a = snapshot b ∧ candidate a = candidate b ∧ a.outr = b.outr
  | .wr0 => candidate a = candidate b ∧ a.outr = b.outr
  | .wr1 => a.cand1 = b.cand1 ∧ a.outr = b.outr

theorem SameLive.live {a b : Agent} (h : SameLive a b) {ph : Phase} (hp : a.phase = ph) :
    SameLiveRegs ph a b := by
  obtain ⟨-, -, -, -, -, -, -, -, hlive⟩ := h
  subst hp
  exact hlive

theorem SameLive.phase_eq {a b : Agent} (h : SameLive a b) : a.phase = b.phase := h.1

theorem SameLive.req_eq {a b : Agent} (h : SameLive a b) : a.req = b.req := by
  obtain ⟨-, -, hq, -⟩ := h
  exact hq

theorem SameLive.rsp_eq {a b : Agent} (h : SameLive a b) : a.rsp = b.rsp := by
  obtain ⟨-, -, -, hr, -⟩ := h
  exact hr

theorem SameLive.fault_eq {a b : Agent} (h : SameLive a b) : a.fault = b.fault := by
  obtain ⟨-, -, -, -, hf, -⟩ := h
  exact hf

/-- Inside a command the latched request is live (R25). -/
theorem SameLive.latched_eq {a b : Agent} (h : SameLive a b) {ph : Phase} (hp : a.phase = ph)
    (hb : busyPhase ph = true) : latched a = latched b := by
  obtain ⟨-, -, -, -, -, -, -, hl, -⟩ := h
  subst hp
  refine hl ?_ ?_ <;> intro e <;> simp [e, busyPhase] at hb

theorem SameLive.addrr_eq {a b : Agent} (h : SameLive a b) {ph : Phase} (hp : a.phase = ph)
    (hb : busyPhase ph = true) : a.addrr = b.addrr := congrArg Request.addr (h.latched_eq hp hb)

theorem sameLive_refl (a : Agent) : SameLive a a := by
  refine ⟨rfl, rfl, rfl, rfl, rfl, rfl, rfl, fun _ _ => rfl, ?_⟩
  split <;> simp

/-- The registers that a step inside a command leaves before RESP: the request, the fault registers, BUSY and
the slots. -/
def SameOuter (a a' : Agent) : Prop :=
  SameRequest a a' ∧ a'.busy = a.busy ∧ a'.req = a.req ∧ a'.rsp = a.rsp

/-- A step inside a command keeps two agents alike when what the new phase has live is alike. -/
theorem SameLive.advance {a b a' b' : Agent} (h : SameLive a b) {ph : Phase} (hp : a.phase = ph)
    (hbusy : busyPhase ph = true) (hph : a'.phase = b'.phase) (hlive : SameLiveRegs a'.phase a' b')
    (ha : SameOuter a a' := by exact ⟨⟨rfl, rfl, rfl, rfl⟩, rfl, rfl, rfl⟩)
    (hb : SameOuter b b' := by exact ⟨⟨rfl, rfl, rfl, rfl⟩, rfl, rfl, rfl⟩) : SameLive a' b' := by
  have hl := h.latched_eq hp hbusy
  obtain ⟨-, hbu, hq, hr, hf, hfc, hfa, -, -⟩ := h
  obtain ⟨⟨hla, hfa1, hfa2, hfa3⟩, ha1, ha2, ha3⟩ := ha
  obtain ⟨⟨hlb, hfb1, hfb2, hfb3⟩, hb1, hb2, hb3⟩ := hb
  refine ⟨hph, ?_, ?_, ?_, ?_, ?_, ?_, fun _ _ => ?_, hlive⟩
  · rw [ha1, hb1, hbu]
  · rw [ha2, hb2, hq]
  · rw [ha3, hb3, hr]
  · rw [hfa1, hfb1, hf]
  · rw [hfa2, hfb2, hfc]
  · rw [hfa3, hfb3, hfa]
  · rw [hla, hlb, hl]

/-- The slots are compared by themselves. -/
theorem SameLive.slots {a b : Agent} (h : SameLive a b) {q q' : Option Request} {r r' : Option Response}
    (hq : q = q') (hr : r = r') : SameLive { a with req := q, rsp := r } { b with req := q', rsp := r' } := by
  obtain ⟨hp, hb, -, -, hf, hfc, hfa, hl, hlive⟩ := h
  exact ⟨hp, hb, hq, hr, hf, hfc, hfa, hl, hlive⟩

/-- The accept step writes every register that is live after it, whether the check passes or not (R110). -/
theorem SameLive.accepted {a b : Agent} (h : SameLive a b) (op : Operation) (code : Status) (r : Request) :
    SameLive (accepted op code r a) (accepted op code r b) := by
  obtain ⟨-, -, -, hr, hf, hfc, hfa, -, -⟩ := h
  unfold Machine.accepted
  split
  · refine ⟨rfl, rfl, rfl, hr, hf, hfc, hfa, fun _ _ => rfl, ?_⟩
    cases op <;> simp [firstPhase]
  · exact ⟨rfl, rfl, rfl, hr, rfl, rfl, rfl, fun _ _ => rfl, rfl⟩

theorem SameLive.enabled_eq {a b : Agent} (h : SameLive a b) : enabled a = enabled b := by
  simp only [enabled, h.phase_eq, h.req_eq, h.rsp_eq]

theorem SameLive.sampleValue_eq {a b : Agent} (h : SameLive a b) (p : Params) (reg : SampleReg) :
    sampleValue p a reg = sampleValue p b reg := by
  obtain ⟨-, hb, -, -, hf, hfc, hfa, -, -⟩ := h
  cases reg <;> simp only [sampleValue, hb, hf, hfc, hfa]

/-- A NEXT computes from the snapshot alone (R116). -/
theorem SameLive.computedNext {a b : Agent} (h : SameLive a b) (hp : a.phase = .compute) (k : CommandKind) :
    SameLive (computedNext k a) (computedNext k b) := by
  have hs : snapshot a = snapshot b := h.live hp
  refine h.advance hp rfl rfl ?_
  unfold Machine.computedNext
  rw [hs]
  cases k.atomic
  · exact ⟨rfl, rfl⟩
  · exact ⟨hs, rfl, rfl⟩

/-- The jump loop starts on the snapshot alone (R116). -/
theorem SameLive.computedJump {a b : Agent} (h : SameLive a b) (hp : a.phase = .compute) :
    SameLive (computedJump a) (computedJump b) := by
  have hs : snapshot a = snapshot b := h.live hp
  exact h.advance hp rfl rfl ⟨hs, congrArg jumpStart hs, rfl⟩

/-- A JITER step uses the loop's registers and K alone (R117). -/
theorem SameLive.iterated {a b : Agent} (h : SameLive a b) (hp : a.phase = .jiter) (k : CommandKind) :
    SameLive (iterated k a) (iterated k b) := by
  obtain ⟨hs, hregs, hk⟩ : snapshot a = snapshot b ∧ jumpRegs a = jumpRegs b ∧ a.k = b.k := h.live hp
  unfold Machine.iterated
  rw [← hk, ← hregs]
  split
  · refine h.advance hp rfl h.phase_eq ?_
    simp only [withJumpRegs, hp]
    exact ⟨hs, rfl, rfl⟩
  · refine h.advance hp rfl rfl ?_
    cases k.atomic
    · exact ⟨rfl, rfl⟩
    · exact ⟨hs, rfl, rfl⟩

/-- RESP delivers the fault's code or OUTR, which are alike, and no register is live after it (R121). -/
theorem SameLive.responded {a b : Agent} (h : SameLive a b) (hp : a.phase = .resp) :
    SameLive
      { a with rsp := some (responseOf a), busy := false, phase := if a.fault = 0 then .idle else .halted }
      { b with rsp := some (responseOf b), busy := false, phase := if b.fault = 0 then .idle else .halted } := by
  have ho : a.outr = b.outr := h.live hp
  have hresp : responseOf a = responseOf b := by simp only [responseOf, h.fault_eq, ho]
  obtain ⟨-, -, hq, -, hf, hfc, hfa, -, -⟩ := h
  rw [hresp]
  by_cases hz : a.fault = 0
  · rw [if_pos hz, if_pos (hf ▸ hz)]
    exact ⟨rfl, rfl, hq, rfl, hf, hfc, hfa, fun hn => absurd rfl hn, trivial⟩
  · rw [if_neg hz, if_neg (hf ▸ hz)]
    exact ⟨rfl, rfl, hq, rfl, hf, hfc, hfa, fun _ hn => absurd rfl hn, trivial⟩

/-! ### Two states -/

theorem forall₂_set {α β : Type} {R : α → β → Prop} {l : List α} {l' : List β} {a : α} {b : β}
    (h : List.Forall₂ R l l') (hab : R a b) (j : Nat) : List.Forall₂ R (l.set j a) (l'.set j b) := by
  induction h generalizing j with
  | nil => exact .nil
  | cons hxy ht ih =>
    cases j with
    | zero => exact .cons hab ht
    | succ j => exact .cons hxy (ih j)

/-- Two lists alike have, at each place, none or two members alike. -/
theorem forall₂_getElem? {α β : Type} {R : α → β → Prop} {l : List α} {l' : List β} (h : List.Forall₂ R l l')
    (j : Nat) : (l[j]? = none ∧ l'[j]? = none) ∨ ∃ a b, l[j]? = some a ∧ l'[j]? = some b ∧ R a b := by
  induction h generalizing j with
  | nil => exact .inl ⟨rfl, rfl⟩
  | @cons x y _ _ hxy _ ih =>
    cases j with
    | zero => exact .inr ⟨x, y, rfl, rfl, hxy⟩
    | succ j => exact ih j

/-- The first enabled agent is the same (R123). -/
theorem firstEnabled_eq {as bs : List Agent} (h : List.Forall₂ SameLive as bs) :
    firstEnabled as = firstEnabled bs := by
  unfold firstEnabled
  induction h with
  | nil => rfl
  | cons hab _ ih => rw [List.findIdx?_cons, List.findIdx?_cons, hab.enabled_eq, ih]

/-- Two states alike differ in their agents only. -/
theorem SameLiveState.eq_agents {s u : State} (h : SameLiveState s u) :
    ∃ bs, u = { s with agents := bs } ∧ List.Forall₂ SameLive s.agents bs := by
  obtain ⟨hp, hm, ha, hmv, ho, hs, hr, hag⟩ := h
  refine ⟨u.agents, ?_, hag⟩
  rw [hp, hm, ha, hmv, ho, hs, hr]

/-- Agents alike, in one state. -/
theorem sameLiveState_agents (s : State) {as bs : List Agent} (h : List.Forall₂ SameLive as bs) :
    SameLiveState { s with agents := as } { s with agents := bs } :=
  ⟨rfl, rfl, rfl, rfl, rfl, rfl, rfl, h⟩

theorem SameLiveState.setAgent {s u : State} {a b : Agent} (h : SameLiveState s u) (hab : SameLive a b)
    (j : Nat) : SameLiveState (s.setAgent j a) (u.setAgent j b) := by
  obtain ⟨bs, rfl, hag⟩ := h.eq_agents
  exact sameLiveState_agents s (forall₂_set hag hab j)

theorem SameLiveState.setActive {s u : State} {a b : Agent} (h : SameLiveState s u) (hab : SameLive a b) :
    SameLiveState (s.setActive a) (u.setActive b) := by
  obtain ⟨bs, rfl, -⟩ := h.eq_agents
  exact h.setAgent hab s.active

theorem SameLiveState.readEvent {s u : State} (h : SameLiveState s u) (who : Actor) (x : Word) (w : Width) :
    SameLiveState (s.readEvent who x w) (u.readEvent who x w) := by
  obtain ⟨bs, rfl, hag⟩ := h.eq_agents
  exact sameLiveState_agents (s.readEvent who x w) hag

theorem SameLiveState.writeEvent {s u : State} (h : SameLiveState s u) (who : Actor) (x : Word) (w : Width)
    (v : Word) : SameLiveState (s.writeEvent who x w v) (u.writeEvent who x w v) := by
  obtain ⟨bs, rfl, hag⟩ := h.eq_agents
  exact sameLiveState_agents (s.writeEvent who x w v) hag

theorem SameLiveState.casSucceeds_eq {s u : State} (h : SameLiveState s u) (x : Word) (e : GenState) :
    s.casSucceeds x e = u.casSucceeds x e := by
  obtain ⟨bs, rfl, -⟩ := h.eq_agents
  rfl

theorem SameLiveState.casEvent {s u : State} (h : SameLiveState s u) (who : Actor) (x : Word)
    (e n : GenState) : SameLiveState (s.casEvent who x e n) (u.casEvent who x e n) := by
  unfold State.casEvent
  rw [h.casSucceeds_eq x e]
  obtain ⟨bs, rfl, hag⟩ := h.eq_agents
  split
  · exact sameLiveState_agents
      (((s.put x .w64 n.s0).put (secondWord x) .w64 n.s1).record (.cas who x e n true)) hag
  · exact sameLiveState_agents (s.record (.cas who x e n false)) hag

theorem SameLiveState.saw {s u : State} (h : SameLiveState s u) (o : Observation) :
    SameLiveState { s with seen := o :: s.seen } { u with seen := o :: u.seen } := by
  obtain ⟨bs, rfl, hag⟩ := h.eq_agents
  exact sameLiveState_agents { s with seen := o :: s.seen } hag

/-! ### Two outcomes -/

/-- Both stop for the same reason, or both go on to states that are alike. -/
inductive SameLiveOutcome : Host.Outcome State Fault Refusal → Host.Outcome State Fault Refusal → Prop
  | next {s u : State} (h : SameLiveState s u) : SameLiveOutcome (.next s) (.next u)
  | fault (r : Fault) : SameLiveOutcome (.fault r) (.fault r)
  | refused (r : Refusal) : SameLiveOutcome (.refused r) (.refused r)

section
variable {s u : State} {a b : Agent} (h : SameLiveState s u) (hab : SameLive a b)
include h

theorem withActive_sameLive {f g : Agent → Host.Outcome State Fault Refusal}
    (hfg : ∀ a b, SameLive a b → SameLiveOutcome (f a) (g b)) :
    SameLiveOutcome (withActive s f) (withActive u g) := by
  obtain ⟨bs, rfl, hag⟩ := h.eq_agents
  unfold withActive
  obtain ⟨ha, hb⟩ | ⟨a, b, ha, hb, hab⟩ := forall₂_getElem? hag s.active
  · simp only [ha, hb]
    exact .fault _
  · simp only [ha, hb]
    exact hfg a b hab

theorem readStep_sameLive {x y : Word} (hx : x = y) {f g : Word → Agent} (hfg : ∀ v, SameLive (f v) (g v)) :
    SameLiveOutcome (readStep x f s) (readStep y g u) := by
  subst hx
  obtain ⟨bs, rfl, -⟩ := h.eq_agents
  unfold readStep
  split
  · exact .next ((h.readEvent _ _ _).setActive (hfg _))
  · exact .fault _

theorem writeStep_sameLive {x y v w : Word} (hx : x = y) (hv : v = w) (hab : SameLive a b) :
    SameLiveOutcome (writeStep x v a s) (writeStep y w b u) := by
  subst hx hv
  obtain ⟨bs, rfl, -⟩ := h.eq_agents
  unfold writeStep
  split
  · exact .next ((h.writeEvent _ _ _ _).setActive hab)
  · exact .fault _

include hab

theorem acceptStep_sameLive (k : CommandKind) (r : Request) :
    SameLiveOutcome (acceptStep k r s a) (acceptStep k r u b) := by
  obtain ⟨bs, rfl, -⟩ := h.eq_agents
  unfold acceptStep
  rw [← hab.req_eq]
  split
  · exact .next h
  · exact .next (h.setActive (hab.accepted _ _ r))

theorem respStep_sameLive (hp : a.phase = .resp) : SameLiveOutcome (respStep s a) (respStep u b) := by
  unfold respStep
  rw [← hab.rsp_eq]
  split
  · exact .next h
  · exact .next (h.setActive (hab.responded hp))

theorem haltedStep_sameLive : SameLiveOutcome (haltedStep s a) (haltedStep u b) := by
  unfold haltedStep
  rw [← hab.req_eq, ← hab.rsp_eq]
  split
  · exact .next (h.setActive (hab.slots rfl (by rw [hab.fault_eq])))
  · exact .next h

theorem computeStep_sameLive (k : CommandKind) (hp : a.phase = .compute) :
    SameLiveOutcome (computeStep k s a) (computeStep k u b) := by
  unfold computeStep
  split
  · exact .next (h.setActive (hab.computedNext hp k))
  · exact .next (h.setActive (hab.computedJump hp))
  · exact .fault _

/-- The compare and the commit use the snapshot and the candidate, and a failed CAS128 leaves nothing live but
the request (R118). -/
theorem casStep_sameLive (hp : a.phase = .cas) : SameLiveOutcome (casStep s a) (casStep u b) := by
  have haddr : a.addrr = b.addrr := hab.addrr_eq hp rfl
  obtain ⟨hs, hc, ho⟩ : snapshot a = snapshot b ∧ candidate a = candidate b ∧ a.outr = b.outr := hab.live hp
  have hsucc : s.casSucceeds a.addrr (snapshot a) = u.casSucceeds b.addrr (snapshot b) := by
    rw [← haddr, ← hs, h.casSucceeds_eq]
  have hnext : SameLive
      { a with phase := if s.casSucceeds a.addrr (snapshot a) then .resp else .rd0 }
      { b with phase := if u.casSucceeds b.addrr (snapshot b) then .resp else .rd0 } := by
    refine hab.advance hp rfl (by simp only [hsucc]) ?_
    cases s.casSucceeds a.addrr (snapshot a)
    · trivial
    · exact ho
  have hevent := h.casEvent (.agent s.active) a.addrr (snapshot a) (candidate a)
  obtain ⟨bs, rfl, -⟩ := h.eq_agents
  unfold casStep
  rw [← haddr]
  split
  · refine .next (SameLiveState.setActive ?_ (haddr ▸ hnext))
    rw [← hs, ← hc]
    exact hevent
  · exact .fault _

end

section
variable {s u : State} (h : SameLiveState s u)
include h

/-- SEED's machine, phase by phase (R130). -/
theorem seedMachine_sameLive (k : CommandKind) (r : Request) :
    SameLiveOutcome (seedMachine k r s) (seedMachine k r u) := by
  refine withActive_sameLive h fun a b hab => ?_
  rw [← hab.phase_eq]
  split
  case h_1 => exact acceptStep_sameLive h hab k r
  case h_2 hp =>
    exact writeStep_sameLive h (hab.addrr_eq hp rfl) (congrArg Request.opa (hab.latched_eq hp rfl))
      (hab.advance hp rfl rfl (hab.live hp))
  case h_3 hp =>
    exact writeStep_sameLive h (congrArg secondWord (hab.addrr_eq hp rfl))
      (congrArg Request.opb (hab.latched_eq hp rfl)) (hab.advance hp rfl rfl (hab.live hp))
  case h_4 hp => exact respStep_sameLive h hab hp
  case h_5 => exact haltedStep_sameLive h hab
  all_goals exact .fault _

/-- The update machine of NEXT and JUMP, phase by phase (R131 to R138). -/
theorem updateMachine_sameLive (k : CommandKind) (r : Request) :
    SameLiveOutcome (updateMachine k r s) (updateMachine k r u) := by
  refine withActive_sameLive h fun a b hab => ?_
  rw [← hab.phase_eq]
  split
  case h_1 => exact acceptStep_sameLive h hab k r
  case h_2 hp =>
    exact readStep_sameLive h (hab.addrr_eq hp rfl) fun v => hab.advance hp rfl rfl rfl
  case h_3 hp =>
    have h0 : a.exp0 = b.exp0 := hab.live hp
    exact readStep_sameLive h (congrArg secondWord (hab.addrr_eq hp rfl)) fun v =>
      hab.advance hp rfl rfl (congrArg (GenState.mk · v) h0)
  case h_4 hp => exact computeStep_sameLive h hab k hp
  case h_5 hp =>
    split
    · exact .next (h.setActive (hab.iterated hp k))
    · exact .fault _
  case h_6 hp =>
    split
    · exact casStep_sameLive h hab hp
    · exact .fault _
  case h_7 hp =>
    obtain ⟨hc, ho⟩ : candidate a = candidate b ∧ a.outr = b.outr := hab.live hp
    split
    · exact .fault _
    · exact writeStep_sameLive h (hab.addrr_eq hp rfl) (congrArg GenState.s0 hc)
        (hab.advance hp rfl rfl ⟨congrArg GenState.s1 hc, ho⟩)
  case h_8 hp =>
    obtain ⟨hc, ho⟩ : a.cand1 = b.cand1 ∧ a.outr = b.outr := hab.live hp
    split
    · exact .fault _
    · exact writeStep_sameLive h (congrArg secondWord (hab.addrr_eq hp rfl)) hc (hab.advance hp rfl rfl ho)
  case h_9 hp => exact respStep_sameLive h hab hp
  case h_10 => exact haltedStep_sameLive h hab
  all_goals exact .fault _

theorem exec_sameLive (i : Instr) : SameLiveOutcome (exec i s) (exec i u) := by
  rw [exec_eq, exec_eq]
  split
  · exact seedMachine_sameLive h i.kind (encode i)
  · exact updateMachine_sameLive h i.kind (encode i)

theorem idleStep_sameLive {a b : Agent} (hab : SameLive a b) :
    SameLiveOutcome (idleStep s a) (idleStep u b) := by
  unfold idleStep
  rw [← hab.req_eq]
  split
  · exact .next h
  case h_2 r _ =>
    split
    case h_1 i _ => exact exec_sameLive h i
    case h_2 => exact .next (h.setActive (hab.accepted .seed .illegalCommand r))

theorem busyStep_sameLive {a b : Agent} (hab : SameLive a b) (hp : busyPhase a.phase = true) :
    SameLiveOutcome (busyStep s a) (busyStep u b) := by
  unfold busyStep
  rw [← hab.latched_eq rfl hp, ← hab.phase_eq]
  split
  case h_1 i _ => exact exec_sameLive h i
  case h_2 =>
    split
    case isTrue hr => exact respStep_sameLive h hab hr
    case isFalse => exact .fault _

theorem activeStep_sameLive : SameLiveOutcome (activeStep s) (activeStep u) := by
  refine withActive_sameLive h fun a b hab => ?_
  rw [← hab.phase_eq]
  split
  case h_1 => exact idleStep_sameLive h hab
  case h_2 => exact haltedStep_sameLive h hab
  all_goals exact busyStep_sameLive h hab (by simp [busyPhase, *])

/-- What is done with agent `j`: both states have no such agent, or two that are alike. -/
theorem SameLiveState.at_agent (j : Nat) :
    (s.agents[j]? = none ∧ u.agents[j]? = none) ∨
      ∃ a b, s.agents[j]? = some a ∧ u.agents[j]? = some b ∧ SameLive a b := by
  obtain ⟨bs, rfl, hag⟩ := h.eq_agents
  exact forall₂_getElem? hag j

theorem agentStep_sameLive (j : Nat) : SameLiveOutcome (agentStep j s) (agentStep j u) := by
  unfold agentStep
  obtain ⟨ha, hb⟩ | ⟨a, b, ha, hb, -⟩ := h.at_agent j
  · simp only [ha, hb]
    exact .refused _
  · simp only [ha, hb]
    obtain ⟨bs, rfl, hag⟩ := h.eq_agents
    exact activeStep_sameLive (sameLiveState_agents { s with active := j } hag)

theorem presentMove_sameLive (j : Nat) (r : Request) :
    SameLiveOutcome (presentMove j r s) (presentMove j r u) := by
  unfold presentMove
  obtain ⟨ha, hb⟩ | ⟨a, b, ha, hb, hab⟩ := h.at_agent j
  · simp only [ha, hb]
    exact .refused _
  · simp only [ha, hb, ← hab.req_eq]
    split
    · exact .refused _
    · exact .next (h.setAgent (hab.slots rfl hab.rsp_eq) j)

theorem takeMove_sameLive (j : Nat) : SameLiveOutcome (takeMove j s) (takeMove j u) := by
  unfold takeMove
  obtain ⟨ha, hb⟩ | ⟨a, b, ha, hb, hab⟩ := h.at_agent j
  · simp only [ha, hb]
    exact .refused _
  · simp only [ha, hb, ← hab.rsp_eq]
    split
    · exact .refused _
    case h_2 r _ => exact .next ((h.setAgent (hab.slots hab.req_eq rfl) j).saw (.took j r))

theorem sampleMove_sameLive (j : Nat) (reg : SampleReg) :
    SameLiveOutcome (sampleMove j reg s) (sampleMove j reg u) := by
  unfold sampleMove
  obtain ⟨ha, hb⟩ | ⟨a, b, ha, hb, hab⟩ := h.at_agent j
  · simp only [ha, hb]
    exact .refused _
  · obtain ⟨bs, rfl, -⟩ := h.eq_agents
    simp only [ha, hb, hab.sampleValue_eq s.params reg]
    exact .next (h.saw _)

/-- The free values of a reset depend on its number and the agent's, which are alike (log 4). -/
theorem resetMove_sameLive : SameLiveOutcome (resetMove s) (resetMove u) := by
  obtain ⟨bs, rfl, hag⟩ := h.eq_agents
  refine .next (sameLiveState_agents { s with resets := s.resets + 1 } ?_)
  have hsame : s.agents.mapIdx (fun j _ => Agent.reset (Config.freeValue s.resets j)) =
      bs.mapIdx (fun j _ => Agent.reset (Config.freeValue s.resets j)) :=
    List.ext_getElem (by simp [hag.length_eq]) (by simp)
  rw [hsame]
  exact List.forall₂_same.mpr fun a _ => sameLive_refl a

/-- Every move takes two states alike to outcomes alike. -/
theorem perform_sameLive (m : Move) : SameLiveOutcome (perform m s) (perform m u) := by
  cases m with
  | agent j => exact agentStep_sameLive h j
  | present j r => exact presentMove_sameLive h j r
  | take j => exact takeMove_sameLive h j
  | sample j reg => exact sampleMove_sameLive h j reg
  | reset => exact resetMove_sameLive h
  | userRead v x w =>
    obtain ⟨bs, rfl, -⟩ := h.eq_agents
    simp only [perform, userReadMove]
    split
    · exact .next (h.readEvent _ _ _)
    · exact .refused _
  | userWrite v x w y =>
    obtain ⟨bs, rfl, -⟩ := h.eq_agents
    simp only [perform, userWriteMove]
    split
    · exact .next (h.writeEvent _ _ _ _)
    · exact .refused _
  | userCas v x e n =>
    obtain ⟨bs, rfl, -⟩ := h.eq_agents
    simp only [perform, userCasMove]
    split
    · exact .next (h.casEvent _ _ _ _)
    · exact .refused _

theorem defaultStep_sameLive : SameLiveOutcome (defaultStep s) (defaultStep u) := by
  obtain ⟨bs, rfl, hag⟩ := h.eq_agents
  unfold defaultStep
  simp only [firstEnabled_eq hag]
  split
  case h_1 j _ => exact agentStep_sameLive h j
  case h_2 => exact .next h

theorem step_sameLive : SameLiveOutcome (step s) (step u) := by
  have hmoves : s.moves = u.moves := by
    obtain ⟨bs, rfl, -⟩ := h.eq_agents
    rfl
  unfold step runStep
  rw [← hmoves]
  split
  case h_1 => exact defaultStep_sameLive h
  case h_2 m ms _ =>
    obtain ⟨bs, rfl, hag⟩ := h.eq_agents
    exact perform_sameLive (sameLiveState_agents { s with moves := ms } hag) m

end

end Sys2Proof.Machine

namespace Sys2Proof.Proofs

open Sys2Proof Sys2Proof.Machine

/-- Settles O43: the step is a function of what `SameLiveState` compares, up to registers that it leaves out; the
invariant is not needed for it. -/
theorem unspecifiedRegistersAreNotRead : Obligations.UnspecifiedRegistersAreNotRead := by
  intro s u t _ _ hsu h
  have hout := step_sameLive hsu
  rw [h] at hout
  generalize step u = o at hout
  cases hout with
  | next htv => exact ⟨_, rfl, htv⟩

end Sys2Proof.Proofs
end

section
/-! PROOFS. The memory events: the one event a move makes, the bytes it stores to, and the memory it leaves. Every
statement about the memory order is assembled from `perform_leaves`. -/

namespace Sys2Proof.Machine

open Sys2Proof

/-! ### The event of a move -/

/-- The memory event of the step of the active agent with the registers `a`; the other phases make none (R111 to
R120). -/
def agentEvent (s : State) (a : Agent) : Option MemEvent :=
  match a.phase with
  | .seedW0 => some (.write (.agent s.active) a.addrr .w64 a.opa)
  | .seedW1 => some (.write (.agent s.active) (secondWord a.addrr) .w64 a.opb)
  | .rd0 => some (.read (.agent s.active) a.addrr .w64 (s.word a.addrr))
  | .rd1 => some (.read (.agent s.active) (secondWord a.addrr) .w64 (s.word (secondWord a.addrr)))
  | .cas => some (.cas (.agent s.active) a.addrr (snapshot a) (candidate a) (s.casSucceeds a.addrr (snapshot a)))
  | .wr0 => some (.write (.agent s.active) a.addrr .w64 a.cand0)
  | .wr1 => some (.write (.agent s.active) (secondWord a.addrr) .w64 a.cand1)
  | .idle | .compute | .jiter | .resp | .halted => none

/-- The memory event of a move that is made (R44 to R47, R111, R170). -/
def moveEvent (m : Move) (s : State) : Option MemEvent :=
  match m with
  | .agent j => s.agents[j]?.bind (agentEvent { s with active := j })
  | .userRead u a w => some (.read (.user u) a w (loadValue s.params.byteOrder s.mem a.toNat w))
  | .userWrite u a w v => some (.write (.user u) a w v)
  | .userCas u a e n => some (.cas (.user u) a e n (s.casSucceeds a e))
  | .present _ _ | .take _ | .sample _ _ | .reset => none

theorem moveEvent_agent {s : State} {j : Nat} {a : Agent} (ha : s.agents[j]? = some a) :
    moveEvent (.agent j) s = agentEvent { s with active := j } a := by
  simp only [moveEvent, ha, Option.bind_some]

/-- A step that is not enabled makes no event (R123). -/
theorem agentEvent_of_disabled {s : State} {a : Agent} (h : enabled a = false) : agentEvent s a = none := by
  unfold enabled at h
  split at h
  case h_1 hp | h_2 hp | h_3 hp => simp only [agentEvent, hp]
  all_goals cases h

/-- A CAS128 is of a 16-aligned cell (R46). -/
def MemEvent.placed : MemEvent → Prop
  | .read _ _ _ _ | .write _ _ _ _ => True
  | .cas _ a _ _ _ => a.toNat % 16 = 0

theorem casAccessOk_aligned {p : Params} {a : Word} (h : casAccessOk p a = true) : a.toNat % 16 = 0 := by
  simp only [casAccessOk, alignedTo, Bool.and_eq_true, decide_eq_true_eq] at h
  exact h.1.1.2

/-- From `s` to `t` the memory order gains the event `o`, or none; the memory is what the event makes of it, and the
event shows what the memory held. -/
structure Leaves (o : Option MemEvent) (s t : State) : Prop where
  params : t.params = s.params
  order : t.order = o.toList ++ s.order
  mem : t.mem = o.elim s.mem (replayEvent s.params.byteOrder s.mem)
  sees : ∀ e ∈ o, eventSees s.params.byteOrder s.mem e
  placed : ∀ e ∈ o, e.placed

theorem leaves_none {s t : State} (hp : t.params = s.params := by rfl) (ho : t.order = s.order := by rfl)
    (hm : t.mem = s.mem := by rfl) : Leaves none s t :=
  ⟨hp, ho, hm, nofun, nofun⟩

theorem leaves_some {s t : State} {e : MemEvent} (hp : t.params = s.params) (ho : t.order = e :: s.order)
    (hm : t.mem = replayEvent s.params.byteOrder s.mem e) (hs : eventSees s.params.byteOrder s.mem e)
    (hpl : e.placed) : Leaves (some e) s t :=
  ⟨hp, ho, hm, by rintro _ ⟨⟩; exact hs, by rintro _ ⟨⟩; exact hpl⟩

theorem leaves_readEvent (s : State) (who : Actor) (a : Word) (w : Width) :
    Leaves (some (.read who a w (loadValue s.params.byteOrder s.mem a.toNat w))) s (s.readEvent who a w) :=
  leaves_some rfl rfl rfl rfl trivial

/-- A read of a word shows the word (R44). -/
theorem leaves_readWord (s : State) (who : Actor) (a : Word) :
    Leaves (some (.read who a .w64 (s.word a))) s (s.readEvent who a .w64) := leaves_readEvent s who a .w64

theorem leaves_writeEvent (s : State) (who : Actor) (a : Word) (w : Width) (v : Word) :
    Leaves (some (.write who a w v)) s (s.writeEvent who a w v) :=
  leaves_some rfl rfl rfl trivial trivial

theorem leaves_casEvent (s : State) (who : Actor) {a : Word} (e n : GenState)
    (ok : casAccessOk s.params a = true) :
    Leaves (some (.cas who a e n (s.casSucceeds a e))) s (s.casEvent who a e n) :=
  leaves_some (State.casEvent_params ..) (State.casEvent_order ..) (State.casEvent_mem ..) rfl
    (casAccessOk_aligned ok)

/-- Registers are no part of the memory or its order. -/
theorem Leaves.setActive {o : Option MemEvent} {s t : State} (h : Leaves o s t) (b : Agent) :
    Leaves o s (t.setActive b) := ⟨h.params, h.order, h.mem, h.sees, h.placed⟩

/-- Which agent is active before a step is no part of them either. -/
theorem Leaves.of_active {o : Option MemEvent} {s t : State} {j : Nat} (h : Leaves o { s with active := j } t) :
    Leaves o s t := ⟨h.params, h.order, h.mem, h.sees, h.placed⟩

/-- A step of a command makes the event of its phase (R111). -/
theorem ExecCase.leaves {k : CommandKind} {r : Request} {s t : State} {a : Agent} (h : ExecCase k r s a t) :
    Leaves (agentEvent s a) s t := by
  cases h
  case waits h =>
    rw [agentEvent_of_disabled h]
    exact leaves_none
  case swaps hp _ _ ok =>
    simpa only [agentEvent, hp] using (leaves_casEvent s (.agent s.active) _ _ ok).setActive _
  case rd0 hp _ _ | rd1 hp _ _ =>
    simpa only [agentEvent, hp] using (leaves_readWord s (.agent s.active) _).setActive _
  case seedW0 hp _ _ | seedW1 hp _ _ =>
    simpa only [agentEvent, hp] using (leaves_writeEvent s (.agent s.active) _ .w64 _).setActive _
  case wr0 hp _ _ _ | wr1 hp _ _ _ =>
    simpa only [agentEvent, hp] using (leaves_writeEvent s (.agent s.active) _ .w64 _).setActive _
  case accepts hp _ | computesNext hp _ | computesJump hp _ | iterates hp _ | responds hp _ =>
    simpa only [agentEvent, hp] using leaves_none
  case answers hp _ _ => simpa only [agentEvent, hp] using leaves_none

theorem ActiveCase.leaves {s t : State} {a : Agent} (h : ActiveCase s a t) : Leaves (agentEvent s a) s t := by
  cases h
  case runs hc => exact hc.leaves
  case rejects hp _ _ => simpa only [agentEvent, hp] using leaves_none

theorem userCas_accessOk {s t : State} {u : Nat} {a : Word} {e n : GenState}
    (h : perform (.userCas u a e n) s = .next t) : casAccessOk s.params a = true := by
  simp only [perform, userCasMove] at h
  split at h
  case isTrue ok => exact ok
  case isFalse => cases h

/-- Every move that answers a next state makes its event and no other (R50, R111). -/
theorem perform_leaves {m : Move} {s t : State} (h : perform m s = .next t) : Leaves (moveEvent m s) s t := by
  obtain ⟨j, a, rfl, ha, hc⟩ | hc := perform_cases h
  · exact moveEvent_agent ha ▸ hc.leaves.of_active
  · cases hc
    case userReads u x w => exact leaves_readEvent s _ _ _
    case userWrites u x w v => exact leaves_writeEvent s _ _ _ _
    case userSwaps u x e n => exact leaves_casEvent s _ _ _ (userCas_accessOk h)
    all_goals exact leaves_none

/-! ### What an event stores to -/

/-- The event stores to the byte at `b` (R45 to R47); a failed CAS128 stores to none. -/
def MemEvent.stores (b : Nat) : MemEvent → Prop
  | .read _ _ _ _ => False
  | .write _ a w _ => a.toNat ≤ b ∧ b < a.toNat + w.bytes
  | .cas _ a _ _ ok => ok = true ∧ a.toNat ≤ b ∧ b < a.toNat + 16

/-- An event changes only the bytes it stores to (R45, R46). -/
theorem byteAt_replayEvent {e : MemEvent} {b : Nat} (hp : e.placed) (hb : ¬ e.stores b) (o : ByteOrder)
    (m : Memory) : byteAt (replayEvent o m e) b = byteAt m b := by
  cases e with
  | read => rfl
  | write who a w v =>
    simp only [MemEvent.stores] at hb
    exact byteAt_storeValue_outside _ _ _ _ _ (by omega)
  | cas who a e n ok =>
    cases ok
    case false => rfl
    case true =>
      have hs : (secondWord a).toNat = a.toNat + 8 := secondWord_toNat (le_of_aligned16 hp)
      simp only [MemEvent.stores, true_and] at hb
      simp only [replayEvent, if_true]
      rw [byteAt_storeValue_outside, byteAt_storeValue_outside] <;> simp only [Width.bytes] <;> omega

theorem Leaves.byteAt_same {o : Option MemEvent} {s t : State} {b : Nat} (h : Leaves o s t)
    (hb : ∀ e ∈ o, ¬ e.stores b) : byteAt t.mem b = byteAt s.mem b := by
  rw [h.mem]
  cases o with
  | none => rfl
  | some e => exact byteAt_replayEvent (h.placed e rfl) (hb e rfl) _ _

/-- An agent's event stores only in the range of its phase. -/
theorem storedRange_of_stores {s : State} {a : Agent} {e : MemEvent} {b : Nat} (he : e ∈ agentEvent s a)
    (hb : e.stores b) : ∃ first n, storedRange s a = some (first, n) ∧ first ≤ b ∧ b < first + n := by
  unfold agentEvent at he
  split at he <;> cases he
  case h_3 | h_4 => exact hb.elim
  case h_5 hp =>
    obtain ⟨hok, h1, h2⟩ := hb
    exact ⟨_, _, by simp only [storedRange, hp, hok, if_true], h1, h2⟩
  all_goals exact ⟨_, Width.w64.bytes, by simp only [storedRange, *]; rfl, hb⟩

/-! ### The order explains the memory -/

/-- A memory explained by its order stays so when the order gains an event (R50). -/
theorem Leaves.keeps_orderExplains {o : Option MemEvent} {s t : State} (h : Leaves o s t)
    (hs : OrderExplains s) : OrderExplains t := by
  obtain ⟨hmem, hsees⟩ := hs
  unfold OrderExplains
  rw [h.params, h.order, h.mem]
  cases o with
  | none => exact ⟨hmem, hsees⟩
  | some e =>
    have he := h.sees e rfl
    rw [hmem] at he ⊢
    exact ⟨rfl, hsees, he⟩

/-! ### The bytes of a write -/

theorem byteAt_storeBytes_inside {m : Memory} (h : Memory.wf m) (a : Nat) (bs : List Byte) {i : Nat}
    (hi : i < bs.length) : byteAt (storeBytes m a bs) (a + i) = bs[i] := by
  induction bs generalizing m a i with
  | nil => cases hi
  | cons b bs ih =>
    rw [storeBytes]
    cases i with
    | zero => rw [byteAt_storeBytes_outside _ _ _ (.inl (by omega))]; exact byteAt_setByte_same h a b
    | succ i =>
      rw [show a + (i + 1) = a + 1 + i by omega]
      exact ih (setByte_wf h a b) (a + 1) (Nat.lt_of_succ_lt_succ hi)

theorem unpackBytes_getElem (n v i : Nat) (hi : i < (unpackBytes n v).length) :
    (unpackBytes n v)[i] = BitVec.ofNat 8 (v / 256 ^ i) := by
  induction n generalizing v i with
  | zero => cases hi
  | succ n ih =>
    cases i with
    | zero => simp [unpackBytes]
    | succ i =>
      simp only [unpackBytes, List.getElem_cons_succ, ih]
      rw [Nat.div_div_eq_div_mul, Nat.pow_succ']

/-- Byte `i` of a write is byte `i` of the value, counted from the end that `BYTE_ORDER` puts first (R42, R47). -/
theorem byteAt_storeValue_inside (o : ByteOrder) {m : Memory} (h : Memory.wf m) (a : Nat) (w : Width) (v : Word)
    {i : Nat} (hi : i < w.bytes) : byteAt (storeValue o m a w v) (a + i) =
      BitVec.ofNat 8 (v.toNat / 256 ^ (if o = .little then i else w.bytes - 1 - i)) := by
  rw [storeValue, byteAt_storeBytes_inside h a _ (by simpa using hi)]
  cases o with
  | little => exact unpackBytes_getElem ..
  | big => simp [inOrder, List.getElem_reverse, unpackBytes_getElem]

end Sys2Proof.Machine

namespace Sys2Proof.Proofs

open Sys2Proof Sys2Proof.Machine

/-- Settles O35: nothing happened before the launch, and every step makes at most one event, which shows what the
memory held and leaves what it makes of it. -/
theorem memoryOrderExplainsTheMemory : Obligations.MemoryOrderExplainsTheMemory := by
  refine ⟨fun p => ⟨rfl, trivial⟩, fun s t hs h => ?_⟩
  obtain ⟨m, ms, -, h⟩ | ⟨j, -, h⟩ | ⟨-, rfl⟩ := step_cases h
  · exact (perform_leaves h).keeps_orderExplains (s := { s with moves := ms }) hs
  · exact (perform_leaves (m := .agent j) h).keeps_orderExplains hs
  · exact hs

/-- Settles O26: the step makes the event of its phase, which stores in the range of the phase only. -/
theorem execStoresOnlyInItsRange : Obligations.ExecStoresOnlyInItsRange := by
  intro i s t a h ha
  have hl := (exec_cases_at ha h).leaves
  refine ⟨fun first n hr b hb => hl.byteAt_same fun e he hst => ?_, fun hr b => hl.byteAt_same fun e he hst => ?_⟩
  · obtain ⟨_, _, hr', h1, h2⟩ := storedRange_of_stores he hst
    cases hr.symm.trans hr'
    omega
  · obtain ⟨_, _, hr', -⟩ := storedRange_of_stores he hst
    cases hr.symm.trans hr'

/-- Settles O14: the invariant admits the cell of an atomic command in CAS, and its step is the CAS128 step. -/
theorem casCommitsOrRetries : Obligations.CasCommitsOrRetries := by
  intro i s a hk hat hi h
  obtain ⟨k, -, hadm, hph⟩ := command_of hi h rfl (by decide)
  have hkat : k.atomic = true := by
    simp only [PhaseMeets, h.2] at hph
    exact hph.2.1
  have hexec : exec i s = casStep s a := by simp only [exec_update h.1 hk, h.2, hat, if_true]
  rw [hexec]
  exact casStep_ok (hadm.casOk hkat) hi.memory

/-- Settles O56: the access is admitted, and the compare decides which of the two outcomes of a CAS128 it has. -/
theorem memoryUserCasIsOneEvent : Obligations.MemoryUserCasIsOneEvent := by
  intro s u a e n hm hcas h16 h0 h8
  have ok : casAccessOk s.params a = true := by
    simp only [casAccessOk, alignedTo, secondWord, hcas, h16, h0, h8, decide_true, Bool.and_self]
  refine ⟨s.casEvent (.user u) a e n, by simp only [perform, userCasMove, ok, if_true], by simp,
    by simp [SameElse], ?_⟩
  split
  case isTrue h => exact casEvent_swaps (.user u) h16 hm n h
  case isFalse h =>
    obtain ⟨hmem, ho⟩ := casEvent_fails (.user u) n h
    exact ⟨fun b => by rw [hmem], ho⟩

/-- Settles O55: the write places its bytes one by one, and the read takes them back together. -/
theorem memoryUserBytesFollowTheByteOrder : Obligations.MemoryUserBytesFollowTheByteOrder := by
  intro s u a w v hm ok
  refine ⟨s.writeEvent (.user u) a w v, by simp only [perform, userWriteMove, ok, if_true],
    fun i hi => byteAt_storeValue_inside _ hm _ _ _ hi, fun b hb => byteAt_storeValue_outside _ _ _ _ _ hb, rfl,
    (s.writeEvent (.user u) a w v).readEvent (.user u) a w, ?_, rfl, ?_⟩
  · simp only [perform, userReadMove, State.writeEvent_params, ok, if_true]
  · simp only [State.readEvent_order, State.writeEvent_order, State.writeEvent_params, State.writeEvent_mem,
      loadValue_storeValue_same _ hm]

/-- Settles O57: the two kinds of event that store keep the canonical form, and so does every move. -/
theorem memoryEventsKeepTheCanonicalForm : Obligations.MemoryEventsKeepTheCanonicalForm :=
  fun _ hm => ⟨writeEvent_wf hm, casEvent_wf hm, fun _ _ => perform_keeps_memory_wf hm⟩

end Sys2Proof.Proofs
end

section
/-! PROOFS. The byte order: an agent accesses aligned words only, so two memories with the same words serve every
case of its step alike. -/

namespace Sys2Proof.Machine

open Sys2Proof

/-! ### Each case of `exec` is its answer -/

/-- A waiting agent's step changes nothing, whatever the command (R123, R154). -/
theorem exec_of_disabled {i : Instr} {s : State} {a : Agent} (ha : s.agents[s.active]? = some a)
    (h : enabled a = false) : exec i s = .next s := by
  unfold enabled at h
  split at h
  case h_1 hp =>
    have hq : a.req = none := Option.not_isSome_iff_eq_none.mp (by simp [h])
    by_cases hk : i.kind.op = .seed
    · simp only [exec_seed ha hk, hp, acceptStep, hq]
    · simp only [exec_update ha hk, hp, acceptStep, hq]
  case h_2 hp =>
    rw [exec_resp ⟨ha, hp⟩]
    unfold respStep
    split
    case h_1 => rfl
    case h_2 hr => simp [hr] at h
  case h_3 hp =>
    rw [exec_halted ⟨ha, hp⟩]
    unfold haltedStep
    split
    case h_1 hq hr => simp [hq, hr] at h
    case h_2 => rfl
  all_goals cases h

/-- The cases of `exec` are exclusive: a state that one of them gives is the state `exec` answers. -/
theorem exec_of_case {i : Instr} {s t : State} {a : Agent} (ha : s.agents[s.active]? = some a)
    (h : ExecCase i.kind (encode i) s a t) : exec i s = .next t := by
  cases h
  case waits h => exact exec_of_disabled ha h
  case accepts q hp hq => rw [exec_idle ⟨ha, hp⟩ hq, encode_addr]
  case seedW0 hp hk ok => simp only [exec_seed ha hk, hp, seedW0Step, writeStep, ok, if_true]
  case seedW1 hp hk ok => simp only [exec_seed ha hk, hp, seedW1Step, writeStep, ok, if_true]
  case rd0 hp hk ok => simp only [exec_update ha hk, hp, rd0Step, readStep, ok, if_true]
  case rd1 hp hk ok => simp only [exec_update ha hk, hp, rd1Step, readStep, ok, if_true]
  case computesNext hp hk => simp only [exec_update ha (by simp [hk] : i.kind.op ≠ .seed), hp, computeStep, hk]
  case computesJump hp hk => simp only [exec_update ha (by simp [hk] : i.kind.op ≠ .seed), hp, computeStep, hk]
  case iterates hp hk => simp only [exec_update ha (by simp [hk] : i.kind.op ≠ .seed), hp, jiterStep, hk, if_true]
  case swaps hp hk hat ok => simp only [exec_update ha hk, hp, hat, casStep, ok, if_true]
  case wr0 hp hk hat ok => simp [exec_update ha hk, hp, hat, wr0Step, writeStep, ok]
  case wr1 hp hk hat ok => simp [exec_update ha hk, hp, hat, wr1Step, writeStep, ok]
  case responds hp hr => simp only [exec_resp ⟨ha, hp⟩, respStep, hr]
  case answers q hp hq hr => simp only [exec_halted ⟨ha, hp⟩, haltedStep, hq, hr]

/-! ### The same words, event by event -/

theorem wordAccessOk_aligned {p : Params} {a : Word} (h : wordAccessOk p a = true) : a.toNat % 8 = 0 := by
  simp only [wordAccessOk, alignedTo, Bool.and_eq_true, decide_eq_true_eq] at h
  exact h.1

/-- Both words of a 16-aligned cell are aligned (R43). -/
theorem aligned8_of_aligned16 {a : Word} (h : a.toNat % 16 = 0) :
    a.toNat % 8 = 0 ∧ (secondWord a).toNat % 8 = 0 := by
  have hs := secondWord_toNat (le_of_aligned16 h)
  omega

section
variable {s u : State} (h : SameWords s u)
include h

theorem SameWords.active_eq : u.active = s.active := by
  obtain ⟨-, -, -, -, hac, -⟩ := h
  exact hac

theorem SameWords.hasCas128_eq : u.params.hasCas128 = s.params.hasCas128 := by
  obtain ⟨-, hc, -⟩ := h
  exact hc

theorem SameWords.agents_eq : u.agents = s.agents := by
  obtain ⟨-, -, -, hag, -⟩ := h
  exact hag

theorem SameWords.word_eq {a : Word} (ha : a.toNat % 8 = 0) : u.word a = s.word a := by
  obtain ⟨-, -, -, -, -, -, -, -, -, -, -, hw⟩ := h
  exact hw a ha

theorem SameWords.admits_eq (a : Word) : admits u.params a = admits s.params a := by
  obtain ⟨-, -, hr, -⟩ := h
  unfold admits
  rw [hr]

theorem SameWords.wordAccessOk_eq (a : Word) : wordAccessOk u.params a = wordAccessOk s.params a := by
  unfold wordAccessOk
  rw [h.admits_eq]

theorem SameWords.casAccessOk_eq (a : Word) : casAccessOk u.params a = casAccessOk s.params a := by
  unfold casAccessOk
  rw [h.admits_eq, h.admits_eq, h.hasCas128_eq]

theorem SameWords.checkKind_eq (k : CommandKind) (a : Word) :
    checkKind u.params k a = checkKind s.params k a := by
  unfold checkKind cellAdmitted
  rw [h.admits_eq, h.admits_eq, h.hasCas128_eq]

theorem SameWords.casSucceeds_eq {a : Word} (ha : a.toNat % 16 = 0) (e : GenState) :
    u.casSucceeds a e = s.casSucceeds a e := by
  obtain ⟨h1, h2⟩ := aligned8_of_aligned16 ha
  unfold State.casSucceeds State.cell
  rw [h.word_eq h1, h.word_eq h2]

theorem SameWords.setAgent (j : Nat) (b : Agent) : SameWords (s.setAgent j b) (u.setAgent j b) := by
  obtain ⟨hn, hc, hr, hag, hrest⟩ := h
  exact ⟨hn, hc, hr, congrArg (·.set j b) hag, hrest⟩

theorem SameWords.setActive (b : Agent) : SameWords (s.setActive b) (u.setActive b) := by
  unfold State.setActive
  rw [h.active_eq]
  exact h.setAgent s.active b

theorem SameWords.record (e : MemEvent) : SameWords (s.record e) (u.record e) := by
  obtain ⟨hn, hc, hr, hag, hac, hmv, ho, hrest⟩ := h
  exact ⟨hn, hc, hr, hag, hac, hmv, congrArg (e :: ·) ho, hrest⟩

/-- An aligned word written in both memories is the same in both, and no other aligned word changes (R45). -/
theorem SameWords.put {a : Word} (ha : a.toNat % 8 = 0) (v : Word) :
    SameWords (s.put a .w64 v) (u.put a .w64 v) := by
  obtain ⟨hn, hc, hr, hag, hac, hmv, ho, hs, hre, hws, hwu, hword⟩ := h
  refine ⟨hn, hc, hr, hag, hac, hmv, ho, hs, hre, put_wf hws _ _ _, put_wf hwu _ _ _, fun c hca => ?_⟩
  by_cases hne : c = a
  · rw [hne, word_put_same hws, word_put_same hwu]
  · rw [word_put_other ha hca hne, word_put_other ha hca hne, hword c hca]

theorem SameWords.readEvent (who : Actor) {a : Word} (ha : a.toNat % 8 = 0) :
    SameWords (s.readEvent who a .w64) (u.readEvent who a .w64) := by
  have hu : u.readEvent who a .w64 = u.record (.read who a .w64 (s.word a)) := by
    rw [← h.word_eq ha]
    rfl
  rw [hu]
  exact h.record _

theorem SameWords.writeEvent (who : Actor) {a : Word} (ha : a.toNat % 8 = 0) (v : Word) :
    SameWords (s.writeEvent who a .w64 v) (u.writeEvent who a .w64 v) :=
  (h.put ha v).record _

theorem SameWords.casEvent (who : Actor) {a : Word} (ha : a.toNat % 16 = 0) (e n : GenState) :
    SameWords (s.casEvent who a e n) (u.casEvent who a e n) := by
  obtain ⟨h1, h2⟩ := aligned8_of_aligned16 ha
  unfold State.casEvent
  rw [h.casSucceeds_eq ha]
  split
  · exact ((h.put h1 n.s0).put h2 n.s1).record _
  · exact h.record _

/-! ### The same words, step by step -/

/-- Each case of a command's step is there in the other state too. -/
theorem ExecCase.sameWords {k : CommandKind} {r : Request} {t : State} {a : Agent} (hc : ExecCase k r s a t) :
    ∃ v, ExecCase k r u a v ∧ SameWords t v := by
  have ok8 {x : Word} (ok : wordAccessOk s.params x = true) : wordAccessOk u.params x = true :=
    (h.wordAccessOk_eq x).trans ok
  have write {x : Word} (ok : wordAccessOk s.params x = true) (v : Word) (b : Agent) :
      SameWords ((s.writeEvent (.agent s.active) x .w64 v).setActive b)
        ((u.writeEvent (.agent u.active) x .w64 v).setActive b) := by
    rw [h.active_eq]
    exact (h.writeEvent _ (wordAccessOk_aligned ok) v).setActive b
  have read {x : Word} (ok : wordAccessOk s.params x = true) (f : Word → Agent) :
      SameWords ((s.readEvent (.agent s.active) x .w64).setActive (f (s.word x)))
        ((u.readEvent (.agent u.active) x .w64).setActive (f (u.word x))) := by
    rw [h.active_eq, h.word_eq (wordAccessOk_aligned ok)]
    exact (h.readEvent _ (wordAccessOk_aligned ok)).setActive _
  cases hc
  case waits hd => exact ⟨u, .waits hd, h⟩
  case accepts q hp hq => exact ⟨_, .accepts q hp hq, h.checkKind_eq k r.addr ▸ h.setActive _⟩
  case seedW0 hp hk ok => exact ⟨_, .seedW0 hp hk (ok8 ok), write ok _ _⟩
  case seedW1 hp hk ok => exact ⟨_, .seedW1 hp hk (ok8 ok), write ok _ _⟩
  case rd0 hp hk ok => exact ⟨_, .rd0 hp hk (ok8 ok), read ok fun v => { a with exp0 := v, phase := .rd1 }⟩
  case rd1 hp hk ok => exact ⟨_, .rd1 hp hk (ok8 ok), read ok fun v => { a with exp1 := v, phase := .compute }⟩
  case computesNext hp hk => exact ⟨_, .computesNext hp hk, h.setActive _⟩
  case computesJump hp hk => exact ⟨_, .computesJump hp hk, h.setActive _⟩
  case iterates hp hk => exact ⟨_, .iterates hp hk, h.setActive _⟩
  case swaps hp hk hat ok =>
    have h16 := casAccessOk_aligned ok
    refine ⟨_, .swaps hp hk hat ((h.casAccessOk_eq _).trans ok), ?_⟩
    rw [h.active_eq, h.casSucceeds_eq h16]
    exact (h.casEvent _ h16 _ _).setActive _
  case wr0 hp hk hat ok => exact ⟨_, .wr0 hp hk hat (ok8 ok), write ok _ _⟩
  case wr1 hp hk hat ok => exact ⟨_, .wr1 hp hk hat (ok8 ok), write ok _ _⟩
  case responds hp hr => exact ⟨_, .responds hp hr, h.setActive _⟩
  case answers q hp hq hr => exact ⟨_, .answers q hp hq hr, h.setActive _⟩

theorem SameWords.activeAgent {a : Agent} (ha : s.agents[s.active]? = some a) : u.agents[u.active]? = some a := by
  rw [h.agents_eq, h.active_eq, ha]

theorem exec_sameWords {i : Instr} {t : State} (he : exec i s = .next t) :
    ∃ v, exec i u = .next v ∧ SameWords t v := by
  obtain ⟨a, ha, hc⟩ := exec_cases he
  obtain ⟨v, hv, htv⟩ := hc.sameWords h
  exact ⟨v, exec_of_case (h.activeAgent ha) hv, htv⟩

theorem idleStep_sameWords {t : State} {a : Agent} (hs : idleStep s a = .next t) :
    ∃ v, idleStep u a = .next v ∧ SameWords t v := by
  unfold idleStep at hs ⊢
  split at hs
  case h_1 => cases hs; exact ⟨u, rfl, h⟩
  case h_2 r _ =>
    split at hs
    case h_1 => exact exec_sameWords h hs
    case h_2 => cases hs; exact ⟨_, rfl, h.setActive _⟩

/-- Inside a command the step is that of the latched request; RESP of an illegal one is RESP of any (R121). -/
theorem busyStep_sameWords {t : State} {a : Agent} (ha : s.agents[s.active]? = some a)
    (hs : busyStep s a = .next t) : ∃ v, busyStep u a = .next v ∧ SameWords t v := by
  unfold busyStep at hs ⊢
  split at hs
  case h_1 => exact exec_sameWords h hs
  case h_2 =>
    split at hs
    case isFalse => cases hs
    case isTrue hp =>
      rw [if_pos hp]
      rw [← exec_resp (i := .seed 0 0 0 0) ⟨ha, hp⟩] at hs
      rw [← exec_resp (i := .seed 0 0 0 0) ⟨h.activeAgent ha, hp⟩]
      exact exec_sameWords h hs

theorem activeStep_sameWords {t : State} (hs : activeStep s = .next t) :
    ∃ v, activeStep u = .next v ∧ SameWords t v := by
  obtain ⟨a, ha, -⟩ := activeStep_cases hs
  rw [activeStep_eq ha] at hs
  rw [activeStep_eq (h.activeAgent ha)]
  split at hs
  case h_1 => exact idleStep_sameWords h hs
  case h_2 hp =>
    rw [← exec_halted (i := .seed 0 0 0 0) ⟨ha, hp⟩] at hs
    rw [← exec_halted (i := .seed 0 0 0 0) ⟨h.activeAgent ha, hp⟩]
    exact exec_sameWords h hs
  all_goals exact busyStep_sameWords h ha hs

theorem SameWords.withActive (j : Nat) : SameWords { s with active := j } { u with active := j } := by
  obtain ⟨hn, hc, hr, hag, -, hrest⟩ := h
  exact ⟨hn, hc, hr, hag, rfl, hrest⟩

end

end Sys2Proof.Machine

namespace Sys2Proof.Proofs

open Sys2Proof Sys2Proof.Machine

/-- Settles O44: the other state has the same agent, and its step has the same case; the invariant is not needed
for it. -/
theorem byteOrderIsInvisibleToTheBlock : Obligations.ByteOrderIsInvisibleToTheBlock := by
  intro s u t j _ h ht
  obtain ⟨a, ha, -⟩ := agentStep_cases ht
  rw [perform_agent ha] at ht
  rw [perform_agent (h.agents_eq ▸ ha)]
  exact activeStep_sameWords (h.withActive j) ht

end Sys2Proof.Proofs
end

section
/-! PROOFS. A cell that only atomic commands write: who may store to it, and the history its commits tell. -/

namespace Sys2Proof.Machine

open Sys2Proof

/-! ### Events and a cell -/

theorem write_apart_iff {who : Actor} {a c : Word} {w : Width} {v : Word} :
    (MemEvent.write who a w v).writesCell c = false ↔ a.toNat + w.bytes ≤ c.toNat ∨ c.toNat + 16 ≤ a.toNat := by
  simp only [MemEvent.writesCell, Bool.and_eq_false_iff, decide_eq_false_iff_not]
  omega

theorem cas_apart_iff {who : Actor} {a c : Word} {e n : GenState} {ok : Bool} :
    (MemEvent.cas who a e n ok).writesCell c = false ↔ ok = false ∨ CellsApart a c := by
  cases ok with
  | false => simp [MemEvent.writesCell]
  | true =>
    simp only [MemEvent.writesCell, CellsApart, Bool.true_and, Bool.and_eq_false_iff, decide_eq_false_iff_not,
      Bool.true_eq_false, false_or]
    omega

/-- An event that writes no byte of the cell at `c` stores to none of its 16 bytes. -/
theorem not_stores_of_writesCell {e : MemEvent} {c : Word} {b : Nat} (h : e.writesCell c = false)
    (h1 : c.toNat ≤ b) (h2 : b < c.toNat + 16) : ¬ e.stores b := by
  cases e with
  | read => exact id
  | write who a w v =>
    rintro ⟨h3, h4⟩
    have := write_apart_iff.mp h
    omega
  | cas who a x n ok =>
    rintro ⟨rfl, h3, h4⟩
    have := (cas_apart_iff.mp h).resolve_left Bool.true_eq_false.mp
    unfold CellsApart at this
    omega

/-- The value of a cell is a matter of the parameters and the memory. -/
theorem cell_congr {s t : State} (hp : t.params = s.params) (hm : t.mem = s.mem) (c : Word) :
    t.cell c = s.cell c := by
  unfold State.cell State.word
  rw [hp, hm]

/-- A cell whose bytes no event writes keeps its value (R55). -/
theorem Leaves.cell_same {o : Option MemEvent} {s t : State} {c : Word} (h : Leaves o s t)
    (hc : c.toNat ≤ 2 ^ 64 - 16) (hq : ∀ e ∈ o, e.writesCell c = false) : t.cell c = s.cell c :=
  Machine.cell_same h.params hc fun _ h1 h2 => h.byteAt_same fun e he => not_stores_of_writesCell (hq e he) h1 h2

/-- A successful CAS128 leaves the new value in its cell (R46). -/
theorem Leaves.cell_of_cas {who : Actor} {c : Word} {e n : GenState} {s t : State}
    (h : Leaves (some (.cas who c e n true)) s t) (hm : Memory.wf s.mem) : t.cell c = n := by
  have hsucc : s.casSucceeds c e = true := (h.sees _ rfl).symm
  have hcell : s.cell c = e := of_decide_eq_true hsucc
  obtain ⟨h0, h1, -⟩ := casEvent_swaps who (h.placed _ rfl) hm n
    ⟨congrArg GenState.s0 hcell, congrArg GenState.s1 hcell⟩
  have hmem : t.mem = (s.casEvent who c e n).mem := by
    rw [State.casEvent_mem, if_pos hsucc]
    exact h.mem
  calc t.cell c = (s.casEvent who c e n).cell c := cell_congr (by simpa using h.params) hmem c
    _ = n := congrArg₂ GenState.mk h0 h1

theorem CellsApart.of_ne {a c : Word} (ha : a.toNat % 16 = 0) (hc : c.toNat % 16 = 0) (h : a ≠ c) :
    CellsApart a c := by
  have : a.toNat ≠ c.toNat := fun e => h (BitVec.eq_of_toNat_eq e)
  unfold CellsApart
  omega

/-- A write of a word of the cell at `x` writes no byte of a cell apart from it. -/
theorem CellsApart.write {x c a : Word} (h : CellsApart x c) (h1 : x.toNat ≤ a.toNat)
    (h2 : a.toNat ≤ x.toNat + 8) (who : Actor) (v : Word) :
    (MemEvent.write who a .w64 v).writesCell c = false := by
  have hw : Width.w64.bytes = 8 := rfl
  unfold CellsApart at h
  exact write_apart_iff.mpr (by omega)

/-! ### The requests stay atomic on the cell -/

/-- The request the agent has waiting, and the one it works on, are `AtomicOn` the cell. -/
def AgentAtomicOn (c : Word) (a : Agent) : Prop :=
  (∀ r, a.req = some r → AtomicOn c r) ∧ (busyPhase a.phase = true → AtomicOn c (latched a))

/-- If `b` is in a command, it is the command of the request that `a` had waiting, or the one `a` was in. -/
def WorksOnRequestOf (a b : Agent) : Prop :=
  busyPhase b.phase = true → a.req = some (latched b) ∨ (busyPhase a.phase = true ∧ latched b = latched a)

@[simp] theorem latched_accepted (op : Operation) (code : Status) (r : Request) (a : Agent) :
    latched (accepted op code r a) = r := by
  unfold accepted
  split <;> rfl

@[simp] theorem latched_iterated (k : CommandKind) (a : Agent) : latched (iterated k a) = latched a := by
  unfold iterated
  split <;> rfl

/-- A step in a phase of a command that keeps the latched request works on it. -/
theorem WorksOnRequestOf.of_latched {a b : Agent} (hp : busyPhase a.phase = true) (h : latched b = latched a) :
    WorksOnRequestOf a b := fun _ => .inr ⟨hp, h⟩

theorem ActiveCase.worksOnRequest {s t : State} {a : Agent} (ha : s.agents[s.active]? = Option.some a)
    (h : ActiveCase s a t) : Updates (WorksOnRequestOf a) s t := by
  have busy {ph : Phase} (hp : a.phase = ph) (hph : busyPhase ph = true) : busyPhase a.phase = true :=
    hp ▸ hph
  cases h
  case rejects r e hp hq he => exact updates_setActive fun _ => .inl hq
  case runs k r hidle hbusy hc =>
    cases hc
    case waits => exact updates_self ha fun hb => .inr ⟨hb, rfl⟩
    case accepts q hp hq =>
      obtain ⟨rfl, -⟩ := hidle hp q hq
      exact updates_setActive fun _ => .inl (by rw [latched_accepted, hq])
    case answers => exact updates_setActive fun hb => .inr ⟨hb, rfl⟩
    case iterates hp _ => exact updates_setActive (.of_latched (busy hp rfl) (latched_iterated k a))
    case swaps hp _ _ _ => exact updates_casEvent (.of_latched (busy hp rfl) rfl) _ _ _ _
    case seedW0 hp _ _ | seedW1 hp _ _ | rd0 hp _ _ | rd1 hp _ _ =>
      exact updates_setActive (.of_latched (busy hp rfl) rfl)
    case wr0 hp _ _ _ | wr1 hp _ _ _ => exact updates_setActive (.of_latched (busy hp rfl) rfl)
    case computesNext hp _ | computesJump hp _ | responds hp _ =>
      exact updates_setActive (.of_latched (busy hp rfl) rfl)

theorem AgentAtomicOn.step {c : Word} {a b : Agent} (h : AgentAtomicOn c a) (hs : SlotUse a b)
    (hw : WorksOnRequestOf a b) : AgentAtomicOn c b := by
  obtain ⟨hreq, hlatched⟩ := h
  refine ⟨fun r hr => ?_, fun hb => ?_⟩
  · by_cases hq : b.req = a.req
    · exact hreq r (hq ▸ hr)
    · rw [(hs.req hq).2.2] at hr
      cases hr
  · obtain hq | ⟨hp, hl⟩ := hw hb
    · exact hreq _ hq
    · exact hl ▸ hlatched hp

/-- The environment presents no other request, and a reset leaves none (R52). -/
theorem EnvCase.keeps_atomicOn {c : Word} {m : Move} {s t : State} (hA : AgentsAtomicOn c s)
    (hm : MoveAtomicOn c m) (h : EnvCase s m t) : AgentsAtomicOn c t := by
  cases h
  case presents j r a ha hq =>
    have ha' : AgentAtomicOn c { a with req := some r } :=
      ⟨fun q hq' => by cases hq'; exact hm, (hA a (List.mem_of_getElem? ha)).2⟩
    exact forall_mem_set hA j ha'
  case takes j r a ha hr =>
    have ha' : AgentAtomicOn c { a with rsp := none } := hA a (List.mem_of_getElem? ha)
    exact forall_mem_set hA j ha'
  case userSwaps =>
    unfold AgentsAtomicOn
    rwa [State.casEvent_agents]
  case resets =>
    intro b hb
    obtain ⟨j, hj, rfl⟩ := List.mem_mapIdx.mp hb
    exact ⟨nofun, nofun⟩
  all_goals exact hA

/-- The cell stays one that only atomic commands write (R52). -/
theorem perform_keeps_atomicOn {c : Word} {m : Move} {s t : State} (hA : AgentsAtomicOn c s)
    (hm : MoveAtomicOn c m) (h : perform m s = .next t) : AgentsAtomicOn c t := by
  obtain ⟨j, a, rfl, ha, hc⟩ | hc := perform_cases h
  · obtain ⟨b, hb, hslots⟩ := hc.slotUse (s := { s with active := j }) ha
    have hwork := (hc.worksOnRequest (s := { s with active := j }) ha).active (s := { s with active := j }) ha
      (hb ▸ set_active_get (s := { s with active := j }) ha b)
    have hstep : AgentAtomicOn c b := AgentAtomicOn.step (hA a (List.mem_of_getElem? ha)) hslots hwork
    unfold AgentsAtomicOn
    rw [hb]
    exact forall_mem_set hA j hstep
  · exact hc.keeps_atomicOn hA hm

/-! ### One move and the cell -/

/-- A SEED has no atomic form (R65). -/
theorem seed_not_atomic {a : Agent} {k : CommandKind} (h : decodeCmd a.cmdr = .ok k) (ho : k.op = .seed) :
    k.atomic = false := by
  obtain ⟨i, -, rfl, -⟩ := latched_decode h
  cases i with
  | seed => rfl
  | _ => cases ho

/-- The four phases that write one word are those of commands that are not atomic (R112, R113, R119, R120). -/
theorem PhaseMeets.not_atomic {a : Agent} {k : CommandKind} (hk : decodeCmd a.cmdr = .ok k) (h : PhaseMeets k a)
    (hp : a.phase = .seedW0 ∨ a.phase = .seedW1 ∨ a.phase = .wr0 ∨ a.phase = .wr1) : k.atomic = false := by
  rcases hp with hp | hp | hp | hp <;> simp only [PhaseMeets, hp] at h
  case inl | inr.inl => exact seed_not_atomic hk h.1
  case inr.inr.inl | inr.inr.inr => exact h.2.1

/-- Agent `j`, with the registers `a` and the command `k`, is about to commit to the cell at `c` (R118). -/
structure CommitsTo (c : Word) (s : State) (j : Nat) (a : Agent) (k : CommandKind) : Prop where
  agent : s.agents[j]? = some a
  phase : a.phase = .cas
  addr : a.addrr = c
  succeeds : s.casSucceeds c (snapshot a) = true
  kind : decodeCmd a.cmdr = .ok k
  atomic : k.atomic = true
  update : k.op ≠ .seed
  candidate : candidate a = (applied k (snapshot a)).1

theorem CommitsTo.commitOf_eq {c : Word} {s : State} {j : Nat} {a : Agent} {k : CommandKind}
    (h : CommitsTo c s j a k) : commitOf c (.agent j) s = some (j, k) := by
  simp only [commitOf, h.agent, h.phase, h.addr, h.succeeds, h.kind, and_self, if_true]

/-- A commit is a CAS128 from the cell's value to what the command makes of it (R125). -/
theorem CommitsTo.moveEvent_eq {c : Word} {s : State} {j : Nat} {a : Agent} {k : CommandKind}
    (h : CommitsTo c s j a k) :
    moveEvent (.agent j) s = some (.cas (.agent j) c (s.cell c) (applied k (s.cell c)).1 true) := by
  have hcell : s.cell c = snapshot a := of_decide_eq_true h.succeeds
  have hsucc : ({ s with active := j } : State).casSucceeds c (snapshot a) = true := h.succeeds
  simp only [moveEvent_agent h.agent, agentEvent, h.phase, h.addr, hsucc, hcell, h.candidate]

/-- An agent whose requests are atomic on the cell writes no byte of it, unless it commits to it. -/
theorem agentEvent_on_cell {c : Word} {s : State} {j : Nat} {a : Agent} (hi : Inv s) (hc : c.toNat % 16 = 0)
    (ha : s.agents[j]? = some a) (hA : AgentAtomicOn c a) :
    (∃ k, CommitsTo c s j a k) ∨ ∀ e ∈ agentEvent { s with active := j } a, e.writesCell c = false := by
  have command {ph : Phase} (hp : a.phase = ph) (hb : busyPhase ph = true) (hr : ph ≠ .resp) :
      ∃ k, decodeCmd a.cmdr = .ok k ∧ Admissible s.params k a.addrr ∧ PhaseMeets k a :=
    command_of (s := { s with active := j }) hi ⟨ha, hp⟩ hb hr
  unfold agentEvent
  split
  case h_3 | h_4 => exact .inr fun e he => by cases he; rfl
  case h_1 hp | h_2 hp | h_6 hp | h_7 hp =>
    obtain ⟨k, hk, hadm, hph⟩ := command hp rfl (by decide)
    have hat : k.atomic = false := hph.not_atomic hk (by simp [hp])
    have hapart : CellsApart a.addrr c := (hA.2 (hp ▸ rfl) k hk).resolve_left (by simp [hat])
    have hsecond := hadm.second_toNat
    exact .inr fun e he => by cases he; exact hapart.write (by omega) (by omega) _ _
  case h_5 hp =>
    obtain ⟨k, hk, hadm, hph⟩ := command hp rfl (by decide)
    obtain ⟨ho, hat, hcand, -⟩ : k.op ≠ .seed ∧ k.atomic = true ∧ Computed k a := by
      simpa only [PhaseMeets, hp] using hph
    by_cases hac : a.addrr = c
    · cases hs : s.casSucceeds a.addrr (snapshot a) with
      | true => exact .inl ⟨k, ha, hp, hac, hac ▸ hs, hk, hat, ho, hcand⟩
      | false =>
        exact .inr fun e he => by cases he; exact cas_apart_iff.mpr (.inl hs)
    · have hapart := CellsApart.of_ne (casAccessOk_aligned (hadm.casOk hat)) hc hac
      exact .inr fun e he => by cases he; exact cas_apart_iff.mpr (.inr hapart)
  all_goals exact .inr nofun

/-- A move of the environment that leaves the cell to atomic commands writes no byte of it. -/
theorem envEvent_on_cell {c : Word} {m : Move} {s t : State} (hm : MoveAtomicOn c m) (h : EnvCase s m t) :
    ∀ e ∈ moveEvent m s, e.writesCell c = false := by
  cases h
  case userReads => rintro _ ⟨⟩; rfl
  case userWrites u x w v =>
    rintro _ ⟨⟩
    exact write_apart_iff.mpr hm
  case userSwaps =>
    rintro _ ⟨⟩
    exact cas_apart_iff.mpr (.inr hm)
  all_goals exact nofun

/-- An agent that does not commit to the cell is not about to (R118). -/
theorem commitOf_eq_none {c : Word} {s : State} {j : Nat} {a : Agent} (ha : s.agents[j]? = some a)
    (h : ∀ e ∈ agentEvent { s with active := j } a, e.writesCell c = false) : commitOf c (.agent j) s = none := by
  simp only [commitOf, ha]
  split
  case isFalse => rfl
  case isTrue hcas =>
    obtain ⟨hp, hac, hs⟩ := hcas
    simp only [agentEvent, hp] at h
    have hapart : CellsApart a.addrr c := (cas_apart_iff.mp (h _ rfl)).resolve_left fun hf =>
      Bool.false_ne_true (hf.symm.trans (hac ▸ hs))
    unfold CellsApart at hapart
    rw [hac] at hapart
    omega

/-- A move writes no byte of the cell and commits nothing to it, or it is a commit to it. -/
theorem perform_on_cell {c : Word} {m : Move} {s t : State} (hi : Inv s) (hc : c.toNat % 16 = 0)
    (hA : AgentsAtomicOn c s) (hm : MoveAtomicOn c m) (h : perform m s = .next t) :
    (commitOf c m s = none ∧ ∀ e ∈ moveEvent m s, e.writesCell c = false) ∨
      ∃ j a k, m = .agent j ∧ CommitsTo c s j a k := by
  obtain ⟨j, a, rfl, ha, -⟩ | hcase := perform_cases h
  · obtain ⟨k, hk⟩ | he := agentEvent_on_cell hi hc ha (hA a (List.mem_of_getElem? ha))
    · exact .inr ⟨j, a, k, rfl, hk⟩
    · exact .inl ⟨commitOf_eq_none ha he, moveEvent_agent ha ▸ he⟩
  · refine .inl ⟨?_, envEvent_on_cell hm hcase⟩
    cases hcase <;> rfl

/-- A commit leaves the command's transition or jump of the cell's value in it (R125). -/
theorem CommitsTo.cell_eq {c : Word} {s t : State} {j : Nat} {a : Agent} {k : CommandKind}
    (h : CommitsTo c s j a k) (hm : Memory.wf s.mem) (ht : perform (.agent j) s = .next t) :
    t.cell c = (applied k (s.cell c)).1 := by
  have hl := perform_leaves ht
  rw [h.moveEvent_eq] at hl
  exact hl.cell_of_cas hm

/-! ### The history of the cell -/

/-- The events `es`, the oldest first, and the change of the cell at `c` from `v` to `w` are what the commits `cs`
tell (R127). -/
structure Tells (c : Word) (cs : List (Nat × CommandKind)) (v w : GenState) (es : List MemEvent) : Prop where
  value : w = committed cs v
  atomic : ∀ j k, (j, k) ∈ cs → k.atomic = true ∧ k.op ≠ .seed
  events : es.filter (fun e => e.writesCell c) = commitEvents c cs v

theorem committed_append (cs ds : List (Nat × CommandKind)) (v : GenState) :
    committed (cs ++ ds) v = committed ds (committed cs v) := by
  induction cs generalizing v with
  | nil => rfl
  | cons _ cs ih => exact ih _

theorem commitEvents_append (c : Word) (cs ds : List (Nat × CommandKind)) (v : GenState) :
    commitEvents c (cs ++ ds) v = commitEvents c cs v ++ commitEvents c ds (committed cs v) := by
  induction cs generalizing v with
  | nil => rfl
  | cons _ cs ih => exact congrArg (_ :: ·) (ih _)

theorem Tells.append {c : Word} {cs ds : List (Nat × CommandKind)} {v w x : GenState} {es fs : List MemEvent}
    (h : Tells c cs v w es) (h' : Tells c ds w x fs) : Tells c (cs ++ ds) v x (es ++ fs) where
  value := by rw [committed_append, ← h.value, h'.value]
  atomic j k hjk := (List.mem_append.mp hjk).elim (h.atomic j k) (h'.atomic j k)
  events := by rw [List.filter_append, commitEvents_append, h.events, h'.events, ← h.value]

/-- One move: its event and its commit tell what became of the cell. -/
theorem perform_tells {c : Word} {m : Move} {s t : State} (hi : Inv s) (hc : c.toNat % 16 = 0)
    (hA : AgentsAtomicOn c s) (hm : MoveAtomicOn c m) (h : perform m s = .next t) :
    Tells c (commitOf c m s).toList (s.cell c) (t.cell c) (moveEvent m s).toList := by
  obtain ⟨hnone, he⟩ | ⟨j, a, k, rfl, hk⟩ := perform_on_cell hi hc hA hm h
  · rw [hnone]
    refine ⟨(perform_leaves h).cell_same (le_of_aligned16 hc) he, nofun, ?_⟩
    refine List.filter_eq_nil_iff.mpr fun e hmem => ?_
    simpa using he e (Option.mem_toList.mp hmem)
  · rw [hk.commitOf_eq, hk.moveEvent_eq]
    refine ⟨hk.cell_eq hi.memory h, fun j' k' hmem => ?_, ?_⟩
    · cases List.mem_singleton.mp hmem
      exact ⟨hk.atomic, hk.update⟩
    · simp [commitEvents, MemEvent.writesCell]

theorem runMoves_cons {m : Move} {ms : List Move} {s t : State} (h : runMoves (m :: ms) s = .next t) :
    ∃ u, perform m s = .next u ∧ runMoves ms u = .next t := by
  simp only [runMoves] at h
  split at h
  case h_1 u hu => exact ⟨u, hu, h⟩
  all_goals cases h

/-- A run: the events it put on the order, the oldest first, and its commits tell what became of the cell. -/
theorem runMoves_tells {c : Word} {ms : List Move} {s t : State} (hi : Inv s) (hc : c.toNat % 16 = 0)
    (hA : AgentsAtomicOn c s) (hm : ∀ m ∈ ms, MoveAtomicOn c m) (h : runMoves ms s = .next t) :
    ∃ added, t.order = added ++ s.order ∧
      Tells c (commitsOf c ms s) (s.cell c) (t.cell c) added.reverse := by
  induction ms generalizing s with
  | nil =>
    cases h
    exact ⟨[], rfl, rfl, nofun, rfl⟩
  | cons m ms ih =>
    obtain ⟨u, hu, ht⟩ := runMoves_cons h
    have hmove : MoveAtomicOn c m := hm m List.mem_cons_self
    obtain ⟨added, horder, htells⟩ := ih (perform_keeps_inv hi hu) (perform_keeps_atomicOn hA hmove hu)
      (fun m' hm' => hm m' (List.mem_cons_of_mem _ hm')) ht
    refine ⟨added ++ (moveEvent m s).toList, ?_, ?_⟩
    · rw [horder, (perform_leaves hu).order, List.append_assoc]
    · have hrev : (moveEvent m s).toList.reverse = (moveEvent m s).toList := by cases moveEvent m s <;> rfl
      rw [commitsOf_cons hu, List.reverse_append, hrev]
      exact (perform_tells hi hc hA hmove hu).append htells

end Sys2Proof.Machine

namespace Sys2Proof.Proofs

open Sys2Proof Sys2Proof.Machine

/-- Settles O38: a move writes no byte of the cell, or it is a commit to it. -/
theorem sharedCellChangesOnlyByACommit : Obligations.SharedCellChangesOnlyByACommit := by
  intro c m s t hi hc hA hm h
  refine ⟨perform_keeps_atomicOn hA hm h, ?_⟩
  have hl := perform_leaves h
  obtain ⟨-, he⟩ | ⟨j, a, k, rfl, hk⟩ := perform_on_cell hi hc hA hm h
  · exact .inl (hl.cell_same (le_of_aligned16 hc) he)
  · refine .inr ⟨j, a, k, rfl, hk.agent, hk.phase, hk.addr, hk.kind, hk.cell_eq hi.memory h, ?_⟩
    rw [hl.order, hk.moveEvent_eq]
    rfl

/-- Settles O37, by induction on the moves: each tells its part of the history of the cell. -/
theorem sharedCellHoldsOnlyTransitions : Obligations.SharedCellHoldsOnlyTransitions := by
  intro c ms s t hi hc hA hm h
  obtain ⟨added, horder, htells⟩ := runMoves_tells hi hc hA hm h
  exact ⟨htells.value, htells.atomic, added, horder, htells.events⟩

end Sys2Proof.Proofs
end

section
/-! PROOFS. Snapshots: a read makes one, an undisturbed cell keeps it fresh, and a fresh one commits. -/

namespace Sys2Proof.Machine

open Sys2Proof

/-! ### A fresh snapshot -/

theorem fresh_rd1_iff {s : State} {a : Agent} (hp : a.phase = .rd1) : Fresh s a ↔ a.exp0 = s.word a.addrr := by
  simp only [Fresh, hp]

theorem fresh_whole_iff {s : State} {a : Agent} (hp : a.phase = .compute ∨ a.phase = .jiter ∨ a.phase = .cas) :
    Fresh s a ↔ snapshot a = s.cell a.addrr := by
  rcases hp with hp | hp | hp <;> simp only [Fresh, hp]

/-- A snapshot is one of the phases from RD1 to CAS. -/
theorem Fresh.phase {s : State} {a : Agent} (h : Fresh s a) :
    a.phase = .rd1 ∨ a.phase = .compute ∨ a.phase = .jiter ∨ a.phase = .cas := by
  unfold Fresh at h
  split at h <;> simp_all

/-- A snapshot stays fresh where the cell's two words stay. -/
theorem Fresh.of_words {s t : State} {a : Agent} (h : Fresh s a) (h0 : t.word a.addrr = s.word a.addrr)
    (h8 : t.word (a.addrr + 8) = s.word (a.addrr + 8)) : Fresh t a := by
  have hcell : t.cell a.addrr = s.cell a.addrr := congrArg₂ GenState.mk h0 h8
  obtain hp | hp := h.phase
  · rw [fresh_rd1_iff hp] at h ⊢
    rw [h, h0]
  · rw [fresh_whole_iff hp] at h ⊢
    rw [h, hcell]

/-- RD0 reads the first word of the snapshot (R114). -/
theorem ExecCase.fresh_of_rd0 {k : CommandKind} {r : Request} {s t : State} {a : Agent} (hp : a.phase = .rd0)
    (h : ExecCase k r s a t) : Updates (Fresh s) s t := by
  cases h
  case waits hd => simp [enabled, hp] at hd
  case rd0 => exact updates_setActive rfl
  -- every other case is of another phase
  all_goals simp_all

/-- The steps between RD0 and CAS keep the snapshot, and RD1 completes it; an unshared command goes on to WR0
(R115 to R117). -/
theorem ExecCase.keeps_fresh {k : CommandKind} {r : Request} {s t : State} {a : Agent}
    (ha : s.agents[s.active]? = some a) (hf : Fresh s a) (hp : a.phase ≠ .cas) (h : ExecCase k r s a t) :
    Updates (fun b => Fresh s b ∨ b.phase = .wr0) s t := by
  have commits (c : GenState) (out : Word) (hs : snapshot a = s.cell a.addrr) :
      Fresh s (withCandidate k.atomic c out a) ∨ (withCandidate k.atomic c out a).phase = .wr0 := by
    cases hat : k.atomic
    · exact .inr rfl
    · exact .inl hs
  cases h
  case waits => exact updates_self ha (.inl hf)
  case rd1 hp1 _ _ =>
    have h0 : a.exp0 = s.word a.addrr := (fresh_rd1_iff hp1).mp hf
    exact updates_setActive (.inl (congrArg₂ GenState.mk h0 rfl))
  case computesNext hp1 _ =>
    exact updates_setActive (commits _ _ ((fresh_whole_iff (.inl hp1)).mp hf))
  case computesJump hp1 _ =>
    have hs : snapshot a = s.cell a.addrr := (fresh_whole_iff (.inl hp1)).mp hf
    exact updates_setActive (.inl hs)
  case iterates hp1 _ =>
    have hs : snapshot a = s.cell a.addrr := (fresh_whole_iff (.inr (.inl hp1))).mp hf
    refine updates_setActive ?_
    unfold iterated
    split
    · exact .inl ((fresh_whole_iff (.inr (.inl hp1))).mpr hs)
    · exact commits _ _ hs
  case swaps hp1 _ _ _ => exact absurd hp1 hp
  -- in the other phases there is no snapshot
  all_goals
    have := hf.phase
    simp_all

/-! ### The step of a given agent -/

/-- Outside IDLE an agent's step is a case of a command. -/
theorem perform_agent_case {s t : State} {j : Nat} {a : Agent} (h : perform (.agent j) s = .next t)
    (ha : s.agents[j]? = some a) (hp : a.phase ≠ .idle) :
    ∃ k r, ExecCase k r { s with active := j } a t := by
  obtain ⟨b, hb, hc⟩ := agentStep_cases h
  cases hb.symm.trans ha
  cases hc
  case runs k r _ _ hc => exact ⟨k, r, hc⟩
  case rejects hidle _ _ => exact absurd hidle hp

theorem perform_keeps_agent {s t : State} {m : Move} {j : Nat} {a : Agent} (h : perform m s = .next t)
    (ha : s.agents[j]? = some a) : ∃ b, t.agents[j]? = some b := by
  obtain ⟨hl, -⟩ := List.getElem?_eq_some_iff.mp ha
  exact ⟨_, List.getElem?_eq_getElem (by rwa [(perform_keeps_params h).2])⟩

/-- Outside IDLE no move but a reset changes the latched request (R25). -/
theorem perform_keeps_latched {s t : State} {m : Move} {j : Nat} {a b : Agent} (h : perform m s = .next t)
    (hr : m ≠ .reset) (ha : s.agents[j]? = some a) (hp : a.phase ≠ .idle) (hb : t.agents[j]? = some b) :
    latched b = latched a := by
  by_cases hm : m = .agent j
  · subst hm
    obtain ⟨k, r, hc⟩ := perform_agent_case h ha hp
    exact (((hc.frame ha).active (s := { s with active := j }) ha hb).request hp).1
  · obtain ⟨q, p, hb', -⟩ := others_keep_registers h hr hm ha
    cases hb.symm.trans hb'
    rfl

/-- An agent in CAS makes the CAS128 of its snapshot; when it succeeds the agent is in RESP and the cell holds its
candidate (R118). -/
theorem fresh_cas_commits {s t : State} {j : Nat} {a b : Agent} (hm : Memory.wf s.mem)
    (h : perform (.agent j) s = .next t) (ha : s.agents[j]? = some a) (hb : t.agents[j]? = some b)
    (hf : Fresh s a) (hp : a.phase = .cas) :
    b.phase = .resp ∧ t.cell a.addrr = candidate a ∧
      t.order = .cas (.agent j) a.addrr (snapshot a) (candidate a) true :: s.order := by
  have hsucc : ({ s with active := j } : State).casSucceeds a.addrr (snapshot a) = true :=
    decide_eq_true ((fresh_whole_iff (.inr (.inr hp))).mp hf).symm
  have hl := perform_leaves h
  simp only [moveEvent_agent ha, agentEvent, hp, hsucc] at hl
  obtain ⟨k, r, hc⟩ := perform_agent_case h ha (by simp [hp])
  have hphase : Updates (fun b => b.phase = .resp) { s with active := j } t := by
    cases hc
    case swaps => exact updates_casEvent (by simp only [hsucc, if_true]) _ _ _ _
    case waits hd => simp [enabled, hp] at hd
    all_goals simp_all
  exact ⟨hphase.active (s := { s with active := j }) ha hb, hl.cell_of_cas hm, hl.order⟩

end Sys2Proof.Machine

namespace Sys2Proof.Proofs

open Sys2Proof Sys2Proof.Machine

/-- Settles O39: the agent's own step makes or keeps the snapshot, another's leaves its registers, and a compare
with a fresh snapshot succeeds. -/
theorem undisturbedCasSucceeds : Obligations.UndisturbedCasSucceeds := by
  intro s t m j a b hi h ha hb hr
  refine ⟨fun h0 h8 => ?_, fun hf hm hp => ?_⟩
  case refine_2 =>
    subst hm
    obtain ⟨hb', hcell, -⟩ := fresh_cas_commits hi.memory h ha hb hf hp
    exact ⟨hb', hcell⟩
  case refine_1 =>
    have words (hp : a.phase ≠ .idle) (hf : Fresh s b) : Fresh t b := by
      have haddr : b.addrr = a.addrr := (latched_fields (perform_keeps_latched h hr ha hp hb)).2
      exact hf.of_words (haddr ▸ h0) (haddr ▸ h8)
    refine ⟨fun hp hm => ?_, fun hf hm => ?_, fun hf hm hp => ?_⟩
    · subst hm
      have hp' : a.phase ≠ .idle := by simp [hp]
      obtain ⟨k, r, hc⟩ := perform_agent_case h ha hp'
      exact words hp' ((hc.fresh_of_rd0 hp).active (s := { s with active := j }) ha hb)
    · obtain ⟨q, p, hb', -⟩ := others_keep_registers h hr hm ha
      cases hb.symm.trans hb'
      exact hf.of_words h0 h8
    · subst hm
      have hp' : a.phase ≠ .idle := fun e => by simpa [e] using hf.phase
      obtain ⟨k, r, hc⟩ := perform_agent_case h ha hp'
      exact ((hc.keeps_fresh (s := { s with active := j }) ha hf hp).active (s := { s with active := j }) ha hb).imp
        (words hp') id

end Sys2Proof.Proofs
end

section
/-! PROOFS. Windows of a run: from RD0 on the snapshot is fresh as long as no event writes the cell. -/

namespace Sys2Proof.Machine

open Sys2Proof

theorem Run.inv {r : Run} (hi : Inv (r.state 0)) (hl : r.Legal) (n : Nat) : Inv (r.state n) := by
  induction n with
  | zero => exact hi
  | succ n ih => exact perform_keeps_inv ih (hl n)

/-- A move that puts no event on the order that writes the cell leaves its value. -/
theorem perform_cell_of_quiet {s t : State} {m : Move} {c : Word} (h : perform m s = .next t)
    (hc : c.toNat ≤ 2 ^ 64 - 16) (hq : ∀ e, t.order = e :: s.order → e.writesCell c = false) :
    t.cell c = s.cell c := by
  have hl := perform_leaves h
  refine hl.cell_same hc fun e he => hq e ?_
  rw [hl.order, Option.mem_def.mp he]
  rfl

/-- One move inside a round, quiet on the cell, keeps the snapshot fresh: the round goes on, so the move is no
reset and no CAS step, which would have committed. -/
theorem fresh_of_quiet_move {s t : State} {m : Move} {j : Nat} {a b : Agent} (hi : Inv s)
    (h : perform m s = .next t) (ha : s.agents[j]? = some a) (hb : t.agents[j]? = some b)
    (hround : roundPhase b.phase = true) (hcell : t.cell a.addrr = s.cell a.addrr)
    (hf : (a.phase = .rd0 ∧ m = .agent j) ∨ Fresh s a) : Fresh t b ∧ latched b = latched a := by
  have hr : m ≠ .reset := by
    rintro rfl
    rw [reset_idle h hb] at hround
    cases hround
  have hidle : a.phase ≠ .idle := by
    obtain ⟨hp, -⟩ | hf := hf
    · simp [hp]
    · exact fun e => by simpa [e] using hf.phase
  refine ⟨?_, perform_keeps_latched h hr ha hidle hb⟩
  obtain ⟨hsteps, hcas⟩ := Proofs.undisturbedCasSucceeds s t m j a b hi h ha hb hr
  obtain ⟨hread, hother, hown⟩ := hsteps (congrArg GenState.s0 hcell) (congrArg GenState.s1 hcell)
  obtain ⟨hp, hm⟩ | hf := hf
  · exact hread hp hm
  by_cases hm : m = .agent j
  · have hp : a.phase ≠ .cas := fun hp => by
      rw [(hcas hf hm hp).1] at hround
      cases hround
    refine (hown hf hm hp).resolve_right fun hw => ?_
    rw [hw] at hround
    cases hround
  · exact hother hf hm

/-- In a quiet window the snapshot is fresh from the step after RD0 on. -/
theorem Run.fresh_in_window {r : Run} {j n m : Nat} {a : Agent} (hi : Inv (r.state 0)) (hl : r.Legal)
    (hw : r.Window j n m) (ha : r.agent n j = some a) (hq : r.Quiet a.addrr n m) (d : Nat) (hd : n + d + 1 ≤ m) :
    ∃ b, r.agent (n + d + 1) j = some b ∧ Fresh (r.state (n + d + 1)) b ∧ latched b = latched a := by
  obtain ⟨-, hmove, -, ⟨a', ha', hp⟩, -, hround⟩ := hw
  cases ha.symm.trans ha'
  obtain ⟨k, -, hadm, -⟩ := command_of (s := { r.state n with active := j }) (Run.inv hi hl n) ⟨ha, hp⟩ rfl
    (by decide)
  have hroom : a.addrr.toNat ≤ 2 ^ 64 - 16 := hadm.2.2.1
  induction d with
  | zero =>
    obtain ⟨b, hb, hbr, -⟩ := hround (n + 1) (by omega) hd
    have hstep := hl n
    rw [hmove] at hstep
    have hcell : (r.state (n + 1)).cell a.addrr = (r.state n).cell a.addrr :=
      (perform_leaves hstep).cell_same hroom fun e he => by
        simp only [moveEvent_agent ha, agentEvent, hp] at he
        cases he
        rfl
    exact ⟨b, hb, fresh_of_quiet_move (Run.inv hi hl n) hstep ha hb hbr hcell (.inl ⟨hp, rfl⟩)⟩
  | succ d ih =>
    obtain ⟨c, hc, hf, hlc⟩ := ih (by omega)
    obtain ⟨b, hb, hbr, -⟩ := hround (n + (d + 1) + 1) (by omega) hd
    have hstep := hl (n + d + 1)
    have hcell : (r.state (n + d + 1 + 1)).cell a.addrr = (r.state (n + d + 1)).cell a.addrr :=
      perform_cell_of_quiet hstep hroom fun e => hq (n + d + 1) e (by omega) (by omega)
    rw [← (latched_fields hlc).2] at hcell
    obtain ⟨hfb, hlb⟩ := fresh_of_quiet_move (Run.inv hi hl (n + d + 1)) hstep hc hb hbr hcell (.inr hf)
    exact ⟨b, hb, hfb, hlb.trans hlc⟩

end Sys2Proof.Machine

namespace Sys2Proof.Proofs

open Sys2Proof Sys2Proof.Machine

/-- Settles O40: at the CAS step of a quiet window the snapshot is fresh, so the step commits. -/
theorem quietWindowCommits : Obligations.QuietWindowCommits := by
  intro r j n m a hi hl hw ha hq
  obtain ⟨b, hb, hf, hlb⟩ : ∃ b, r.agent m j = some b ∧ Fresh (r.state m) b ∧ latched b = latched a := by
    have hnm : n < m := hw.1
    have h := Run.fresh_in_window hi hl hw ha hq (m - n - 1) (by omega)
    rwa [show n + (m - n - 1) + 1 = m by omega] at h
  obtain ⟨-, -, hmove, -, ⟨b', hb', hp⟩, -⟩ := hw
  cases hb.symm.trans hb'
  have hstep := hl m
  rw [hmove] at hstep
  obtain ⟨c, hc⟩ := perform_keeps_agent hstep hb
  obtain ⟨hpc, -, horder⟩ := fresh_cas_commits (Run.inv hi hl m).memory hstep hb hc hf hp
  have hlc := perform_keeps_latched hstep (by simp) hb (by simp [hp]) hc
  rw [(latched_fields hlb).2] at horder
  exact ⟨c, _, _, hc, hpc, hlc.trans hlb, horder⟩

end Sys2Proof.Proofs
end

section
/-! PROOFS. The encoding of requests: the decoder against the encoder, the opcode map and the illegal words, and
the assembler's commands. -/

namespace Sys2Proof

/-! ### The round trip (R60 to R64) -/

/-- The FAM bit of a SEED word is the bit the decoder hands on (R62, R64). -/
theorem extractLsb'_seedWord (fam : BitVec 1) : ((fam.setWidth 32) <<< 3).extractLsb' 3 1 = fam := by
  revert fam
  decide

theorem ofKind_encode (i : Instr) : Instr.ofKind i.kind (encode i) = i := by
  cases i with
  | seed fam addr s0 s1 => exact congrArg (Instr.seed · addr s0 s1) (extractLsb'_seedWord fam)
  | xsNext | xoNext | xsNextCas | xoNextCas | xsJump | xoJump | xsJumpCas | xoJumpCas => rfl

@[simp] theorem decode_encode (i : Instr) : decode (encode i) = .ok i :=
  (decode_of_cmd (decodeCmd_encode i)).trans (congrArg Except.ok (ofKind_encode i))

/-! ### Illegal words (R65) -/

theorem decode_of_cmd_error {r : Request} {e : DecodeError} (h : decodeCmd r.cmd = .error e) :
    decode r = .error e := by
  simp only [decode, h]

/-- The form of "is an error" that `decide` can look at. -/
theorem exists_error_iff {x : Except DecodeError CommandKind} : (∃ e, x = .error e) ↔ x.isOk = false := by
  cases x <;> simp [Except.isOk, Except.toBool]

theorem decodeCmd_of_sixteen_le {w : CmdWord} (h : ¬ w.toNat < 16) : decodeCmd w = .error .reservedBits :=
  decodeCmd_reserved (mt lt_sixteen_of_reserved_zero h)

theorem decodeCmd_error_iff (w : CmdWord) :
    (∃ e, decodeCmd w = .error e) ↔ (0x0000000F < w.toNat ∨ w.toNat ∈ [0x3, 0x7, 0xB, 0xF, 0x4, 0xC]) := by
  by_cases hw : w.toNat < 16
  · rw [exists_error_iff]
    exact forall_small_word
      (P := fun w => (decodeCmd w).isOk = false ↔
        (0x0000000F < w.toNat ∨ w.toNat ∈ [0x3, 0x7, 0xB, 0xF, 0x4, 0xC]))
      (by decide) hw
  · exact iff_of_true ⟨_, decodeCmd_of_sixteen_le hw⟩ (.inl (by omega))

/-! ### The opcode map (R63) -/

/-- R63's rows: mnemonic, value, mask, and the fields OP, AT and FAM. -/
def opcodeRows : List (Mnemonic × CmdWord × CmdWord × CommandKind) :=
  [ (.seed, 0x00000000, 0xFFFFFFF7, ⟨.seed, false, .a⟩), (.xsNext, 0x00000001, 0xFFFFFFFF, ⟨.next, false, .a⟩),
    (.xoNext, 0x00000009, 0xFFFFFFFF, ⟨.next, false, .b⟩),
    (.xsNextCas, 0x00000005, 0xFFFFFFFF, ⟨.next, true, .a⟩),
    (.xoNextCas, 0x0000000D, 0xFFFFFFFF, ⟨.next, true, .b⟩),
    (.xsJump, 0x00000002, 0xFFFFFFFF, ⟨.jump, false, .a⟩), (.xoJump, 0x0000000A, 0xFFFFFFFF, ⟨.jump, false, .b⟩),
    (.xsJumpCas, 0x00000006, 0xFFFFFFFF, ⟨.jump, true, .a⟩),
    (.xoJumpCas, 0x0000000E, 0xFFFFFFFF, ⟨.jump, true, .b⟩) ]

/-- The rows a command word selects. -/
def selectedRows (w : CmdWord) : List (Mnemonic × CmdWord × CmdWord × CommandKind) :=
  opcodeRows.filter (fun row => decide (w &&& row.2.2.1 = row.2.1))

theorem opcodeTable_eq : opcodeTable = opcodeRows.map (fun row => ⟨row.1, row.2.1, row.2.2.1⟩) := rfl

theorem selectedRows_encode_map (i : Instr) :
    (selectedRows (encode i).cmd).map (fun row => (row.1, row.2.2.2)) = [(i.mnemonic, i.kind)] := by
  cases i with
  | seed fam =>
    simp only [encode, Instr.mnemonic, Instr.kind]
    revert fam
    decide
  | xsNext | xoNext | xsNextCas | xoNextCas | xsJump | xoJump | xsJumpCas | xoJumpCas =>
    simp only [encode, Instr.mnemonic, Instr.kind]
    decide

theorem selectedRows_encode (i : Instr) :
    ∃ value mask, selectedRows (encode i).cmd = [(i.mnemonic, value, mask, i.kind)] := by
  obtain ⟨⟨m, value, mask, k⟩, hrows, hrow⟩ := List.map_eq_singleton_iff.mp (selectedRows_encode_map i)
  obtain ⟨rfl, rfl⟩ := Prod.mk.inj hrow
  exact ⟨value, mask, hrows⟩

/-- A mask that keeps bits 31:4 and a value that has them 0 reject every word with a reserved bit. -/
theorem and_mask_ne_of_reserved {w value mask : CmdWord} (hw : w.extractLsb' 4 28 ≠ 0)
    (hmask : mask.extractLsb' 4 28 = BitVec.allOnes 28) (hvalue : value.extractLsb' 4 28 = 0) :
    w &&& mask ≠ value := by
  intro h
  apply hw
  calc w.extractLsb' 4 28 = (w &&& mask).extractLsb' 4 28 := by
        rw [BitVec.extractLsb'_and, hmask, BitVec.and_allOnes]
    _ = 0 := by rw [h, hvalue]

theorem selectedRows_of_reserved {w : CmdWord} (hw : w.extractLsb' 4 28 ≠ 0) : selectedRows w = [] := by
  have hrows : ∀ row ∈ opcodeRows,
      row.2.2.1.extractLsb' 4 28 = BitVec.allOnes 28 ∧ row.2.1.extractLsb' 4 28 = 0 := by decide
  refine List.filter_eq_nil_iff.mpr fun row hrow => ?_
  obtain ⟨hmask, hvalue⟩ := hrows row hrow
  simpa using and_mask_ne_of_reserved hw hmask hvalue

theorem selectedRows_of_error {w : CmdWord} {e : DecodeError} (h : decodeCmd w = .error e) :
    selectedRows w = [] := by
  by_cases hw : w.toNat < 16
  · have hsmall : ∀ n : Fin 16, (decodeCmd (BitVec.ofNat 32 n.val)).isOk = false →
        selectedRows (BitVec.ofNat 32 n.val) = [] := by decide
    exact forall_small_word (P := fun w => (decodeCmd w).isOk = false → selectedRows w = []) hsmall hw
      (exists_error_iff.mp ⟨e, h⟩)
  · exact selectedRows_of_reserved (mt lt_sixteen_of_reserved_zero hw)

end Sys2Proof

namespace Sys2Proof.Machine

open Sys2Proof

/-- The accept step of a request with an illegal word (R110, R140, R143). -/
theorem activeStep_illegal {s : State} {a : Agent} {r : Request} {e : DecodeError} (h : ActiveIn s .idle a)
    (hq : a.req = some r) (he : decodeCmd r.cmd = .error e) : activeStep s = acceptIllegal r s a := by
  obtain ⟨ha, hp⟩ := h
  simp only [activeStep_eq ha, hp, idleStep, hq, decode_of_cmd_error he]

/-! ### The assembler (R67, R68) -/

theorem asmLine_wf_iff {p : Params} {l : AsmLine} : AsmLine.wf p l = true ↔
    l.agent < p.nAgents ∧ l.operands.length = l.mnemonic.arity ∧ ∀ n ∈ l.operands, n < 2 ^ 64 := by
  simp [AsmLine.wf, and_assoc]

theorem arity_of_ne_seed {m : Mnemonic} (h : m ≠ .seed) : m.arity = 1 := by
  cases m with
  | seed => exact absurd rfl h
  | xsNext | xoNext | xsNextCas | xoNextCas | xsJump | xoJump | xsJumpCas | xoJumpCas => rfl

/-- A literal below 2^64 is the value of its operand (R67). -/
theorem map_toNat_ofNat {ns : List Nat} (h : ∀ n ∈ ns, n < 2 ^ 64) :
    ns.map (fun n => (BitVec.ofNat 64 n).toNat) = ns :=
  (List.map_congr_left fun n hn => Nat.mod_eq_of_lt (h n hn)).trans ns.map_id

theorem assemble_seed (j : Nat) {n0 n1 n2 : Nat} (h : ∀ n ∈ [n0, n1, n2], n < 2 ^ 64) :
    assemble ⟨j, .seed, [n0, n1, n2]⟩ =
      some (.seed 0 (BitVec.ofNat 64 n0) (BitVec.ofNat 64 n1) (BitVec.ofNat 64 n2)) :=
  if_pos (by simpa using h)

/-- A line of a NEXT or JUMP command: its one literal is the address. -/
theorem assemble_of_ne_seed (j : Nat) {m : Mnemonic} (hm : m ≠ .seed) {n : Nat} (hn : n < 2 ^ 64) :
    ∃ i, assemble ⟨j, m, [n]⟩ = some i ∧ i.mnemonic = m ∧ i.asmForm = true ∧ i.addr = BitVec.ofNat 64 n := by
  have hall : [n].all (fun n => decide (n < 2 ^ 64)) = true := by simpa using hn
  cases m with
  | seed => exact absurd rfl hm
  | xsNext | xoNext | xsNextCas | xoNextCas | xsJump | xoJump | xsJumpCas | xoJumpCas =>
    exact ⟨_, if_pos hall, rfl, rfl, rfl⟩

end Sys2Proof.Machine

namespace Sys2Proof.Proofs

open Sys2Proof Sys2Proof.Machine

/-- Settles O1: a command's word has the command's kind and FAM bit, and each of the ten legal words is the one
its command is encoded with. -/
theorem decodeAndEncodeAreInverse : Obligations.DecodeAndEncodeAreInverse :=
  ⟨decode_encode, fun _ _ => encode_of_decode⟩

/-- Settles O2: a legal request is the encoding of its command, and a word with a reserved bit matches no
row. -/
theorem opcodeMapSelectsTheCommandsRow : Obligations.OpcodeMapSelectsTheCommandsRow := by
  refine ⟨opcodeTable_eq, fun r => ⟨fun i h => ?_, fun e h => selectedRows_of_error (decode_error h)⟩⟩
  rw [← encode_of_decode h]
  exact selectedRows_encode i

/-- Settles O3: above 0xF a reserved bit is set, the sixteen words below are looked at one by one, and an illegal
request's accept step is the fault entry. -/
theorem reservedWordsAreIllegal : Obligations.ReservedWordsAreIllegal := by
  refine ⟨decodeCmd_error_iff, fun s a r e h hq he => ?_, fun addr opa opb => ⟨?_, ?_⟩, by decide⟩
  · rw [activeStep_illegal h hq he]
    rfl
  · exact decode_encode (.seed 1 addr opa opb)
  · exact decode_encode (.seed 0 addr opa opb)

/-- Settles O5: a `seed` line has three literals, any other line one. -/
theorem wellFormedLinesAssemble : Obligations.WellFormedLinesAssemble := by
  rintro p ⟨j, m, operands⟩ h
  obtain ⟨-, hlen, hlt⟩ := asmLine_wf_iff.mp h
  by_cases hm : m = .seed
  · subst hm
    obtain ⟨n0, n1, n2, rfl⟩ := List.length_eq_three.mp hlen
    exact ⟨_, assemble_seed j hlt, rfl, rfl, .inr ⟨rfl, (map_toNat_ofNat hlt).symm⟩⟩
  · obtain ⟨n, rfl⟩ := List.length_eq_one_iff.mp (hlen.trans (arity_of_ne_seed hm))
    obtain ⟨i, hi, hmnemonic, hform, haddr⟩ := assemble_of_ne_seed j hm (hlt n (List.mem_singleton_self n))
    exact ⟨i, hi, hmnemonic, hform, .inl (by rw [haddr]; exact (map_toNat_ofNat hlt).symm)⟩

/-- Settles O4: the four words are those the commands are encoded with. -/
theorem commandWordsDecode : Obligations.CommandWordsDecode := fun addr opa opb =>
  ⟨decode_encode (.seed 0 addr opa opb), decode_encode (.xoNext addr opa opb),
    decode_encode (.xsNextCas addr opa opb), decode_encode (.xoJumpCas addr opa opb)⟩

end Sys2Proof.Proofs
end

section
/-! PROOFS. The transitions as linear maps of the States over GF(2): one to one and onto, and annihilated by the
polynomials of R87. -/

namespace Sys2Proof.Machine

open Sys2Proof

/-! ### The word operations of the transitions (R6) -/

theorem rotl_eq_rotateLeft (v : Word) {k : Nat} (hk : k < 64) : rotl v k = v.rotateLeft k := by
  rw [BitVec.rotateLeft_def, Nat.mod_eq_of_lt hk]
  rfl

theorem rotl_xor (x y : Word) {k : Nat} (hk : k < 64) : rotl (x ^^^ y) k = rotl x k ^^^ rotl y k := by
  simp only [rotl_eq_rotateLeft _ hk]
  ext i hi
  simp only [BitVec.getElem_xor, BitVec.getElem_rotateLeft]
  split <;> rfl

theorem rotl_rotl (v : Word) {k : Nat} (h0 : 0 < k) (hk : k < 64) : rotl (rotl v k) (64 - k) = v := by
  rw [rotl_eq_rotateLeft _ hk, rotl_eq_rotateLeft _ (by omega)]
  ext i hi
  simp only [BitVec.getElem_rotateLeft, Nat.mod_eq_of_lt hk, Nat.mod_eq_of_lt (show 64 - k < 64 by omega)]
  by_cases hik : i < 64 - k
  · rw [dif_pos hik, dif_neg (by omega)]
    congr 1
    omega
  · rw [dif_neg hik, dif_pos (by omega)]
    congr 1
    omega

theorem rotl_injective {k : Nat} (h0 : 0 < k) (hk : k < 64) : Function.Injective (rotl · k) := fun x y h => by
  rw [← rotl_rotl x h0 hk, ← rotl_rotl y h0 hk]
  exact congrArg (rotl · (64 - k)) h

/-- Each bit of the word is fixed by the same bit of the result and a lower bit of the word. -/
theorem xor_shiftLeft_injective {w k : Nat} (hk : 0 < k) :
    Function.Injective fun x : BitVec w => x ^^^ (x <<< k) := by
  intro x y h
  have hbits : ∀ i, x.getLsbD i = y.getLsbD i := by
    intro i
    induction i using Nat.strong_induction_on with
    | _ i ih =>
      have hi : (x ^^^ (x <<< k)).getLsbD i = (y ^^^ (y <<< k)).getLsbD i := congrArg (BitVec.getLsbD · i) h
      have hlow : (x <<< k).getLsbD i = (y <<< k).getLsbD i := by
        simp only [BitVec.getLsbD_shiftLeft]
        by_cases hik : i < k
        · simp [hik]
        · rw [ih (i - k) (by omega)]
      rwa [BitVec.getLsbD_xor, BitVec.getLsbD_xor, hlow, Bool.xor_left_inj] at hi
  exact BitVec.eq_of_getLsbD_eq fun i _ => hbits i

/-- Each bit of the word is fixed by the same bit of the result and a higher bit of the word. -/
theorem xor_ushiftRight_injective {w k : Nat} (hk : 0 < k) :
    Function.Injective fun x : BitVec w => x ^^^ (x >>> k) := by
  intro x y h
  have hbits : ∀ d i, w ≤ i + d → x.getLsbD i = y.getLsbD i := by
    intro d
    induction d with
    | zero => intro i hi; rw [BitVec.getLsbD_of_ge x i hi, BitVec.getLsbD_of_ge y i hi]
    | succ d ih =>
      intro i hi
      have hx : (x ^^^ (x >>> k)).getLsbD i = (y ^^^ (y >>> k)).getLsbD i := congrArg (BitVec.getLsbD · i) h
      simp only [BitVec.getLsbD_xor, BitVec.getLsbD_ushiftRight] at hx
      rwa [ih (k + i) (by omega), Bool.xor_left_inj] at hx
  exact BitVec.eq_of_getLsbD_eq fun i _ => hbits w i (by omega)

/-- Every word is an exclusive or of powers of two. -/
theorem word_induction {P : Word → Prop} (zero : P 0) (xor : ∀ x y, P x → P y → P (x ^^^ y))
    (bit : ∀ i < 64, P (BitVec.twoPow 64 i)) (x : Word) : P x := by
  have low : ∀ n ≤ 64, P ((x.setWidth n).setWidth 64) := by
    intro n hn
    induction n with
    | zero => rwa [BitVec.of_length_zero (x := x.setWidth 0)]
    | succ n ih =>
      have ih := ih (by omega)
      cases hb : x.getLsbD n with
      | true =>
        have hadd : (x.setWidth (n + 1)).setWidth 64 = (x.setWidth n).setWidth 64 ^^^ BitVec.twoPow 64 n := by
          rw [BitVec.setWidth_setWidth_succ_eq_setWidth_setWidth_or_twoPow_of_getLsbD_true hb]
          ext i hi
          by_cases hin : i = n <;> simp [BitVec.getElem_twoPow, hin]
        rw [hadd]
        exact xor _ _ ih (bit n (by omega))
      | false => rwa [BitVec.setWidth_setWidth_succ_eq_setWidth_setWidth_of_getLsbD_false hb]
  simpa using low 64 (Nat.le_refl 64)

theorem word_xor_xor_xor_comm (a b c d : Word) : (a ^^^ b) ^^^ (c ^^^ d) = (a ^^^ c) ^^^ (b ^^^ d) := by
  ac_rfl

theorem GenState.xor_xor_xor_comm (a b c d : GenState) : (a.xor b).xor (c.xor d) = (a.xor c).xor (b.xor d) :=
  congrArg₂ GenState.mk (word_xor_xor_xor_comm ..) (word_xor_xor_xor_comm ..)

/-! ### The state part of a transition (R81, R83, R85 to R87) -/

theorem transState_a (x y : Word) : transState .a ⟨x, y⟩ =
    ⟨y, (x ^^^ x <<< 23) ^^^ y ^^^ (x ^^^ x <<< 23) >>> 18 ^^^ y >>> 5⟩ := rfl

theorem transState_b (x y : Word) : transState .b ⟨x, y⟩ =
    ⟨rotl x 55 ^^^ (y ^^^ x) ^^^ (y ^^^ x) <<< 14, rotl (y ^^^ x) 36⟩ := rfl

theorem transState_zero (f : Family) : transState f ⟨0, 0⟩ = ⟨0, 0⟩ := by
  cases f <;> decide

/-- Every operation of the state part distributes over the exclusive or (R86). -/
theorem transState_xor (f : Family) (x y : GenState) :
    transState f (x.xor y) = (transState f x).xor (transState f y) := by
  obtain ⟨x0, x1⟩ := x
  obtain ⟨y0, y1⟩ := y
  cases f with
  | a =>
    have ht : (x0 ^^^ y0) ^^^ ((x0 ^^^ y0) <<< 23) = (x0 ^^^ x0 <<< 23) ^^^ (y0 ^^^ y0 <<< 23) := by
      rw [BitVec.shiftLeft_xor_distrib, word_xor_xor_xor_comm]
    simp only [GenState.xor, transState_a, ht]
    refine congrArg (GenState.mk _) ?_
    generalize x0 ^^^ x0 <<< 23 = tx, y0 ^^^ y0 <<< 23 = ty
    rw [BitVec.ushiftRight_xor_distrib, BitVec.ushiftRight_xor_distrib, word_xor_xor_xor_comm tx,
      word_xor_xor_xor_comm (tx ^^^ x1), word_xor_xor_xor_comm]
  | b =>
    simp only [GenState.xor, transState_b]
    rw [word_xor_xor_xor_comm x1, rotl_xor x0 y0 (by decide), rotl_xor _ _ (by decide),
      BitVec.shiftLeft_xor_distrib, word_xor_xor_xor_comm (rotl x0 55), word_xor_xor_xor_comm]

/-- The words are recovered one after the other: in Family A first `s1`, then `t`, then `s0`; in Family B first
`u`, then `s0`, then `s1`. -/
theorem transState_injective (f : Family) : Function.Injective (transState f) := by
  rintro ⟨x0, x1⟩ ⟨y0, y1⟩ h
  cases f with
  | a =>
    rw [transState_a, transState_a] at h
    obtain ⟨h0 : x1 = y1, h1⟩ := GenState.mk.inj h
    subst h0
    have ht : x0 ^^^ x0 <<< 23 = y0 ^^^ y0 <<< 23 := by
      have hlast (v w : Word) : v ^^^ x1 ^^^ w = v ^^^ w ^^^ x1 := by ac_rfl
      rw [BitVec.xor_left_inj, hlast, hlast, BitVec.xor_left_inj] at h1
      exact xor_ushiftRight_injective (by decide) h1
    rw [show x0 = y0 from xor_shiftLeft_injective (by decide) ht]
  | b =>
    rw [transState_b, transState_b] at h
    obtain ⟨h0, h1⟩ := GenState.mk.inj h
    have hu : x1 ^^^ x0 = y1 ^^^ y0 := rotl_injective (by decide) (by decide) h1
    simp only [hu, BitVec.xor_left_inj] at h0
    have hx : x0 = y0 := rotl_injective (by decide) (by decide) h0
    subst hx
    rw [(BitVec.xor_left_inj x0).mp hu]

theorem genState_finite : Finite GenState :=
  Finite.of_injective (fun s => (s.s0, s.s1)) fun _ _ h =>
    congrArg (fun p : Word × Word => GenState.mk p.1 p.2) h

theorem transState_bijective (f : Family) : Function.Bijective (transState f) :=
  have := genState_finite
  Finite.injective_iff_bijective.mp (transState_injective f)

/-! ### The jump of the zero State (R85, R91) -/

theorem jumpAfter_zeroState (f : Family) (n : Nat) : jumpAfter f ⟨0, 0⟩ n = ⟨⟨0, 0⟩, ⟨0, 0⟩⟩ := by
  induction n with
  | zero => rfl
  | succ n ih => simp only [jumpAfter, jumpIteration, ih, GenState.xor_self, transState_zero, ite_self]

/-! ### COMPUTE of a NEXT (R116) -/

theorem exec_compute_next {i : Instr} {s : State} {a : Agent} (h : ActiveIn s .compute a)
    (hk : i.kind.op = .next) : exec i s = .next (s.setActive (computedNext i.kind a)) :=
  exec_of_case h.1 (.computesNext h.2 hk)

/-! ### Sums of iterates -/

theorem iterate_transState_xor (f : Family) (k : Nat) (x y : GenState) :
    (transState f)^[k] (x.xor y) = ((transState f)^[k] x).xor ((transState f)^[k] y) :=
  Function.Semiconj₂.iterate (transState_xor f) k x y

/-- The exclusive or of the iterates `T^k(s)` over a list of `k`: a polynomial over GF(2) in the transition. -/
def iterateSum (f : Family) (ks : List Nat) (s : GenState) : GenState :=
  ks.foldl (fun acc k => acc.xor ((transState f)^[k] s)) ⟨0, 0⟩

theorem foldl_iterates (f : Family) (s acc : GenState) (ks : List Nat) :
    ks.foldl (fun acc k => acc.xor ((transState f)^[k] s)) acc = acc.xor (iterateSum f ks s) := by
  unfold iterateSum
  induction ks generalizing acc with
  | nil => exact acc.xor_zero.symm
  | cons k ks ih =>
    rw [List.foldl_cons, List.foldl_cons, ih, ih (GenState.xor ⟨0, 0⟩ _), GenState.zero_xor, GenState.xor_assoc]

@[simp] theorem iterateSum_nil (f : Family) (s : GenState) : iterateSum f [] s = ⟨0, 0⟩ := rfl

theorem iterateSum_cons (f : Family) (k : Nat) (ks : List Nat) (s : GenState) :
    iterateSum f (k :: ks) s = ((transState f)^[k] s).xor (iterateSum f ks s) := by
  rw [iterateSum, List.foldl_cons, GenState.zero_xor, foldl_iterates]

theorem iterateSum_xor (f : Family) (ks : List Nat) (x y : GenState) :
    iterateSum f ks (x.xor y) = (iterateSum f ks x).xor (iterateSum f ks y) := by
  induction ks with
  | nil => simp only [iterateSum_nil, GenState.xor_self]
  | cons k ks ih =>
    rw [iterateSum_cons, iterateSum_cons, iterateSum_cons, ih, iterate_transState_xor, GenState.xor_xor_xor_comm]

theorem iterateSum_transState (f : Family) (ks : List Nat) (s : GenState) :
    iterateSum f ks (transState f s) = transState f (iterateSum f ks s) := by
  induction ks with
  | nil => rw [iterateSum_nil, iterateSum_nil, transState_zero]
  | cons k ks ih => rw [iterateSum_cons, iterateSum_cons, ih, transState_xor, Function.Commute.iterate_self]

theorem iterateSum_map_succ (f : Family) (ks : List Nat) (s : GenState) :
    iterateSum f (ks.map Nat.succ) s = transState f (iterateSum f ks s) := by
  rw [iterateSum, List.foldl_map, ← iterateSum_transState]
  rfl

theorem iterateSum_filter_zero_cons (f : Family) (p : Nat → Bool) (ks : List Nat) (s : GenState) :
    iterateSum f ((0 :: ks).filter p) s =
      if p 0 then s.xor (iterateSum f (ks.filter p) s) else iterateSum f (ks.filter p) s := by
  rw [List.filter_cons, apply_ite (iterateSum f · s), iterateSum_cons, Function.iterate_zero_apply]

/-- A State before one of the form (z, 0) can have any second word, so the States (x, 0) and those before them span
all States. -/
theorem exists_transState_snd_zero (f : Family) (y : Word) : ∃ x z, transState f ⟨x, y⟩ = ⟨z, 0⟩ := by
  cases f with
  | a =>
    obtain ⟨⟨x, w⟩, h⟩ := (transState_bijective .a).surjective ⟨y, 0⟩
    obtain rfl : w = y := congrArg GenState.s0 h
    exact ⟨x, w, h⟩
  | b =>
    refine ⟨y, _, congrArg (GenState.mk _) (show rotl (y ^^^ y) 36 = 0 from ?_)⟩
    rw [BitVec.xor_self]
    decide

/-- A sum of iterates that is zero at the States with one bit set, in the first word, is zero at every State: it is
linear and commutes with the transition. -/
theorem iterateSum_eq_zero {f : Family} {ks : List Nat}
    (hbit : ∀ i < 64, iterateSum f ks ⟨BitVec.twoPow 64 i, 0⟩ = ⟨0, 0⟩) (s : GenState) :
    iterateSum f ks s = ⟨0, 0⟩ := by
  have zero : iterateSum f ks ⟨0, 0⟩ = ⟨0, 0⟩ := by
    have h := iterateSum_xor f ks ⟨0, 0⟩ ⟨0, 0⟩
    rwa [GenState.xor_self, GenState.xor_self] at h
  have fst (x : Word) : iterateSum f ks ⟨x, 0⟩ = ⟨0, 0⟩ := by
    induction x using word_induction with
    | zero => exact zero
    | bit i hi => exact hbit i hi
    | xor x y hx hy =>
      have hs : (⟨x ^^^ y, 0⟩ : GenState) = GenState.xor ⟨x, 0⟩ ⟨y, 0⟩ := by simp [GenState.xor]
      rw [hs, iterateSum_xor, hx, hy, GenState.xor_self]
  obtain ⟨x, y⟩ := s
  obtain ⟨x', z, h⟩ := exists_transState_snd_zero f y
  have hy : iterateSum f ks ⟨x', y⟩ = ⟨0, 0⟩ := by
    apply transState_injective f
    rw [← iterateSum_transState, h, fst, transState_zero]
  have hs : (⟨x, y⟩ : GenState) = GenState.xor ⟨x ^^^ x', 0⟩ ⟨x', y⟩ := by
    simp [GenState.xor]
  rw [hs, iterateSum_xor, fst, hy, GenState.xor_self]

/-! ### The same sums on natural numbers, where `decide` evaluates them fast -/

/-- The two words as natural numbers. -/
def GenState.toNats (s : GenState) : Nat × Nat := (s.s0.toNat, s.s1.toNat)

theorem GenState.toNats_xor (s t : GenState) :
    (s.xor t).toNats = (s.toNats.1 ^^^ t.toNats.1, s.toNats.2 ^^^ t.toNats.2) := by
  simp [GenState.toNats, GenState.xor]

theorem GenState.eq_zero_of_toNats {s : GenState} (h : s.toNats = (0, 0)) : s = ⟨0, 0⟩ :=
  congrArg₂ GenState.mk (BitVec.eq_of_toNat_eq (congrArg Prod.fst h)) (BitVec.eq_of_toNat_eq (congrArg Prod.snd h))

/-- `T_F(s).state` (R81, R83) of the words as natural numbers. -/
def transNats : Family → Nat × Nat → Nat × Nat
  | .a, (x, y) =>
    let t := x ^^^ x <<< 23 % 2 ^ 64
    (y, t ^^^ y ^^^ t >>> 18 ^^^ y >>> 5)
  | .b, (x, y) =>
    let u := y ^^^ x
    ((x <<< 55 % 2 ^ 64 ||| x >>> 9) ^^^ u ^^^ u <<< 14 % 2 ^ 64, u <<< 36 % 2 ^ 64 ||| u >>> 28)

theorem toNats_transState (f : Family) (s : GenState) : (transState f s).toNats = transNats f s.toNats := by
  obtain ⟨x, y⟩ := s
  cases f with
  | a => simp [transState_a, GenState.toNats, transNats]
  | b => simp [transState_b, rotl, GenState.toNats, transNats]

/-- The polynomial whose coefficients are the low `n` bits of `p`, by Horner's scheme. -/
def hornerNats (f : Family) (s : Nat × Nat) : Nat → Nat → Nat × Nat
  | _, 0 => (0, 0)
  | p, n + 1 =>
    let r := transNats f (hornerNats f s (p / 2) n)
    if p.testBit 0 then (s.1 ^^^ r.1, s.2 ^^^ r.2) else r

theorem toNats_iterateSum (f : Family) (s : GenState) (p n : Nat) :
    (iterateSum f ((List.range n).filter (p.testBit ·)) s).toNats = hornerNats f s.toNats p n := by
  induction n generalizing p with
  | zero => rfl
  | succ n ih =>
    have hshift : (p.testBit ·) ∘ Nat.succ = ((p / 2).testBit ·) := funext (Nat.testBit_succ p)
    rw [List.range_succ_eq_map, iterateSum_filter_zero_cons, List.filter_map, hshift, iterateSum_map_succ,
      apply_ite GenState.toNats, GenState.toNats_xor, toNats_transState, ih, hornerNats]

/-! ### The polynomials of R87 -/

/-- The polynomials of R87 with their x^128 term, the coefficient of x^i at bit i. -/
def charPoly : Family → Nat
  | .a => 0x12844c5d42caf7db0024f06fae9e61daf
  | .b => 0x100653ced7f29f88a5fd66762f0e1c001

set_option maxRecDepth 20000 in
theorem hornerNats_charPoly_a : ∀ i < 64, hornerNats .a (2 ^ i, 0) (charPoly .a) 129 = (0, 0) := by decide

set_option maxRecDepth 20000 in
theorem hornerNats_charPoly_b : ∀ i < 64, hornerNats .b (2 ^ i, 0) (charPoly .b) 129 = (0, 0) := by decide

theorem charPoly_annihilates (f : Family) (s : GenState) :
    iterateSum f ((List.range 129).filter ((charPoly f).testBit ·)) s = ⟨0, 0⟩ := by
  refine iterateSum_eq_zero (fun i hi => GenState.eq_zero_of_toNats ?_) s
  have hword : GenState.toNats ⟨BitVec.twoPow 64 i, 0⟩ = (2 ^ i, 0) :=
    congrArg (·, 0) (BitVec.toNat_twoPow_of_lt hi)
  rw [toNats_iterateSum, hword]
  cases f with
  | a => exact hornerNats_charPoly_a i hi
  | b => exact hornerNats_charPoly_b i hi

end Sys2Proof.Machine

namespace Sys2Proof.Proofs

open Sys2Proof Sys2Proof.Machine

/-- Settles O47: the state part is made of operations that distribute over the exclusive or, and the carry of the
output's addition shows in the States (1, 0) and (0, 1). -/
theorem transitionIsLinear : Obligations.TransitionIsLinear := fun f =>
  ⟨transState_xor f, ⟨1, 0⟩, ⟨0, 1⟩, by cases f <;> decide⟩

/-- Settles O48: the state part is one to one, and the States are finitely many. -/
theorem transitionIsInvertible : Obligations.TransitionIsInvertible := transState_bijective

/-- Settles O49: the sum of iterates is linear and commutes with the transition, so the States with one bit set in
the first word decide it. -/
theorem characteristicPolynomialAnnihilates : Obligations.CharacteristicPolynomialAnnihilates := by
  intro f s
  cases f with
  | a => exact charPoly_annihilates .a s
  | b => exact charPoly_annihilates .b s

/-- Settles O11: the step is the COMPUTE of a NEXT, whose Family A transition is the formula. -/
theorem computeAppliesFamilyA : Obligations.ComputeAppliesFamilyA := fun _ _ _ _ _ h =>
  ⟨exec_compute_next h rfl, exec_compute_next h rfl⟩

/-- Settles O12: the step is the COMPUTE of a NEXT, whose Family B transition is the formula. -/
theorem computeAppliesFamilyB : Obligations.ComputeAppliesFamilyB := fun _ _ _ _ _ h =>
  ⟨exec_compute_next h rfl, exec_compute_next h rfl⟩

/-- Settles O46: the transitions are evaluated at the zero State, and the jump's loop adds and advances nothing
else. -/
theorem zeroStateIsFixed : Obligations.ZeroStateIsFixed := fun f =>
  ⟨by cases f <;> decide, congrArg JumpRegs.acc (jumpAfter_zeroState f 128)⟩

end Sys2Proof.Proofs
end

section
/-! PROOFS. The Jump Engine: its loop sums the iterates of the transition that the masks select, so the jump is a
polynomial over GF(2) in the transition; and the masks are x^(2^64) modulo the polynomial of R87. -/

namespace Sys2Proof.Machine

open Sys2Proof

/-! ### Sums of iterates by their last term and by their coefficients -/

theorem GenState.xor_cancel_left (x y : GenState) : x.xor (x.xor y) = y := by
  rw [← GenState.xor_assoc, GenState.xor_self, GenState.zero_xor]

theorem GenState.eq_of_xor_eq_zero {x y : GenState} (h : x.xor y = ⟨0, 0⟩) : x = y := by
  rw [← GenState.xor_cancel_left x y, h, GenState.xor_zero]

theorem iterateSum_append (f : Family) (ks ls : List Nat) (s : GenState) :
    iterateSum f (ks ++ ls) s = (iterateSum f ks s).xor (iterateSum f ls s) := by
  rw [iterateSum, List.foldl_append, foldl_iterates]
  rfl

theorem iterateSum_filter_range_succ (f : Family) (p : Nat → Bool) (n : Nat) (s : GenState) :
    iterateSum f ((List.range (n + 1)).filter p) s =
      (iterateSum f ((List.range n).filter p) s).xor (if p n then (transState f)^[n] s else ⟨0, 0⟩) := by
  rw [List.range_succ, List.filter_append, iterateSum_append]
  congr 1
  cases hp : p n with
  | true => rw [List.filter_cons_of_pos hp]; exact GenState.zero_xor _
  | false => rw [List.filter_cons_of_neg (ne_true_of_eq_false hp)]; rfl

theorem iterateSum_filter_cons (f : Family) (p : Nat → Bool) (k : Nat) (ks : List Nat) (s : GenState) :
    iterateSum f ((k :: ks).filter p) s =
      (if p k then (transState f)^[k] s else ⟨0, 0⟩).xor (iterateSum f (ks.filter p) s) := by
  cases hp : p k with
  | true => rw [List.filter_cons_of_pos hp, iterateSum_cons, if_pos rfl]
  | false => rw [List.filter_cons_of_neg (ne_true_of_eq_false hp)]; exact (GenState.zero_xor _).symm

/-- Coefficients add over GF(2): a term selected by both sides cancels. -/
theorem iterateSum_filter_xor (f : Family) (p q : Nat → Bool) (ks : List Nat) (s : GenState) :
    iterateSum f (ks.filter fun k => p k ^^ q k) s =
      (iterateSum f (ks.filter p) s).xor (iterateSum f (ks.filter q) s) := by
  induction ks with
  | nil => exact (GenState.xor_self _).symm
  | cons k ks ih =>
    have hterm (t : GenState) : (if p k ^^ q k then t else ⟨0, 0⟩) =
        (if p k then t else ⟨0, 0⟩).xor (if q k then t else ⟨0, 0⟩) := by
      cases p k <;> cases q k <;> simp [GenState.xor]
    rw [iterateSum_filter_cons, iterateSum_filter_cons, iterateSum_filter_cons, ih, hterm,
      GenState.xor_xor_xor_comm]

/-- Horner's rule: the constant term, and the transition of the polynomial of the other coefficients. -/
theorem iterateSum_testBit_succ (f : Family) (q n : Nat) (s : GenState) :
    iterateSum f ((List.range (n + 1)).filter (q.testBit ·)) s =
      (if q.testBit 0 then s else ⟨0, 0⟩).xor
        (transState f (iterateSum f ((List.range n).filter ((q / 2).testBit ·)) s)) := by
  have hshift : (q.testBit ·) ∘ Nat.succ = ((q / 2).testBit ·) := funext (Nat.testBit_succ q)
  rw [List.range_succ_eq_map, iterateSum_filter_cons, List.filter_map, hshift, iterateSum_map_succ,
    Function.iterate_zero_apply]

/-! ### The registers of the loop (R91, R94) -/

theorem jumpAfter_w (f : Family) (s : GenState) (n : Nat) : (jumpAfter f s n).w = (transState f)^[n] s := by
  induction n with
  | zero => rfl
  | succ n ih => rw [jumpAfter_succ_w, ih, Function.iterate_succ_apply']

theorem jumpAfter_acc (f : Family) (s : GenState) (n : Nat) :
    (jumpAfter f s n).acc = iterateSum f ((List.range n).filter (jumpBit f)) s := by
  induction n with
  | zero => rfl
  | succ n ih =>
    rw [jumpAfter_succ_acc, iterateSum_filter_range_succ, ih, jumpAfter_w]
    split
    · rfl
    · rw [GenState.xor_zero]

theorem jump_eq_iterateSum (f : Family) (s : GenState) :
    jump f s = iterateSum f ((List.range 128).filter (jumpBit f)) s := jumpAfter_acc f s 128

theorem jumpBit_eq (f : Family) (k : Nat) :
    jumpBit f k = (if k < 64 then jumpMask0 f else jumpMask1 f).getLsbD (k % 64) := by
  simp only [jumpBit, Nat.div_eq_zero_iff_lt (show 0 < 64 by decide)]

/-! ### Polynomials modulo that of R87, applied to the transition -/

/-- The polynomial of degree below 128 whose coefficient of x^i is bit i of `q`, applied to the transition. -/
def polyApply (f : Family) (q : Nat) (s : GenState) : GenState :=
  iterateSum f ((List.range 128).filter (q.testBit ·)) s

@[simp] theorem polyApply_zero (f : Family) (s : GenState) : polyApply f 0 s = ⟨0, 0⟩ := by
  simp [polyApply]

theorem polyApply_xor (f : Family) (q r : Nat) (s : GenState) :
    polyApply f (q ^^^ r) s = (polyApply f q s).xor (polyApply f r s) := by
  simp only [polyApply, Nat.testBit_xor, iterateSum_filter_xor]

theorem polyApply_two (f : Family) (s : GenState) : polyApply f 2 s = transState f s := by
  have hbits : (List.range 128).filter (Nat.testBit 2 ·) = [1] := by decide
  rw [polyApply, hbits, iterateSum_cons]
  exact GenState.xor_zero _

/-- A coefficient times a polynomial, as the arithmetic of natural numbers that `mulX` and `mulPoly` use. -/
theorem polyApply_bit_mul (f : Family) (q k r : Nat) (s : GenState) :
    polyApply f (q / 2 ^ k % 2 * r) s = if q.testBit k then polyApply f r s else ⟨0, 0⟩ := by
  rw [← Nat.toNat_testBit]
  cases q.testBit k with
  | true => rw [Bool.toNat_true, Nat.one_mul, if_pos rfl]
  | false => rw [Bool.toNat_false, Nat.zero_mul, polyApply_zero, if_neg Bool.false_ne_true]

/-- Modulo the polynomial of R87, x^128 is the rest of that polynomial. -/
theorem polyApply_charPoly (f : Family) (s : GenState) : polyApply f (charPoly f) s = (transState f)^[128] s := by
  have h := charPoly_annihilates f s
  rw [iterateSum_filter_range_succ, if_pos (by cases f <;> decide)] at h
  exact GenState.eq_of_xor_eq_zero h

/-- The polynomial `q` times x, modulo the polynomial of R87. -/
def mulX (f : Family) (q : Nat) : Nat := 2 * q ^^^ q / 2 ^ 127 % 2 * charPoly f

theorem polyApply_mulX (f : Family) (q : Nat) (s : GenState) :
    polyApply f (mulX f q) s = transState f (polyApply f q s) := by
  have hlast : (2 * q).testBit 128 = q.testBit 127 := by simp [Nat.testBit_succ]
  have hfirst : (2 * q).testBit 0 = false := by simp
  calc polyApply f (mulX f q) s
    _ = (polyApply f (2 * q) s).xor (if q.testBit 127 then (transState f)^[128] s else ⟨0, 0⟩) := by
      rw [mulX, polyApply_xor, polyApply_bit_mul, polyApply_charPoly]
    _ = iterateSum f ((List.range 129).filter ((2 * q).testBit ·)) s := by
      rw [iterateSum_filter_range_succ, hlast, polyApply]
    _ = transState f (polyApply f q s) := by
      rw [iterateSum_testBit_succ, hfirst, Nat.mul_div_cancel_left q (by decide), if_neg Bool.false_ne_true,
        GenState.zero_xor, polyApply]

/-- The polynomial `r` times the low `n` bits of `q`, modulo the polynomial of R87, by Horner's rule. -/
def mulPoly (f : Family) (r : Nat) : Nat → Nat → Nat
  | _, 0 => 0
  | q, n + 1 => q % 2 * r ^^^ mulX f (mulPoly f r (q / 2) n)

theorem polyApply_mulPoly (f : Family) (r q n : Nat) (s : GenState) :
    polyApply f (mulPoly f r q n) s = iterateSum f ((List.range n).filter (q.testBit ·)) (polyApply f r s) := by
  induction n generalizing q with
  | zero => exact polyApply_zero f s
  | succ n ih =>
    have hbit : polyApply f (q % 2 * r) s = if q.testBit 0 then polyApply f r s else ⟨0, 0⟩ := by
      rw [← polyApply_bit_mul, Nat.pow_zero, Nat.div_one]
    rw [mulPoly, polyApply_xor, hbit, polyApply_mulX, ih, iterateSum_testBit_succ]

/-- x^(2^m) modulo the polynomial of R87, by repeated squaring. -/
def xPowTwoPow (f : Family) : Nat → Nat
  | 0 => 2
  | m + 1 => mulPoly f (xPowTwoPow f m) (xPowTwoPow f m) 128

theorem polyApply_xPowTwoPow (f : Family) (m : Nat) (s : GenState) :
    polyApply f (xPowTwoPow f m) s = (transState f)^[2 ^ m] s := by
  induction m generalizing s with
  | zero => exact polyApply_two f s
  | succ m ih =>
    calc polyApply f (xPowTwoPow f (m + 1)) s
      _ = polyApply f (xPowTwoPow f m) (polyApply f (xPowTwoPow f m) s) := polyApply_mulPoly ..
      _ = (transState f)^[2 ^ (m + 1)] s := by
        rw [ih, ih, ← Function.iterate_add_apply, Nat.pow_succ, Nat.mul_two]

/-! ### The masks of R92 as a polynomial -/

/-- The masks of a family as one polynomial: bit b of mask m is the coefficient of x^(64m + b) (R92). -/
def jumpPoly (f : Family) : Nat := (jumpMask1 f ++ jumpMask0 f).toNat

theorem jumpBit_eq_testBit (f : Family) {k : Nat} (hk : k < 128) : jumpBit f k = (jumpPoly f).testBit k := by
  rw [jumpBit_eq, jumpPoly, BitVec.testBit_toNat, BitVec.getLsbD_append]
  split
  case isTrue h => rw [Nat.mod_eq_of_lt h]
  case isFalse h => rw [Nat.mod_eq_sub_mod (by omega), Nat.mod_eq_of_lt (by omega)]

theorem jump_eq_polyApply (f : Family) (s : GenState) : jump f s = polyApply f (jumpPoly f) s := by
  rw [jump_eq_iterateSum, polyApply, List.filter_congr fun k hk => jumpBit_eq_testBit f (List.mem_range.mp hk)]

set_option maxRecDepth 20000 in
theorem xPowTwoPow_64 (f : Family) : xPowTwoPow f 64 = jumpPoly f := by
  cases f <;> decide

theorem jump_eq_iterate (f : Family) (s : GenState) : jump f s = (transState f)^[2 ^ 64] s := by
  rw [jump_eq_polyApply, ← xPowTwoPow_64, polyApply_xPowTwoPow]

theorem jump_xor (f : Family) (x y : GenState) : jump f (x.xor y) = (jump f x).xor (jump f y) := by
  simp only [jump_eq_iterateSum, iterateSum_xor]

theorem jump_transState (f : Family) (s : GenState) : jump f (transState f s) = transState f (jump f s) := by
  simp only [jump_eq_iterateSum, iterateSum_transState]

theorem jump_injective (f : Family) : Function.Injective (jump f) := by
  rw [funext (jump_eq_iterate f)]
  exact (transState_injective f).iterate _

end Sys2Proof.Machine

namespace Sys2Proof.Proofs

open Sys2Proof Sys2Proof.Machine

/-- Settles O52: the masks are x^(2^64) modulo the polynomial that annihilates the transition, by 64 squarings of
x. -/
theorem jumpIsTwoPow64Transitions : Obligations.JumpIsTwoPow64Transitions := jump_eq_iterate

/-- Settles O50: the working copy is the iterate at each iteration, so the accumulator is their sum over the mask's
bits. -/
theorem jumpIsTheXorOfSelectedIterates : Obligations.JumpIsTheXorOfSelectedIterates := by
  intro f s
  refine ⟨fun k _ => jumpAfter_w f s k, ?_⟩
  rw [jump_eq_iterateSum, funext (jumpBit_eq f)]
  cases f <;> rfl

/-- Settles O51: a sum of iterates is linear and commutes with the transition, and 2^64 transitions, each one to one,
take no State but zero to zero. -/
theorem jumpIsLinearAndCommutes : Obligations.JumpIsLinearAndCommutes := fun f x y =>
  ⟨jump_xor f x y, jump_transState f x, (jump_injective f).eq_iff' (zeroStateIsFixed f).2⟩

end Sys2Proof.Proofs
end

section
/-! PROOFS. The steps of a command, phase by phase (R110 to R122): each is its case of `exec`, with the access that
the invariant admits. -/

namespace Sys2Proof.Machine

open Sys2Proof

/-! ### Accept (R110, R140 to R143) -/

/-- The check of R141 with its conditions as propositions, in R142's order. -/
theorem checkKind_eq (p : Params) (k : CommandKind) (a : Word) : checkKind p k a =
    if k.atomic = true ∧ p.hasCas128 = false then .casUnsupported
    else if k.atomic = true ∧ a.toNat % 16 ≠ 0 then .misaligned
    else if k.atomic = false ∧ a.toNat % 8 ≠ 0 then .misaligned
    else if cellAdmitted p a = false then .accessFault
    else .ok := by
  simp [checkKind, alignedTo]

/-- The code of a check that does not pass: the first fault of R142's order. -/
theorem checkKind_code {p : Params} {k : CommandKind} {a : Word} (h : checkKind p k a ≠ .ok) :
    (checkKind p k a).code =
      if k.atomic = true ∧ p.hasCas128 = false then 2
      else if k.atomic = true ∧ a.toNat % 16 ≠ 0 then 3
      else if k.atomic = false ∧ a.toNat % 8 ≠ 0 then 3
      else 4 := by
  rw [checkKind_eq] at h ⊢
  split_ifs at h ⊢
  case neg => exact absurd rfl h
  all_goals rfl

theorem accepted_fault {code : Status} (h : code ≠ .ok) (op : Operation) (r : Request) (a : Agent) :
    accepted op code r a = raiseFault code (latch r a) := if_neg h

theorem accepted_ok (op : Operation) (r : Request) (a : Agent) : accepted op .ok r a =
    { latch r a with
      outr := if op = .seed then 0 else a.outr
      phase := if op = .seed then .seedW0 else .rd0 } := by
  cases op <;> rfl

/-! ### The accesses of a phase (R112 to R115, R119, R120) -/

theorem exec_seedW0 {i : Instr} {s : State} {a : Agent} (h : ActiveIn s .seedW0 a) (hk : i.kind.op = .seed) :
    exec i s = seedW0Step s a := by rw [exec_seed h.1 hk, h.2]

theorem exec_seedW1 {i : Instr} {s : State} {a : Agent} (h : ActiveIn s .seedW1 a) (hk : i.kind.op = .seed) :
    exec i s = seedW1Step s a := by rw [exec_seed h.1 hk, h.2]

theorem exec_rd0 {i : Instr} {s : State} {a : Agent} (h : ActiveIn s .rd0 a) (hk : i.kind.op ≠ .seed) :
    exec i s = rd0Step s a := by rw [exec_update h.1 hk, h.2]

theorem exec_rd1 {i : Instr} {s : State} {a : Agent} (h : ActiveIn s .rd1 a) (hk : i.kind.op ≠ .seed) :
    exec i s = rd1Step s a := by rw [exec_update h.1 hk, h.2]

theorem exec_wr0 {i : Instr} {s : State} {a : Agent} (h : ActiveIn s .wr0 a) (hk : i.kind.op ≠ .seed)
    (hat : i.kind.atomic = false) : exec i s = wr0Step s a := by simp [exec_update h.1 hk, h.2, hat]

theorem exec_wr1 {i : Instr} {s : State} {a : Agent} (h : ActiveIn s .wr1 a) (hk : i.kind.op ≠ .seed)
    (hat : i.kind.atomic = false) : exec i s = wr1Step s a := by simp [exec_update h.1 hk, h.2, hat]

/-- What a step that writes the second word of a cell does (R45): its bytes start 8 behind the cell's first. -/
theorem writeStep_second_ok {addr v : Word} {a' : Agent} {s : State}
    (hs : (secondWord addr).toNat = addr.toNat + 8) (ok : wordAccessOk s.params (secondWord addr) = true)
    (hm : Memory.wf s.mem) : ∃ t, writeStep (secondWord addr) v a' s = .next t ∧ t.word (addr + 8) = v ∧
      SameOutside (addr.toNat + 8) 8 s t ∧ t.agents = s.agents.set s.active a' ∧
      t.order = .write (.agent s.active) (addr + 8) .w64 v :: s.order ∧ SameElse s t :=
  hs ▸ writeStep_ok ok hm

/-! ### The jump loop (R116, R117) -/

theorem exec_compute_jump {i : Instr} {s : State} {a : Agent} (h : ActiveIn s .compute a)
    (hk : i.kind.op = .jump) : exec i s = .next (s.setActive (computedJump a)) :=
  exec_of_case h.1 (.computesJump h.2 hk)

theorem exec_jiter {i : Instr} {s : State} {a : Agent} (h : ActiveIn s .jiter a) (hk : i.kind.op = .jump) :
    exec i s = .next (s.setActive (iterated i.kind a)) :=
  exec_of_case h.1 (.iterates h.2 hk)

/-- A JITER step with K below 128, register by register (R117). -/
theorem iterated_of_lt {k : CommandKind} {a : Agent} (h : a.k.toNat < 128) : iterated k a =
    { a with
      acc0 := if jumpBit k.family a.k.toNat then a.acc0 ^^^ a.w0 else a.acc0
      acc1 := if jumpBit k.family a.k.toNat then a.acc1 ^^^ a.w1 else a.acc1
      w0 := (transState k.family ⟨a.w0, a.w1⟩).s0
      w1 := (transState k.family ⟨a.w0, a.w1⟩).s1
      k := a.k + 1 } := by
  unfold iterated
  rw [if_pos h]
  cases hb : jumpBit k.family a.k.toNat <;> simp only [withJumpRegs, jumpIteration, jumpRegs, hb] <;> rfl

/-- The JITER step with K at 128 (R117). -/
theorem iterated_of_last {k : CommandKind} {a : Agent} (h : a.k = 128) :
    iterated k a = withCandidate k.atomic (jumpRegs a).acc 0 a := by
  unfold iterated
  rw [h, if_neg (by decide)]

/-- The agent after the 128 iterations of a jump of `g`. -/
def looped (f : Family) (g : GenState) (a : Agent) : Agent :=
  { withJumpRegs a (jumpAfter f g 128) with k := 128 }

/-- From the start of the loop, 129 JITER steps leave the jump in the candidate (R117). -/
theorem execTimes_jump {i : Instr} {s : State} {a : Agent} {g : GenState} (hk : i.kind.op = .jump)
    (h : ActiveIn s .jiter a) (h0 : a.k = 0) (hr : jumpRegs a = jumpStart g) : execTimes 129 i s =
      .next (s.setActive (withCandidate i.kind.atomic (jump i.kind.family g) 0 (looped i.kind.family g a))) := by
  have hloop : execTimes 128 i s = .next (s.setActive (looped i.kind.family g a)) :=
    execTimes_jiter hk h h0 hr 128 (Nat.le_refl _)
  have hin : ActiveIn (s.setActive (looped i.kind.family g a)) .jiter (looped i.kind.family g a) :=
    ⟨setActive_active h.1 _, h.2⟩
  rw [execTimes_add 128 1 i s _ hloop, execTimes_one (exec_jiter hin hk), iterated_of_last rfl, setActive_setActive]
  rfl

/-! ### The event of an agent's step (R111) -/

/-- The phases of the agents that make a memory event are the seven of R111, and the event is the agent's own. -/
theorem agentEvent_own {s : State} {a : Agent} {e : MemEvent} (h : agentEvent s a = some e) :
    a.phase ∈ [Phase.seedW0, .seedW1, .rd0, .rd1, .cas, .wr0, .wr1] ∧
      ((∃ addr v, e = .read (.agent s.active) addr .w64 v) ∨ (∃ addr v, e = .write (.agent s.active) addr .w64 v) ∨
        (∃ addr x n ok, e = .cas (.agent s.active) addr x n ok)) := by
  unfold agentEvent at h
  split at h <;> cases h <;> simp [*]

/-- An agent in CAS goes on to RESP or back to RD0, as the compare says (R118). -/
theorem ExecCase.phase_of_cas {k : CommandKind} {r : Request} {s t : State} {a : Agent} (hp : a.phase = .cas)
    (h : ExecCase k r s a t) :
    Updates (fun b => b.phase = if s.casSucceeds a.addrr (snapshot a) then .resp else .rd0) s t := by
  cases h
  case swaps => exact updates_casEvent (by rfl) _ _ _ _
  case waits hd => simp [enabled, hp] at hd
  -- every other case is of another phase
  all_goals simp_all

theorem perform_phase_of_cas {s t : State} {j : Nat} {a b : Agent} (h : perform (.agent j) s = .next t)
    (ha : s.agents[j]? = some a) (hb : t.agents[j]? = some b) (hp : a.phase = .cas) :
    b.phase = if s.casSucceeds a.addrr (snapshot a) then .resp else .rd0 := by
  obtain ⟨k, r, hc⟩ := perform_agent_case h ha (by simp [hp])
  exact (hc.phase_of_cas hp).active (s := { s with active := j }) ha hb

end Sys2Proof.Machine

namespace Sys2Proof.Proofs

open Sys2Proof Sys2Proof.Machine

/-- Settles O7: the check passes, so the accept step latches the request and goes to the first phase. -/
theorem acceptLatchesTheRequest : Obligations.AcceptLatchesTheRequest := by
  intro i s a q h hq hadm
  rw [exec_idle h hq, (checkKind_ok_iff _ _ _).mpr hadm, accepted_ok]
  rfl

/-- Settles O8: the check does not pass, so the accept step raises the fault of its code. -/
theorem acceptTakesTheFirstFault : Obligations.AcceptTakesTheFirstFault := by
  intro i s a q h hq hadm
  have hne : checkKind s.params i.kind i.addr ≠ .ok := fun hc => hadm ((checkKind_ok_iff _ _ _).mp hc)
  rw [exec_idle h hq, accepted_fault hne, ← checkKind_code hne]
  rfl

/-- Settles O9: the invariant admits both words of the cell of a SEED. -/
theorem seedWritesTheCell : Obligations.SeedWritesTheCell := by
  intro fam addr s0 s1 s a hi
  refine ⟨fun h => ?_, fun h => ?_⟩ <;> obtain ⟨k, -, hadm, -⟩ := command_of hi h rfl (by decide)
  · rw [exec_seedW0 h rfl]
    exact writeStep_ok hadm.firstOk hi.memory
  · rw [exec_seedW1 h rfl]
    exact writeStep_second_ok hadm.second_toNat hadm.secondOk hi.memory

/-- Settles O10: the invariant admits both words of the cell of a NEXT or a JUMP. -/
theorem snapshotReadsTheCell : Obligations.SnapshotReadsTheCell := by
  intro i s a hk hi
  refine ⟨fun h => ?_, fun h => ?_⟩ <;> obtain ⟨k, -, hadm, -⟩ := command_of hi h rfl (by decide)
  · rw [exec_rd0 h hk]
    exact readStep_ok hadm.firstOk
  · rw [exec_rd1 h hk]
    exact readStep_ok hadm.secondOk

/-- Settles O13: each JITER step is one iteration of the loop, and the loop's invariant carries the 129 of them. -/
theorem jumpIteratesOverItsMasks : Obligations.JumpIteratesOverItsMasks := by
  intro i s a hk
  dsimp only
  refine ⟨fun h => ?_, fun h hlt => ?_, fun h hlast => ?_, fun h h0 hacc0 hacc1 hw0 hw1 => ?_⟩
  · exact exec_compute_jump h hk
  · rw [exec_jiter h hk, iterated_of_lt hlt, jumpBit_eq]
    cases i.kind.family <;> rfl
  · rw [exec_jiter h hk, iterated_of_last hlast]
    rfl
  · have hr : jumpRegs a = jumpStart ⟨a.exp0, a.exp1⟩ := by
      simp only [jumpRegs, jumpStart, hacc0, hacc1, hw0, hw1]
    exact ⟨_, execTimes_jump hk h h0 hr⟩

/-- Settles O15, as the two writes of a SEED. -/
theorem unsharedCommitWritesTheCandidate : Obligations.UnsharedCommitWritesTheCandidate := by
  intro i s a hk hat hi
  refine ⟨fun h => ?_, fun h => ?_⟩ <;> obtain ⟨k, -, hadm, -⟩ := command_of hi h rfl (by decide)
  · rw [exec_wr0 h hk hat]
    exact writeStep_ok hadm.firstOk hi.memory
  · rw [exec_wr1 h hk hat]
    exact writeStep_second_ok hadm.second_toNat hadm.secondOk hi.memory

/-- Settles O16: RESP is one step for all commands, by RSP and FAULT. -/
theorem respondDeliversTheResult : Obligations.RespondDeliversTheResult := by
  intro i s a h
  rw [exec_resp h]
  refine ⟨fun hr hf => ?_, fun hr hf => ?_, fun r hr => ?_⟩
  · simp only [respStep, hr, responseOf, if_pos hf]
    rfl
  · simp only [respStep, hr, responseOf, if_neg hf]
  · simp only [respStep, hr]

/-- Settles O17: HALTED is one step for all commands, by REQ and RSP, and the machine's step in HALTED is that one. -/
theorem haltedAnswersWithItsFault : Obligations.HaltedAnswersWithItsFault := by
  intro i s a h
  have hstep : activeStep s = exec i s := by rw [activeStep_eq h.1, exec_halted h, h.2]
  refine ⟨fun q hq hr => ⟨?_, hstep⟩, fun hwait => ?_⟩
  · simp only [exec_halted h, haltedStep, hq, hr]
  · have hd : enabled a = false := by
      simp only [enabled, h.2]
      obtain hq | ⟨r, hr⟩ := hwait
      · simp [hq]
      · simp [hr]
    rw [hstep, exec_of_disabled h.1 hd]
    exact ⟨rfl, rfl⟩

/-- Settles O27: the step makes the event of its phase or none. -/
theorem agentStepMakesAtMostOneEvent : Obligations.AgentStepMakesAtMostOneEvent := by
  intro s t j h
  obtain ⟨a, ha, -⟩ := agentStep_cases h
  have hl := perform_leaves h
  rw [moveEvent_agent ha] at hl
  cases he : agentEvent { s with active := j } a with
  | none =>
    rw [he] at hl
    exact .inl ⟨hl.order, hl.mem⟩
  | some e =>
    rw [he] at hl
    obtain ⟨hp, hown⟩ := agentEvent_own he
    exact .inr ⟨a, e, ha, hp, hl.order, hown⟩

/-- Settles O36: the compare found the snapshot, so the CAS128 wrote the candidate, which the invariant knows to be
the command's result. -/
theorem successfulCasCommitsOneTransition : Obligations.SuccessfulCasCommitsOneTransition := by
  intro s t j a b k hi ha hp hk h hb hr
  have hv : s.cell a.addrr = snapshot a := by
    have hph := perform_phase_of_cas h ha hb hp
    rw [hr] at hph
    split at hph
    case isTrue hs => exact of_decide_eq_true hs
    case isFalse => cases hph
  have hf : Fresh s a := (fresh_whole_iff (.inr (.inr hp))).mpr hv.symm
  obtain ⟨-, hcell, -⟩ := fresh_cas_commits hi.memory h ha hb hf hp
  have houtr : b.outr = a.outr := by
    obtain ⟨k', r, hc⟩ := perform_agent_case h ha (by simp [hp])
    have hframe : RegisterFrame a b := (hc.frame ha).active (s := { s with active := j }) ha hb
    exact hframe.outr (by simp [hp]) (by simp [hp]) (by simp [hp])
  obtain ⟨hcand, hout⟩ : Computed k a := by
    obtain ⟨k', hk', -, hm⟩ := command_of (s := { s with active := j }) hi ⟨ha, hp⟩ rfl (by decide)
    cases hk.symm.trans hk'
    simp only [PhaseMeets, hp] at hm
    exact hm.2.2
  rw [hv]
  refine ⟨rfl, hcell.trans hcand, houtr.trans hout, fun ho => ?_, fun ho => ?_⟩
  · simp only [applied, ho, transOut]
  · rw [houtr, hout]
    simp only [applied, ho]

end Sys2Proof.Proofs
end

section
/-! PROOFS. Whole commands with nothing in between (R126, R130 to R138, R179): every point of such a run differs from
its start in the memory, the order and the active agent only, and the steps are chained from one point to the
next. -/

namespace Sys2Proof.Machine

open Sys2Proof

/-! ### The points of a run of one agent -/

/-- The machine `s` while its active agent carries a command through: the memory, the order and that agent's
registers are replaced. -/
def State.during (s : State) (m : Memory) (es : List MemEvent) (b : Agent) : State :=
  { s with mem := m, order := es, agents := s.agents.set s.active b }

theorem during_active {s : State} {a : Agent} (ha : s.agents[s.active]? = some a) (m : Memory)
    (es : List MemEvent) (b : Agent) : (s.during m es b).agents[(s.during m es b).active]? = some b :=
  set_active_get ha b

@[simp] theorem during_setActive (s : State) (m : Memory) (es : List MemEvent) (b c : Agent) :
    (s.during m es b).setActive c = s.during m es c := by
  simp [State.during, State.setActive, State.setAgent]

theorem during_readEvent_setActive (s : State) (es : List MemEvent) (b c : Agent) (who : Actor) (x : Word) :
    ((s.during s.mem es b).readEvent who x .w64).setActive c =
      s.during s.mem (.read who x .w64 (s.word x) :: es) c :=
  during_setActive s s.mem (.read who x .w64 (s.word x) :: es) b c

theorem during_writeEvent_setActive (s : State) (m : Memory) (es : List MemEvent) (b c : Agent) (who : Actor)
    (x v : Word) : ((s.during m es b).writeEvent who x .w64 v).setActive c =
      s.during (storeValue s.params.byteOrder m x.toNat .w64 v) (.write who x .w64 v :: es) c :=
  during_setActive s (storeValue s.params.byteOrder m x.toNat .w64 v) (.write who x .w64 v :: es) b c

theorem execTimes_succ {n : Nat} {i : Instr} {s t : State} (h : exec i s = .next t) :
    execTimes (n + 1) i s = execTimes n i t := by
  simp only [execTimes, h]

/-! ### A cell written whole -/

/-- The machine with both words of the cell at `x` written. -/
def State.putCell (s : State) (x : Word) (c : GenState) : State :=
  (s.put x .w64 c.s0).put (secondWord x) .w64 c.s1

theorem cell_putCell {s : State} {x : Word} (hm : Memory.wf s.mem) (h8 : x.toNat % 8 = 0)
    (hs : (secondWord x).toNat = x.toNat + 8) (c : GenState) : (s.putCell x c).cell x = c := by
  have hne : x ≠ secondWord x := fun e => by
    have := congrArg BitVec.toNat e
    omega
  exact congrArg₂ GenState.mk
    ((word_put_other (s := s.put x .w64 c.s0) (by omega) h8 hne c.s1).trans (word_put_same hm x c.s0))
    (word_put_same (put_wf hm x .w64 c.s0) (secondWord x) c.s1)

theorem putCell_outside {s : State} {x : Word} (hs : (secondWord x).toNat = x.toNat + 8) (c : GenState) :
    SameOutside x.toNat 16 s (s.putCell x c) := by
  intro b hb
  simp only [State.putCell, State.put_mem]
  rw [byteAt_storeValue_outside, byteAt_storeValue_outside] <;> simp only [Width.bytes] <;> omega

/-- A successful CAS128 writes the cell as two writes of its words would (R46). -/
theorem casEvent_eq_putCell {s : State} {x : Word} {e : GenState} (h : s.cell x = e) (who : Actor)
    (n : GenState) : s.casEvent who x e n = (s.putCell x n).record (.cas who x e n true) := by
  have hs : s.casSucceeds x e = true := decide_eq_true h
  unfold State.casEvent
  rw [if_pos hs]
  rfl

theorem during_casEvent_setActive {s : State} {x : Word} {e : GenState} (h : s.cell x = e) (es : List MemEvent)
    (b c : Agent) (who : Actor) (n : GenState) : ((s.during s.mem es b).casEvent who x e n).setActive c =
      s.during (s.putCell x n).mem (.cas who x e n true :: es) c := by
  rw [casEvent_eq_putCell (s := s.during s.mem es b) h]
  exact during_setActive s (s.putCell x n).mem (.cas who x e n true :: es) b c

/-! ### The stages of a command -/

/-- The agent after the accept step of a command that passes its check (R110). -/
def begun (i : Instr) (a : Agent) : Agent :=
  { latch (encode i) a with
    outr := if i.kind.op = .seed then 0 else a.outr
    phase := if i.kind.op = .seed then .seedW0 else .rd0 }

@[simp] theorem begun_addrr (i : Instr) (a : Agent) : (begun i a).addrr = i.addr := encode_addr i

theorem begun_phase_update {i : Instr} (hk : i.kind.op ≠ .seed) (a : Agent) : (begun i a).phase = .rd0 := if_neg hk

/-- The agent with a snapshot, about to compute (R114, R115). -/
def snapped (g : GenState) (b : Agent) : Agent := { b with exp0 := g.s0, exp1 := g.s1, phase := .compute }

/-- The agent after its response OK with `out` (R121). -/
def answered (out : Word) (b : Agent) : Agent :=
  { b with rsp := some ⟨0, out⟩, busy := false, phase := .idle }

/-- The two reads of a snapshot `g` of the cell at `x`, the newest first. -/
def readsOf (who : Actor) (x : Word) (g : GenState) : List MemEvent :=
  [.read who (secondWord x) .w64 g.s1, .read who x .w64 g.s0]

/-- The two writes of `c` to the cell at `x`, the newest first. -/
def writesOf (who : Actor) (x : Word) (c : GenState) : List MemEvent :=
  [.write who (secondWord x) .w64 c.s1, .write who x .w64 c.s0]

/-- How many steps COMPUTE and the jump loop take together (R116, R117). -/
def computeSteps (op : Operation) : Nat :=
  match op with
  | .jump => 130
  | .next => 1
  | .seed => 1

/-- `b'` is `b` with the result of the command of kind `k` on its snapshot, about to commit. -/
structure ComputedFrom (k : CommandKind) (b b' : Agent) : Prop where
  phase : b'.phase = if k.atomic then .cas else .wr0
  candidate : candidate b' = (applied k (snapshot b)).1
  outr : b'.outr = (applied k (snapshot b)).2
  snapshot : snapshot b' = snapshot b
  addrr : b'.addrr = b.addrr
  req : b'.req = b.req
  rsp : b'.rsp = b.rsp
  fault : b'.fault = b.fault

theorem computedFrom_withCandidate {k : CommandKind} {b d : Agent} {c : GenState} {out : Word}
    (h : applied k (snapshot b) = (c, out)) (hd : snapshot d = snapshot b := by rfl)
    (ha : d.addrr = b.addrr := by rfl) (hq : d.req = b.req := by rfl) (hr : d.rsp = b.rsp := by rfl)
    (hf : d.fault = b.fault := by rfl) : ComputedFrom k b (withCandidate k.atomic c out d) :=
  ⟨rfl, congrArg Prod.fst h.symm, congrArg Prod.snd h.symm, hd, ha, hq, hr, hf⟩

section
variable {i : Instr} {s : State} {a : Agent} (ha : s.agents[s.active]? = some a)
include ha

theorem execTimes_accept {q : Request} (hp : a.phase = .idle) (hq : a.req = some q)
    (hadm : Admissible s.params i.kind i.addr) :
    execTimes 1 i s = .next (s.during s.mem s.order (begun i a)) :=
  execTimes_one (Proofs.acceptLatchesTheRequest i s a q ⟨ha, hp⟩ hq hadm)

/-- A case of `exec` at a point of the run gives the next point. -/
theorem exec_during {m : Memory} {es : List MemEvent} {b : Agent} {t u : State}
    (h : ExecCase i.kind (encode i) (s.during m es b) b t) (hu : t = u) :
    exec i (s.during m es b) = .next u :=
  hu ▸ exec_of_case (during_active ha m es b) h

/-- RD0 and RD1 (R114, R115). -/
theorem execTimes_read {es : List MemEvent} {b : Agent} (hk : i.kind.op ≠ .seed) (hp : b.phase = .rd0)
    (ok0 : wordAccessOk s.params b.addrr = true) (ok1 : wordAccessOk s.params (secondWord b.addrr) = true) :
    execTimes 2 i (s.during s.mem es b) = .next (s.during s.mem
      (readsOf (.agent s.active) b.addrr (s.cell b.addrr) ++ es) (snapped (s.cell b.addrr) b)) := by
  rw [execTimes_succ (exec_during ha (.rd0 hp hk ok0) (during_readEvent_setActive ..))]
  exact execTimes_one (exec_during ha (.rd1 rfl hk ok1) (during_readEvent_setActive ..))

/-- COMPUTE, and for a JUMP the loop, leave the result of the command on the snapshot (R116, R117). -/
theorem execTimes_compute {es : List MemEvent} {b : Agent} (hk : i.kind.op ≠ .seed) (hp : b.phase = .compute) :
    ∃ b', execTimes (computeSteps i.kind.op) i (s.during s.mem es b) = .next (s.during s.mem es b') ∧
      ComputedFrom i.kind b b' := by
  cases ho : i.kind.op with
  | seed => exact absurd ho hk
  | next =>
    exact ⟨computedNext i.kind b, execTimes_one (exec_during ha (.computesNext hp ho) (during_setActive ..)),
      computedFrom_withCandidate (by simp only [applied, ho]; rfl)⟩
  | jump =>
    have hstart : exec i (s.during s.mem es b) = .next (s.during s.mem es (computedJump b)) :=
      exec_during ha (.computesJump hp ho) (during_setActive ..)
    have hloop := execTimes_jump (g := snapshot b) ho
      (show ActiveIn (s.during s.mem es (computedJump b)) .jiter (computedJump b) from
        ⟨during_active ha _ _ _, rfl⟩) rfl rfl
    rw [during_setActive] at hloop
    exact ⟨_, (execTimes_succ hstart).trans hloop, computedFrom_withCandidate (by simp only [applied, ho])⟩

theorem exec_during_resp {m : Memory} {es : List MemEvent} {b : Agent} (hp : b.phase = .resp)
    (hr : b.rsp = none) (hf : b.fault = 0) :
    exec i (s.during m es b) = .next (s.during m es (answered b.outr b)) := by
  rw [← during_setActive s m es b (answered b.outr b)]
  exact (Proofs.respondDeliversTheResult i _ b ⟨during_active ha _ _ _, hp⟩).1 hr hf

/-- WR0, WR1 and RESP of an unshared command (R119 to R121). -/
theorem execTimes_writeCandidate {es : List MemEvent} {b : Agent} (hk : i.kind.op ≠ .seed)
    (hat : i.kind.atomic = false) (hp : b.phase = .wr0) (hr : b.rsp = none) (hf : b.fault = 0)
    (ok0 : wordAccessOk s.params b.addrr = true) (ok1 : wordAccessOk s.params (secondWord b.addrr) = true) :
    execTimes 3 i (s.during s.mem es b) = .next (s.during (s.putCell b.addrr (candidate b)).mem
      (writesOf (.agent s.active) b.addrr (candidate b) ++ es) (answered b.outr { b with phase := .resp })) := by
  rw [execTimes_succ (exec_during ha (.wr0 hp hk hat ok0) (during_writeEvent_setActive ..)),
    execTimes_succ
      (exec_during (b := { b with phase := .wr1 }) ha (.wr1 rfl hk hat ok1) (during_writeEvent_setActive ..))]
  exact execTimes_one (exec_during_resp ha rfl hr hf)

/-- SEED_W0, SEED_W1 and RESP (R112, R113, R121). -/
theorem execTimes_writeOperands {es : List MemEvent} {b : Agent} (hk : i.kind.op = .seed)
    (hp : b.phase = .seedW0) (hr : b.rsp = none) (hf : b.fault = 0)
    (ok0 : wordAccessOk s.params b.addrr = true) (ok1 : wordAccessOk s.params (secondWord b.addrr) = true) :
    execTimes 3 i (s.during s.mem es b) = .next (s.during (s.putCell b.addrr ⟨b.opa, b.opb⟩).mem
      (writesOf (.agent s.active) b.addrr ⟨b.opa, b.opb⟩ ++ es) (answered b.outr { b with phase := .resp })) := by
  rw [execTimes_succ (exec_during ha (.seedW0 hp hk ok0) (during_writeEvent_setActive ..)),
    execTimes_succ
      (exec_during (b := { b with phase := .seedW1 }) ha (.seedW1 rfl hk ok1) (during_writeEvent_setActive ..))]
  exact execTimes_one (exec_during_resp ha rfl hr hf)

/-- CAS and RESP of an atomic command whose snapshot is the cell's value (R118, R121). -/
theorem execTimes_swap {es : List MemEvent} {b : Agent} (hk : i.kind.op ≠ .seed) (hat : i.kind.atomic = true)
    (hp : b.phase = .cas) (hr : b.rsp = none) (hf : b.fault = 0) (hc : s.cell b.addrr = snapshot b)
    (ok : casAccessOk s.params b.addrr = true) :
    execTimes 2 i (s.during s.mem es b) = .next (s.during (s.putCell b.addrr (candidate b)).mem
      (.cas (.agent s.active) b.addrr (snapshot b) (candidate b) true :: es)
      (answered b.outr { b with phase := .resp })) := by
  have hstep := exec_during (es := es) ha (.swaps hp hk hat ok) (during_casEvent_setActive hc ..)
  rw [show (s.during s.mem es b).casSucceeds b.addrr (snapshot b) = true from decide_eq_true hc] at hstep
  exact (execTimes_succ hstep).trans (execTimes_one (exec_during_resp ha rfl hr hf))

/-- IDLE to COMPUTE of a NEXT or a JUMP (R110, R114, R115). -/
theorem execTimes_snapshot {q : Request} (hk : i.kind.op ≠ .seed) (hp : a.phase = .idle) (hq : a.req = some q)
    (hadm : Admissible s.params i.kind i.addr) : execTimes 3 i s = .next (s.during s.mem
      (readsOf (.agent s.active) i.addr (s.cell i.addr) ++ s.order) (snapped (s.cell i.addr) (begun i a))) := by
  have hread := execTimes_read ha (es := s.order) hk (begun_phase_update hk a)
    (by rw [begun_addrr]; exact hadm.firstOk) (by rw [begun_addrr]; exact hadm.secondOk)
  rw [begun_addrr] at hread
  exact (execTimes_add 1 2 i s _ (execTimes_accept ha hp hq hadm)).trans hread

/-- IDLE to the commit of a NEXT or a JUMP: the agent has the result on the cell's value. -/
theorem execTimes_result {q : Request} (hk : i.kind.op ≠ .seed) (hp : a.phase = .idle) (hq : a.req = some q)
    (hadm : Admissible s.params i.kind i.addr) :
    ∃ b, execTimes (3 + computeSteps i.kind.op) i s = .next (s.during s.mem
        (readsOf (.agent s.active) i.addr (s.cell i.addr) ++ s.order) b) ∧
      ComputedFrom i.kind (snapped (s.cell i.addr) (begun i a)) b := by
  obtain ⟨b, hcompute, hb⟩ := execTimes_compute ha (b := snapped (s.cell i.addr) (begun i a)) hk rfl
  exact ⟨b, (execTimes_add 3 _ i s _ (execTimes_snapshot ha hk hp hq hadm)).trans hcompute, hb⟩

end

/-! ### A command from IDLE to IDLE -/

/-- `n` steps of `i` from `s` put `c` into the cell and `es` on the order, and the agent, IDLE again, has answered OK
with `out`. -/
def Completes (n : Nat) (i : Instr) (s : State) (c : GenState) (out : Word) (es : List MemEvent) : Prop :=
  ∃ b, execTimes n i s = .next (s.during (s.putCell i.addr c).mem (es ++ s.order) b) ∧
    b.phase = .idle ∧ b.busy = false ∧ b.req = none ∧ b.rsp = some ⟨0, out⟩ ∧ b.fault = 0

/-- What the completion statements say of the state at the end. -/
theorem Completes.state {n : Nat} {i : Instr} {s : State} {c : GenState} {out : Word} {es : List MemEvent}
    {k : CommandKind} (h : Completes n i s c out es) (hi : Inv s) (hadm : Admissible s.params k i.addr) :
    ∃ t b, execTimes n i s = .next t ∧ t.cell i.addr = c ∧ SameOutside i.addr.toNat 16 s t ∧
      t.order = es ++ s.order ∧ t.agents = s.agents.set s.active b ∧ b.phase = .idle ∧ b.busy = false ∧
      b.req = none ∧ b.rsp = some ⟨0, out⟩ ∧ b.fault = 0 ∧ SameElse s t := by
  obtain ⟨b, hrun, hphase, hbusy, hreq, hrsp, hfault⟩ := h
  exact ⟨_, b, hrun, cell_putCell hi.memory hadm.aligned hadm.second_toNat c,
    putCell_outside hadm.second_toNat c, rfl, rfl, hphase, hbusy, hreq, hrsp, hfault, rfl, rfl, rfl, rfl, rfl⟩

section
variable {i : Instr} {s : State} {a : Agent} {q : Request} (hi : Inv s) (h : ActiveIn s .idle a)
  (hq : a.req = some q) (hr : a.rsp = none)
include hi h hq hr

theorem seed_completes (hk : i.kind.op = .seed) (hadm : Admissible s.params i.kind i.addr) :
    Completes 4 i s ⟨(encode i).opa, (encode i).opb⟩ 0
      (writesOf (.agent s.active) i.addr ⟨(encode i).opa, (encode i).opb⟩) := by
  obtain ⟨ha, hp⟩ := h
  have hf : a.fault = 0 := (hi.agent ha).no_fault hp
  have hwrite := execTimes_writeOperands ha (es := s.order) (b := begun i a) hk (if_pos hk) hr hf
    (by rw [begun_addrr]; exact hadm.firstOk) (by rw [begun_addrr]; exact hadm.secondOk)
  rw [begun_addrr] at hwrite
  refine ⟨_, (execTimes_add 1 3 i s _ (execTimes_accept ha hp hq hadm)).trans hwrite, rfl, rfl, rfl, ?_, hf⟩
  exact congrArg (fun o => some (⟨0, o⟩ : Response)) (if_pos hk)

theorem unshared_completes (hk : i.kind.op ≠ .seed) (hat : i.kind.atomic = false)
    (hadm : Admissible s.params i.kind i.addr) :
    Completes (3 + computeSteps i.kind.op + 3) i s (applied i.kind (s.cell i.addr)).1
      (applied i.kind (s.cell i.addr)).2
      (writesOf (.agent s.active) i.addr (applied i.kind (s.cell i.addr)).1 ++
        readsOf (.agent s.active) i.addr (s.cell i.addr)) := by
  obtain ⟨ha, hp⟩ := h
  have hf : a.fault = 0 := (hi.agent ha).no_fault hp
  obtain ⟨b, hrun, hb⟩ := execTimes_result ha hk hp hq hadm
  have haddr : b.addrr = i.addr := hb.addrr.trans (begun_addrr i a)
  have hwrite := execTimes_writeCandidate ha (es := readsOf (.agent s.active) i.addr (s.cell i.addr) ++ s.order)
    (b := b) hk hat (by rw [hb.phase, hat]; rfl) (hb.rsp.trans hr) (hb.fault.trans hf)
    (by rw [haddr]; exact hadm.firstOk) (by rw [haddr]; exact hadm.secondOk)
  rw [haddr, hb.candidate] at hwrite
  exact ⟨_, (execTimes_add _ 3 i s _ hrun).trans hwrite, rfl, rfl, hb.req,
    congrArg (fun o => some (⟨0, o⟩ : Response)) hb.outr, hb.fault.trans hf⟩

theorem atomic_completes (hk : i.kind.op ≠ .seed) (hat : i.kind.atomic = true)
    (hadm : Admissible s.params i.kind i.addr) :
    Completes (3 + computeSteps i.kind.op + 2) i s (applied i.kind (s.cell i.addr)).1
      (applied i.kind (s.cell i.addr)).2
      (.cas (.agent s.active) i.addr (s.cell i.addr) (applied i.kind (s.cell i.addr)).1 true ::
        readsOf (.agent s.active) i.addr (s.cell i.addr)) := by
  obtain ⟨ha, hp⟩ := h
  have hf : a.fault = 0 := (hi.agent ha).no_fault hp
  obtain ⟨b, hrun, hb⟩ := execTimes_result ha hk hp hq hadm
  have haddr : b.addrr = i.addr := hb.addrr.trans (begun_addrr i a)
  have hswap := execTimes_swap ha (es := readsOf (.agent s.active) i.addr (s.cell i.addr) ++ s.order)
    (b := b) hk hat (by rw [hb.phase, hat]; rfl) (hb.rsp.trans hr) (hb.fault.trans hf)
    (by rw [haddr, hb.snapshot]; rfl) (by rw [haddr]; exact hadm.casOk hat)
  rw [haddr, hb.candidate, hb.snapshot] at hswap
  exact ⟨_, (execTimes_add _ 2 i s _ hrun).trans hswap, rfl, rfl, hb.req,
    congrArg (fun o => some (⟨0, o⟩ : Response)) hb.outr, hb.fault.trans hf⟩

end

end Sys2Proof.Machine

namespace Sys2Proof.Proofs

open Sys2Proof Sys2Proof.Machine

/-- Settles O18: accept, the two writes of the operands, and RESP. -/
theorem seedCompletes : Obligations.SeedCompletes := by
  intro fam addr s0 s1 s a q hi h hq hr hadm
  exact (seed_completes (i := .seed fam addr s0 s1) hi h hq hr rfl hadm).state hi hadm

/-- Settles O19: accept, the two reads, one COMPUTE, the two writes of its result, and RESP. -/
theorem unsharedNextCompletes : Obligations.UnsharedNextCompletes := by
  intro i s a q ho hat hi h hq hr hadm
  have hc := unshared_completes hi h hq hr (by simp [ho]) hat hadm
  simp only [applied, ho] at hc
  exact hc.state hi hadm

/-- Settles O20: as the unshared NEXT, with the one CAS128 for its writes. -/
theorem atomicNextCompletes : Obligations.AtomicNextCompletes := by
  intro i s a q ho hat hi h hq hr hadm
  have hc := atomic_completes hi h hq hr (by simp [ho]) hat hadm
  simp only [applied, ho] at hc
  exact hc.state hi hadm

/-- Settles O21: as the unshared NEXT, with the 129 JITER steps after COMPUTE. -/
theorem unsharedJumpCompletes : Obligations.UnsharedJumpCompletes := by
  intro i s a q ho hat hi h hq hr hadm
  have hc := unshared_completes hi h hq hr (by simp [ho]) hat hadm
  simp only [applied, ho] at hc
  exact hc.state hi hadm

/-- Settles O22: as the atomic NEXT, with the 129 JITER steps after COMPUTE. -/
theorem atomicJumpCompletes : Obligations.AtomicJumpCompletes := by
  intro i s a q ho hat hi h hq hr hadm
  have hc := atomic_completes hi h hq hr (by simp [ho]) hat hadm
  simp only [applied, ho] at hc
  exact hc.state hi hadm

/-- Settles O23: both forms complete with the one result of the operation on the cell's value. -/
theorem unsharedEqualsAtomicUncontended : Obligations.UnsharedEqualsAtomicUncontended := by
  intro i c s a q hk hat hck haddr hi h hq hr hadm
  have happ (g : GenState) : applied c.kind g = applied i.kind g := by rw [hck]; rfl
  have hadm' : Admissible s.params i.kind i.addr := ⟨fun hn => absurd hn (by simp [hat]), haddr ▸ hadm.2⟩
  obtain ⟨b, hbrun, hbp, -, -, hbr, -⟩ := unshared_completes hi h hq hr hk hat hadm'
  obtain ⟨d, hdrun, hdp, -, -, hdr, -⟩ := atomic_completes hi h hq hr (by rw [hck]; exact hk) (by rw [hck]) hadm
  rw [happ, haddr] at hdrun hdr
  exact ⟨_, _, _, _, b, d, hbrun, hdrun, fun _ => rfl, rfl, rfl, hbp, hdp, by rw [hbr]; rfl, hbr.trans hdr.symm⟩

end Sys2Proof.Proofs
end

section
/-! PROOFS. Every step of an agent completes (R49, R123), so its rounds go on as long as its CAS128 fails, and a
memory user's writes can make it fail any number of times (R55, R118). -/

namespace Sys2Proof.Machine

open Sys2Proof

/-! ### A step always completes -/

theorem respStep_answers (s : State) (a : Agent) : ∃ t, respStep s a = .next t := by
  unfold respStep
  split <;> exact ⟨_, rfl⟩

theorem haltedStep_answers (s : State) (a : Agent) : ∃ t, haltedStep s a = .next t := by
  unfold haltedStep
  split <;> exact ⟨_, rfl⟩

theorem idleStep_answers {s : State} {a : Agent} (h : ActiveIn s .idle a) : ∃ t, idleStep s a = .next t := by
  unfold idleStep
  split
  case h_1 => exact ⟨_, rfl⟩
  case h_2 r hq =>
    split
    case h_1 => exact ⟨_, exec_idle h hq⟩
    case h_2 => exact ⟨_, rfl⟩

/-- Inside a command that passed its check, before RESP, the phase has a step and the cell its access. -/
theorem exists_execCase {k : CommandKind} {s : State} {a : Agent} (hb : busyPhase a.phase = true)
    (hr : a.phase ≠ .resp) (hadm : Admissible s.params k a.addrr) (hm : PhaseMeets k a) (r : Request) :
    ∃ t, ExecCase k r s a t := by
  cases hp : a.phase <;> simp only [PhaseMeets, hp] at hm
  case idle | halted => simp [hp, busyPhase] at hb
  case resp => exact absurd hp hr
  case seedW0 => exact ⟨_, .seedW0 hp hm.1 hadm.firstOk⟩
  case seedW1 => exact ⟨_, .seedW1 hp hm.1 hadm.secondOk⟩
  case rd0 => exact ⟨_, .rd0 hp hm hadm.firstOk⟩
  case rd1 => exact ⟨_, .rd1 hp hm hadm.secondOk⟩
  case compute =>
    cases ho : k.op with
    | seed => exact absurd ho hm
    | next => exact ⟨_, .computesNext hp ho⟩
    | jump => exact ⟨_, .computesJump hp ho⟩
  case jiter => exact ⟨_, .iterates hp hm.1⟩
  case cas => exact ⟨_, .swaps hp hm.1 hm.2.1 (hadm.casOk hm.2.1)⟩
  case wr0 => exact ⟨_, .wr0 hp hm.1 hm.2.1 hadm.firstOk⟩
  case wr1 => exact ⟨_, .wr1 hp hm.1 hm.2.1 hadm.secondOk⟩

theorem busyStep_answers {s : State} {a : Agent} (hi : Inv s) (ha : s.agents[s.active]? = some a)
    (hb : busyPhase a.phase = true) : ∃ t, busyStep s a = .next t := by
  by_cases hr : a.phase = .resp
  · unfold busyStep
    split
    case h_1 => rw [exec_resp ⟨ha, hr⟩]; exact respStep_answers s a
    case h_2 => rw [if_pos hr]; exact respStep_answers s a
  · obtain ⟨-, k, hk, hadm, hm⟩ := (hi.agent ha).command hb hr
    obtain ⟨i, hd, rfl, -⟩ := latched_decode hk
    obtain ⟨t, hc⟩ := exists_execCase hb hr hadm hm (encode i)
    exact ⟨t, by simp only [busyStep, hd, exec_of_case ha hc]⟩

theorem activeStep_answers {s : State} {a : Agent} (hi : Inv s) (ha : s.agents[s.active]? = some a) :
    ∃ t, activeStep s = .next t := by
  rw [activeStep_eq ha]
  split
  case h_1 hp => exact idleStep_answers ⟨ha, hp⟩
  case h_2 => exact haltedStep_answers s a
  all_goals exact busyStep_answers hi ha (by simp only [*]; rfl)

theorem perform_agent_answers {s : State} {j : Nat} {a : Agent} (hi : Inv s) (ha : s.agents[j]? = some a) :
    ∃ t, perform (.agent j) s = .next t := by
  rw [perform_agent ha]
  exact activeStep_answers (s := { s with active := j }) hi ha

/-! ### An enabled step changes its agent -/

theorem changes_of_phase {a b : Agent} (he : enabled a = true) (h : b.phase ≠ a.phase) :
    b ≠ a ↔ enabled a = true := iff_of_true (fun e => h (congrArg Agent.phase e)) he

theorem changes_of_req {a b : Agent} (he : enabled a = true) (h : b.req ≠ a.req) :
    b ≠ a ↔ enabled a = true := iff_of_true (fun e => h (congrArg Agent.req e)) he

theorem accepted_req (op : Operation) (code : Status) (r : Request) (a : Agent) :
    (accepted op code r a).req = none := by
  unfold accepted
  split <;> rfl

theorem iterated_ne {a : Agent} (hp : a.phase = .jiter) (k : CommandKind) : iterated k a ≠ a := by
  unfold iterated
  split
  · exact fun e => absurd (congrArg Agent.k e) (by simp)
  · exact fun e => absurd (congrArg Agent.phase e) (by cases hat : k.atomic <;> simp [withCandidate, hp])

theorem ExecCase.changes {k : CommandKind} {r : Request} {s t : State} {a : Agent}
    (ha : s.agents[s.active]? = some a) (h : ExecCase k r s a t) :
    Updates (fun b => b ≠ a ↔ enabled a = true) s t := by
  cases h
  case waits hd => exact updates_self ha (by simp [hd])
  case accepts q hp hq =>
    exact updates_setActive (changes_of_req (by simp [enabled, hp, hq]) (by simp [accepted_req, hq]))
  case answers q hp hq hr =>
    exact updates_setActive (changes_of_req (by simp [enabled, hp, hq, hr]) (by simp [hq]))
  case iterates hp hk => exact updates_setActive (iff_of_true (iterated_ne hp k) (by simp [enabled, hp]))
  case swaps hp hk hat ok =>
    exact updates_casEvent (changes_of_phase (by simp [enabled, hp]) (by dsimp only; split <;> simp [hp])) _ _ _ _
  case responds hp hr =>
    exact updates_setActive
      (changes_of_phase (by simp [enabled, hp, hr]) (by dsimp only; split <;> simp [hp]))
  case computesNext hp hk =>
    exact updates_setActive (changes_of_phase (by simp [enabled, hp])
      (by cases hat : k.atomic <;> simp [computedNext, withCandidate, hp, hat]))
  case computesJump hp hk =>
    exact updates_setActive (changes_of_phase (by simp [enabled, hp]) (by simp [computedJump, hp]))
  case seedW0 hp _ _ | seedW1 hp _ _ | rd0 hp _ _ | rd1 hp _ _ | wr0 hp _ _ _ | wr1 hp _ _ _ =>
    exact updates_setActive (changes_of_phase (by simp [enabled, hp]) (by simp [hp]))

theorem ActiveCase.changes {s t : State} {a : Agent} (ha : s.agents[s.active]? = Option.some a)
    (h : ActiveCase s a t) : Updates (fun b => b ≠ a ↔ enabled a = true) s t := by
  cases h
  case runs hc => exact hc.changes ha
  case rejects r e hp hq he =>
    exact updates_setActive (changes_of_req (by simp [enabled, hp, hq]) (by simp [raiseFault, latch, hq]))

/-! ### A round comes to its CAS128 -/

/-- An upper bound of the steps from a phase of a round to its CAS. -/
def roundLeft (a : Agent) : Nat :=
  match a.phase with
  | .rd0 => 259
  | .rd1 => 258
  | .compute => 257
  | .jiter => 256 - a.k.toNat
  | .idle | .seedW0 | .seedW1 | .cas | .wr0 | .wr1 | .resp | .halted => 0

/-- The agent is in a round, nearer to its CAS than `a`. -/
def NearerCas (a b : Agent) : Prop := roundPhase b.phase = true ∧ roundLeft b < roundLeft a

theorem nearerCas_withCandidate {a d : Agent} (h : 0 < roundLeft a) (c : GenState) (out : Word) :
    NearerCas a (withCandidate true c out d) := ⟨rfl, h⟩

theorem nearerCas_iterated {k : CommandKind} {a : Agent} (hp : a.phase = .jiter) (hat : k.atomic = true) :
    NearerCas a (iterated k a) := by
  have hlt : a.k.toNat < 256 := a.k.isLt
  unfold iterated
  split
  case isTrue h =>
    have hk1 : (a.k + 1).toNat = a.k.toNat + 1 := by bv_omega
    refine ⟨congrArg roundPhase hp, ?_⟩
    simp only [roundLeft, withJumpRegs, hp, hk1]
    omega
  case isFalse h =>
    rw [hat]
    refine nearerCas_withCandidate ?_ _ _
    simp only [roundLeft, hp]
    omega

theorem enabled_of_round {a : Agent} (h : roundPhase a.phase = true) : enabled a = true := by
  unfold enabled
  revert h
  cases a.phase <;> simp [roundPhase]

/-- A step inside a round of an atomic command, before CAS, goes on towards it (R114 to R117). -/
theorem ExecCase.nearer_cas {k : CommandKind} {r : Request} {s t : State} {a : Agent}
    (hround : roundPhase a.phase = true) (hcas : a.phase ≠ .cas) (hat : k.atomic = true)
    (h : ExecCase k r s a t) : Updates (NearerCas a) s t := by
  cases h
  case rd0 hp hk ok => exact updates_setActive ⟨rfl, by simp [roundLeft, hp]⟩
  case rd1 hp hk ok => exact updates_setActive ⟨rfl, by simp [roundLeft, hp]⟩
  case computesNext hp hk =>
    unfold computedNext
    rw [hat]
    exact updates_setActive (nearerCas_withCandidate (by simp [roundLeft, hp]) _ _)
  case computesJump hp hk => exact updates_setActive ⟨rfl, by simp [roundLeft, computedJump, hp]⟩
  case iterates hp hk => exact updates_setActive (nearerCas_iterated hp hat)
  case swaps hp _ _ _ => exact absurd hp hcas
  case waits hd => exact absurd (enabled_of_round hround) (by simp [hd])
  -- the other phases are not of a round
  all_goals simp_all [roundPhase]

theorem round_phase_ne {a : Agent} (h : roundPhase a.phase = true) :
    a.phase ≠ .idle ∧ a.phase ≠ .resp ∧ a.phase ≠ .halted := by
  refine ⟨?_, ?_, ?_⟩ <;> exact fun hp => by simp [hp, roundPhase] at h

theorem perform_nearer_cas {s t : State} {j : Nat} {a b : Agent} {k : CommandKind}
    (h : perform (.agent j) s = .next t) (ha : s.agents[j]? = some a) (hb : t.agents[j]? = some b)
    (hk : decodeCmd a.cmdr = .ok k) (hat : k.atomic = true) (hround : roundPhase a.phase = true)
    (hcas : a.phase ≠ .cas) : NearerCas a b := by
  obtain ⟨hidle, hresp, hhalted⟩ := round_phase_ne hround
  obtain ⟨c, hc, hcase⟩ := agentStep_cases h
  cases ha.symm.trans hc
  cases hcase
  case rejects hp _ _ => exact absurd hp hidle
  case runs k' r _ hbusy hc =>
    cases hk.symm.trans (hbusy hidle hhalted hresp)
    exact (hc.nearer_cas hround hcas hat).active (s := { s with active := j }) ha hb

/-! ### Moves in which agent `j` retries -/

/-- No reset, and no move of agent `j`'s caller. -/
def LeavesSlotsOf (j : Nat) (m : Move) : Prop := m ≠ .reset ∧ m ≠ .take j ∧ ∀ r, m ≠ .present j r

/-- The moves `ms` take `s`, with agent `j` as `a`, to `t`, with agent `j` as `b` in the same command and with the same
slots; `n` CAS128 of agent `j` failed on the way and none succeeded. -/
structure Retries (n : Nat) (j : Nat) (ms : List Move) (s t : State) (a b : Agent) : Prop where
  run : runMoves ms s = .next t
  moves : ∀ m ∈ ms, LeavesSlotsOf j m
  order : ∃ added, t.order = added ++ s.order ∧ (added.filter (MemEvent.isCasBy j false)).length = n ∧
    added.filter (MemEvent.isCasBy j true) = []
  inv : Inv t
  agent : t.agents[j]? = some b
  latched : latched b = latched a
  req : b.req = a.req
  rsp : b.rsp = a.rsp

theorem Retries.nil {s : State} {j : Nat} {a : Agent} (hi : Inv s) (ha : s.agents[j]? = some a) :
    Retries 0 j [] s s a a :=
  ⟨rfl, nofun, ⟨[], rfl, rfl, rfl⟩, hi, ha, rfl, rfl, rfl⟩

theorem Retries.append {n n' j : Nat} {ms ms' : List Move} {s t u : State} {a b c : Agent}
    (h : Retries n j ms s t a b) (h' : Retries n' j ms' t u b c) : Retries (n + n') j (ms ++ ms') s u a c := by
  obtain ⟨added, ho, hn, hs⟩ := h.order
  obtain ⟨added', ho', hn', hs'⟩ := h'.order
  refine ⟨(runMoves_append h.run).trans h'.run, fun m hm => (List.mem_append.mp hm).elim (h.moves m) (h'.moves m),
    ⟨added' ++ added, by rw [ho', ho, List.append_assoc], ?_, ?_⟩, h'.inv, h'.agent, h'.latched.trans h.latched,
    h'.req.trans h.req, h'.rsp.trans h.rsp⟩
  · rw [List.filter_append, List.length_append, hn, hn', Nat.add_comm]
  · rw [List.filter_append, hs, hs']
    rfl

/-- One move: what it adds to the order is its event. -/
theorem Retries.of_move {j : Nat} {m : Move} {o : Option MemEvent} {s t : State} {a b : Agent} (hi : Inv s)
    (h : perform m s = .next t) (hm : LeavesSlotsOf j m) (he : moveEvent m s = o)
    (ho : o.toList.filter (MemEvent.isCasBy j true) = []) (hb : t.agents[j]? = some b)
    (hl : Machine.latched b = Machine.latched a) (hq : b.req = a.req) (hr : b.rsp = a.rsp) :
    Retries (o.toList.filter (MemEvent.isCasBy j false)).length j [m] s t a b :=
  ⟨by simp only [runMoves, h], fun _ hx => List.mem_singleton.mp hx ▸ hm,
    ⟨_, he ▸ (perform_leaves h).order, rfl, ho⟩, perform_keeps_inv hi h, hb, hl, hq, hr⟩

/-- A step of agent `j` itself inside a round. -/
theorem Retries.of_step {j : Nat} {o : Option MemEvent} {s t : State} {a b : Agent} (hi : Inv s)
    (ha : s.agents[j]? = some a) (hround : roundPhase a.phase = true) (h : perform (.agent j) s = .next t)
    (he : agentEvent { s with active := j } a = o) (ho : o.toList.filter (MemEvent.isCasBy j true) = [])
    (hb : t.agents[j]? = some b) :
    Retries (o.toList.filter (MemEvent.isCasBy j false)).length j [.agent j] s t a b := by
  obtain ⟨hidle, hresp, hhalted⟩ := round_phase_ne hround
  obtain ⟨k, r, hc⟩ := perform_agent_case h ha hidle
  have hf : RegisterFrame a b := (hc.frame ha).active (s := { s with active := j }) ha hb
  exact .of_move hi h ⟨by simp, by simp, by simp⟩ ((moveEvent_agent ha).trans he) ho hb (hf.request hidle).1
    (hf.req hidle hhalted) (hf.rsp hresp hhalted)

theorem filter_isCasBy_agentEvent {s : State} {a : Agent} (hp : a.phase ≠ .cas) (j : Nat) (ok : Bool) :
    (agentEvent s a).toList.filter (MemEvent.isCasBy j ok) = [] := by
  unfold agentEvent
  split
  case h_5 hc => exact absurd hc hp
  all_goals rfl

/-- From any phase of a round of an atomic command the agent's own steps lead to CAS, with no CAS128 on the way. -/
theorem exists_retries_to_cas {j : Nat} {k : CommandKind} (hat : k.atomic = true) (d : Nat) (s : State) (a : Agent)
    (hi : Inv s) (ha : s.agents[j]? = some a) (hk : decodeCmd a.cmdr = .ok k)
    (hround : roundPhase a.phase = true) (hd : roundLeft a < d) :
    ∃ ms t b, Retries 0 j ms s t a b ∧ b.phase = .cas := by
  induction d generalizing s a with
  | zero => cases hd
  | succ d ih =>
    by_cases hcas : a.phase = .cas
    · exact ⟨[], s, a, .nil hi ha, hcas⟩
    obtain ⟨t, h⟩ := perform_agent_answers hi ha
    obtain ⟨b, hb⟩ := perform_keeps_agent h ha
    have hone : Retries 0 j [.agent j] s t a b := by
      have := Retries.of_step hi ha hround h rfl (filter_isCasBy_agentEvent hcas j true) hb
      rwa [filter_isCasBy_agentEvent hcas j false] at this
    have hnear : NearerCas a b := perform_nearer_cas h ha hb hk hat hround hcas
    obtain ⟨ms, u, c, hms, hc⟩ := ih t b hone.inv hb ((latched_fields hone.latched).1 ▸ hk) hnear.1
      (by have := hnear.2; omega)
    exact ⟨_, u, c, hone.append hms, hc⟩

/-- A memory user may write an admitted word (R47). -/
theorem userAccessOk_word {p : Params} {x : Word} (h : wordAccessOk p x = true) : userAccessOk p x .w64 = true := by
  have h8 := wordAccessOk_aligned h
  simp only [wordAccessOk, Bool.and_eq_true] at h
  simp [userAccessOk, wordBase, h8, Width.bytes, h.2]

/-- At CAS a memory user writes another value over the snapshot's first word, so the CAS128 fails and the agent is
about to read again (R55, R118). -/
theorem exists_retries_fail {s : State} {j : Nat} {a : Agent} (hi : Inv s) (ha : s.agents[j]? = some a)
    (hp : a.phase = .cas) : ∃ ms t b, Retries 1 j ms s t a b ∧ b.phase = .rd0 := by
  obtain ⟨k, -, hadm, -⟩ := command_of (s := { s with active := j }) hi ⟨ha, hp⟩ rfl (by decide)
  have hok : userAccessOk s.params a.addrr .w64 = true := userAccessOk_word hadm.firstOk
  have hwrite : perform (.userWrite 0 a.addrr .w64 (a.exp0 + 1)) s =
      .next (s.writeEvent (.user 0) a.addrr .w64 (a.exp0 + 1)) := if_pos hok
  generalize hu : s.writeEvent (.user 0) a.addrr .w64 (a.exp0 + 1) = u at hwrite
  have hau : u.agents[j]? = some a := hu ▸ ha
  have hword : u.word a.addrr = a.exp0 + 1 := hu ▸ word_put_same hi.memory a.addrr (a.exp0 + 1)
  have hdisturb : Retries 0 j [.userWrite 0 a.addrr .w64 (a.exp0 + 1)] s u a a :=
    .of_move hi hwrite ⟨by simp, by simp, by simp⟩ rfl rfl hau rfl rfl rfl
  obtain ⟨t, h⟩ := perform_agent_answers hdisturb.inv hau
  obtain ⟨b, hb⟩ := perform_keeps_agent h hau
  have hfail : u.casSucceeds a.addrr (snapshot a) = false := decide_eq_false fun hc => by
    have h0 : u.word a.addrr = a.exp0 := congrArg GenState.s0 hc
    bv_omega
  have hevent : agentEvent { u with active := j } a =
      some (.cas (.agent j) a.addrr (snapshot a) (candidate a) false) := by
    simp only [agentEvent, hp]
    exact congrArg (fun ok => some (MemEvent.cas (.agent j) a.addrr (snapshot a) (candidate a) ok)) hfail
  have hretry := Retries.of_step hdisturb.inv hau (by rw [hp]; rfl) h hevent (by simp [MemEvent.isCasBy]) hb
  refine ⟨_, t, b, hdisturb.append (n' := 1) (by simpa [MemEvent.isCasBy] using hretry), ?_⟩
  have hphase := perform_phase_of_cas h hau hb hp
  rwa [hfail] at hphase

/-- From RD0 of an atomic command any number of rounds can fail in a row. -/
theorem exists_retries {j : Nat} {k : CommandKind} (hat : k.atomic = true) (n : Nat) (s : State) (a : Agent)
    (hi : Inv s) (ha : s.agents[j]? = some a) (hk : decodeCmd a.cmdr = .ok k) (hp : a.phase = .rd0) :
    ∃ ms t b, Retries n j ms s t a b ∧ b.phase = .rd0 := by
  induction n generalizing s a with
  | zero => exact ⟨[], s, a, .nil hi ha, hp⟩
  | succ n ih =>
    obtain ⟨ms1, t1, b1, h1, hcas⟩ := exists_retries_to_cas hat 260 s a hi ha hk (by rw [hp]; rfl)
      (by simp [roundLeft, hp])
    obtain ⟨ms2, t2, b2, h2, hrd0⟩ := exists_retries_fail h1.inv h1.agent hcas
    have hround := h1.append h2
    obtain ⟨ms3, t3, b3, h3, hend⟩ := ih t2 b2 h2.inv h2.agent ((latched_fields hround.latched).1 ▸ hk) hrd0
    have hall := hround.append h3
    rw [show 0 + 1 + n = n + 1 by omega] at hall
    exact ⟨_, t3, b3, hall, hend⟩

end Sys2Proof.Machine

namespace Sys2Proof.Proofs

open Sys2Proof Sys2Proof.Machine

/-- Settles O31: the invariant leaves every phase its step, and each case of an enabled step changes the phase, REQ or
K. -/
theorem agentsNeverStop : Obligations.AgentsNeverStop := by
  intro s j a hi ha
  obtain ⟨t, h⟩ := perform_agent_answers hi ha
  obtain ⟨c, hc, hcase⟩ := agentStep_cases h
  cases ha.symm.trans hc
  obtain ⟨b, hb, hiff⟩ := hcase.changes (s := { s with active := j }) ha
  exact ⟨t, b, h, hb ▸ List.getElem?_set_self (List.getElem?_eq_some_iff.mp ha).1, hiff⟩

/-- Settles O41: each round fails when a memory user writes to the cell just before its CAS128. -/
theorem retriesHaveNoBound : Obligations.RetriesHaveNoBound := by
  intro n s j a k hi ha hp hk hat
  obtain ⟨ms, t, b, h, hb⟩ := exists_retries hat n s a hi ha hk hp
  obtain ⟨added, ho, hn, hs⟩ := h.order
  exact ⟨ms, t, b, added, h.run, h.moves, ho, hn, hs, h.agent, hb, h.latched, h.req, h.rsp⟩

end Sys2Proof.Proofs
end

section
/-! PROOFS. HALTED (R122, R144), and the block without the double-word CAS (R155). -/

namespace Sys2Proof.Machine

open Sys2Proof

/-! ### HALTED (R122, R144) -/

/-- A HALTED agent's step writes at most its slots: it is the answer of R122, or nothing. -/
theorem haltedStep_writes_slots {s t : State} {a : Agent} (ha : s.agents[s.active]? = some a)
    (h : haltedStep s a = .next t) :
    ∃ q p, t = s.setActive { a with req := q, rsp := p } ∧
      ∀ r, a.req = some r → a.rsp = none → q = none ∧ p = some ⟨a.fault, 0⟩ := by
  unfold haltedStep at h
  split at h <;> cases h
  case h_1 => exact ⟨none, some ⟨a.fault, 0⟩, rfl, fun _ _ _ => ⟨rfl, rfl⟩⟩
  case h_2 hwait => exact ⟨a.req, a.rsp, (setActive_self ha).symm, fun r hq hr => (hwait r hq hr).elim⟩

theorem perform_halted {s : State} {j : Nat} {a : Agent} (ha : s.agents[j]? = some a) (hp : a.phase = .halted) :
    perform (.agent j) s = haltedStep { s with active := j } a := by
  rw [perform_agent ha, activeStep_eq (s := { s with active := j }) ha, hp]

/-! ### Without the double-word CAS (R155) -/

/-- The state with `HAS_CAS128` false. -/
def State.withoutCas (s : State) : State := { s with params := { s.params with hasCas128 := false } }

/-- Bit 0 of `CAP` is `HAS_CAS128` (R30). -/
theorem capValue_getLsbD_zero (p : Params) : (capValue p).getLsbD 0 = p.hasCas128 := by
  unfold capValue
  cases p.hasCas128 <;> decide

/-- The first check of R142: without the double-word CAS no atomic command passes it. -/
theorem checkKind_withoutCas_atomic {k : CommandKind} (hat : k.atomic = true) (s : State) (x : Word) :
    checkKind s.withoutCas.params k x = .casUnsupported := by
  rw [checkKind_eq, if_pos ⟨hat, rfl⟩]

/-- The check of any other command does not ask for the double-word CAS. -/
theorem checkKind_withoutCas_unshared {k : CommandKind} (hat : k.atomic = false) (s : State) (x : Word) :
    checkKind s.withoutCas.params k x = checkKind s.params k x := by
  simp [checkKind_eq, hat, State.withoutCas, cellAdmitted, admits]

/-- Only an atomic command makes a CAS128, so every case of another command is there without it. -/
theorem ExecCase.withoutCas {k : CommandKind} {r : Request} {s t : State} {a : Agent} (hat : k.atomic = false)
    (h : ExecCase k r s a t) : ExecCase k r s.withoutCas a t.withoutCas := by
  cases h
  case waits hd => exact .waits hd
  case accepts q hp hq => exact checkKind_withoutCas_unshared hat s r.addr ▸ .accepts q hp hq
  case seedW0 hp hk ok => exact .seedW0 hp hk ok
  case seedW1 hp hk ok => exact .seedW1 hp hk ok
  case rd0 hp hk ok => exact .rd0 hp hk ok
  case rd1 hp hk ok => exact .rd1 hp hk ok
  case computesNext hp hk => exact .computesNext hp hk
  case computesJump hp hk => exact .computesJump hp hk
  case iterates hp hk => exact .iterates hp hk
  case swaps hatomic _ => exact absurd (hatomic.symm.trans hat) (by decide)
  case wr0 hp hk _ ok => exact .wr0 hp hk hat ok
  case wr1 hp hk _ ok => exact .wr1 hp hk hat ok
  case responds hp hr => exact .responds hp hr
  case answers q hp hq hr => exact .answers q hp hq hr

end Sys2Proof.Machine

namespace Sys2Proof.Proofs

open Sys2Proof Sys2Proof.Machine

/-- Settles O33: the agent's own step is that of HALTED, which writes its slots, and no other move but a reset
writes more of the agent. -/
theorem haltedUntilReset : Obligations.HaltedUntilReset := by
  intro s t m j a h hr ha hp
  by_cases hm : m = .agent j
  · subst hm
    rw [perform_halted ha hp] at h
    obtain ⟨q, p, rfl, hanswer⟩ := haltedStep_writes_slots (s := { s with active := j }) ha h
    exact ⟨q, p, set_active_get (s := { s with active := j }) ha _, fun _ => ⟨rfl, rfl, hanswer⟩⟩
  · obtain ⟨q, p, hb, -⟩ := others_keep_registers h hr hm ha
    exact ⟨q, p, hb, fun e => absurd e hm⟩

/-- Settles O45: the check of an atomic command fails at its first condition, and each case of the step of another
command is there without the double-word CAS. -/
theorem withoutCasOnlyAtomicCommandsFault : Obligations.WithoutCasOnlyAtomicCommandsFault := by
  intro i s a q
  refine ⟨fun hat hidle hq => ⟨?_, rfl⟩, fun hat t h => ?_, ?_⟩
  · change exec i s.withoutCas = .next (s.withoutCas.setActive _)
    have hidle' : ActiveIn s.withoutCas .idle a := hidle
    rw [exec_idle hidle' hq, checkKind_withoutCas_atomic hat, accepted_fault (by decide)]
  · obtain ⟨b, hb, hcase⟩ := exec_cases h
    exact exec_of_case (s := s.withoutCas) hb (hcase.withoutCas hat)
  · exact capValue_getLsbD_zero _

end Sys2Proof.Proofs
end

section
/-! PROOFS. Resets, the moves a step refuses (R160, R170), and the end of every command under R175's assumption. -/

namespace Sys2Proof.Machine

open Sys2Proof

/-! ### Moves the environment never makes (R170) -/

/-- The outcome is a refusal if `bad` holds and a next state if it does not; it is no fault. -/
inductive RefusedExactlyIf (bad : Prop) : Host.Outcome State Fault Refusal → Prop
  | answers (t : State) (h : ¬ bad) : RefusedExactlyIf bad (.next t)
  | refuses (x : Refusal) (h : bad) : RefusedExactlyIf bad (.refused x)

theorem RefusedExactlyIf.of_answer {bad : Prop} {o : Host.Outcome State Fault Refusal} (h : ∃ t, o = .next t)
    (hn : ¬ bad) : RefusedExactlyIf bad o := by
  obtain ⟨t, rfl⟩ := h
  exact .answers t hn

theorem RefusedExactlyIf.congr {bad bad' : Prop} {o : Host.Outcome State Fault Refusal}
    (h : RefusedExactlyIf bad o) (hiff : bad ↔ bad') : RefusedExactlyIf bad' o := propext hiff ▸ h

theorem refusedExactlyIf_ite {c : Prop} [Decidable c] (t : State) (x : Refusal) :
    RefusedExactlyIf (¬ c) (if c then .next t else .refused x) := by
  by_cases h : c
  · rw [if_pos h]
    exact .answers t (not_not_intro h)
  · rw [if_neg h]
    exact .refuses x h

/-- The block's agents are those with a number below `N_AGENTS` (R20). -/
theorem Inv.no_agent_iff {s : State} (hi : Inv s) (j : Nat) : s.agents[j]? = none ↔ s.params.nAgents ≤ j := by
  obtain ⟨-, hn, -⟩ := hi
  rw [List.getElem?_eq_none_iff, hn]

theorem Inv.agent_lt {s : State} {j : Nat} {a : Agent} (hi : Inv s) (ha : s.agents[j]? = some a) :
    ¬ s.params.nAgents ≤ j := fun h => by simp [(hi.no_agent_iff j).mpr h] at ha

theorem userAccessOk_iff (p : Params) (x : Word) (w : Width) : userAccessOk p x w = true ↔
    x.toNat % 8 + w.bytes ≤ 8 ∧ admits p (x - BitVec.ofNat 64 (x.toNat % 8)) = true := by
  simp [userAccessOk, wordBase]

theorem casAccessOk_iff (p : Params) (x : Word) : casAccessOk p x = true ↔
    p.hasCas128 = true ∧ x.toNat % 16 = 0 ∧ admits p x = true ∧ admits p (x + 8) = true := by
  simp [casAccessOk, alignedTo, secondWord, and_assoc]

/-- A move is refused exactly if it breaks R170's condition for it, and is no fault. -/
theorem perform_refusedExactlyIf {s : State} (hi : Inv s) (m : Move) :
    RefusedExactlyIf (NeverMade s m) (perform m s) := by
  cases m with
  | agent j =>
    cases ha : s.agents[j]? with
    | none =>
      simp only [perform, agentStep, ha]
      exact .refuses _ ((hi.no_agent_iff j).mp ha)
    | some a => exact .of_answer (perform_agent_answers hi ha) (hi.agent_lt ha)
  | present j r =>
    cases ha : s.agents[j]? with
    | none =>
      simp only [perform, presentMove, ha]
      exact .refuses _ (.inl ((hi.no_agent_iff j).mp ha))
    | some a =>
      cases hq : a.req with
      | none =>
        simp only [perform, presentMove, ha, hq]
        exact .answers _ (by simp [NeverMade, hi.agent_lt ha, ha, hq])
      | some q =>
        simp only [perform, presentMove, ha, hq]
        exact .refuses _ (.inr ⟨a, q, ha, hq⟩)
  | take j =>
    cases ha : s.agents[j]? with
    | none =>
      simp only [perform, takeMove, ha]
      exact .refuses _ (.inl ((hi.no_agent_iff j).mp ha))
    | some a =>
      cases hr : a.rsp with
      | none =>
        simp only [perform, takeMove, ha, hr]
        exact .refuses _ (.inr ⟨a, ha, hr⟩)
      | some p =>
        simp only [perform, takeMove, ha, hr]
        exact .answers _ (by simp [NeverMade, hi.agent_lt ha, ha, hr])
  | sample j reg =>
    cases ha : s.agents[j]? with
    | none =>
      simp only [perform, sampleMove, ha]
      exact .refuses _ ((hi.no_agent_iff j).mp ha)
    | some a =>
      simp only [perform, sampleMove, ha]
      exact .answers _ (hi.agent_lt ha)
  | userRead u x w => exact (refusedExactlyIf_ite _ _).congr (not_congr (userAccessOk_iff s.params x w))
  | userWrite u x w v => exact (refusedExactlyIf_ite _ _).congr (not_congr (userAccessOk_iff s.params x w))
  | userCas u x e n => exact (refusedExactlyIf_ite _ _).congr (not_congr (casAccessOk_iff s.params x))
  | reset => exact .answers _ id

/-- With no move in the list the default order's agent steps, or nothing happens (log 5). -/
theorem defaultStep_answers {s : State} (hi : Inv s) : ∃ t, defaultStep s = .next t := by
  unfold defaultStep
  split
  case h_1 j hj =>
    obtain ⟨hlt, -⟩ := List.findIdx?_eq_some_iff_getElem.mp hj
    exact perform_agent_answers hi (List.getElem?_eq_getElem hlt)
  case h_2 => exact ⟨s, rfl⟩

theorem step_refusedExactlyIf {s : State} (hi : Inv s) :
    RefusedExactlyIf (∃ m ms, s.moves = m :: ms ∧ NeverMade s m) (step s) := by
  unfold step runStep
  split
  case h_1 hm => exact .of_answer (defaultStep_answers hi) (by simp [hm])
  case h_2 m ms hm =>
    refine (perform_refusedExactlyIf (s := { s with moves := ms }) hi m).congr ?_
    constructor
    · exact fun h => ⟨m, ms, hm, h⟩
    · rintro ⟨m', ms', hm', h⟩
      cases hm.symm.trans hm'
      exact h

/-! ### The end of a command (R121, R175) -/

/-- In RESP an agent's step is that of R121, whatever its request is. -/
theorem perform_resp {s : State} {j : Nat} {a : Agent} (ha : s.agents[j]? = some a) (hp : a.phase = .resp) :
    perform (.agent j) s = respStep { s with active := j } a := by
  rw [perform_agent ha, activeStep_busy (s := { s with active := j }) ha (by rw [hp]; rfl), busyStep]
  split
  case h_1 => exact exec_resp ⟨ha, hp⟩
  case h_2 => exact if_pos hp

/-- Move `m` of the run ends the command of agent `j`: a reset, or the RESP step that answers it. -/
def Run.EndsAt (r : Run) (j m : Nat) : Prop :=
  r.move m = .reset ∨
    ∃ b c, r.move m = .agent j ∧ r.agent m j = some b ∧ b.phase = .resp ∧ b.rsp = none ∧
      r.agent (m + 1) j = some c ∧ c.rsp = some (responseOf b) ∧ c.busy = false

theorem Run.endsAt_resp {r : Run} {j m : Nat} {b : Agent} (hl : r.Legal) (hm : r.move m = .agent j)
    (hb : r.agent m j = some b) (hp : b.phase = .resp) (hr : b.rsp = none) : r.EndsAt j m := by
  have h := hl m
  rw [hm, perform_resp hb hp] at h
  simp only [respStep, hr] at h
  have hc := set_active_get (s := { r.state m with active := j }) hb
    { b with rsp := some (responseOf b), busy := false, phase := if b.fault = 0 then .idle else .halted }
  have hnext := congrArg (fun s : State => s.agents[j]?) (Host.Outcome.next.inj h).symm
  exact .inr ⟨b, _, hm, hb, hp, hr, hnext.trans hc, rfl, rfl⟩

/-- A move that does not end the command of agent `j` leaves it in RESP if it is there. -/
theorem Run.stays_in_resp {r : Run} {j m : Nat} {b : Agent} (hl : r.Legal) (hb : r.agent m j = some b)
    (hp : b.phase = .resp) (he : ¬ r.EndsAt j m) : ∃ c, r.agent (m + 1) j = some c ∧ c.phase = .resp := by
  by_cases hm : r.move m = .agent j
  · cases hr : b.rsp with
    | none => exact absurd (Run.endsAt_resp hl hm hb hp hr) he
    | some p =>
      have h := hl m
      rw [hm, perform_resp hb hp] at h
      simp only [respStep, hr] at h
      exact ⟨b, by rw [Run.agent, ← Host.Outcome.next.inj h]; exact hb, hp⟩
  · obtain ⟨q, p, hc, -⟩ := others_keep_registers (hl m) (fun e => he (.inl e)) hm hb
    exact ⟨_, hc, hp⟩

theorem busyPhase_ne_idle {a : Agent} (h : busyPhase a.phase = true) : a.phase ≠ .idle := fun hp => by
  simp [hp, busyPhase] at h

/-- Before RESP every move but a reset leaves the agent in its command (R28). -/
theorem perform_keeps_busy {s t : State} {m : Move} {j : Nat} {a b : Agent} (hi : Inv s)
    (h : perform m s = .next t) (hr : m ≠ .reset) (ha : s.agents[j]? = some a) (hb : t.agents[j]? = some b)
    (hbusy : busyPhase a.phase = true) (hp : a.phase ≠ .resp) : busyPhase b.phase = true := by
  by_cases hm : m = .agent j
  · subst hm
    have hidle := busyPhase_ne_idle hbusy
    obtain ⟨k, r, hc⟩ := perform_agent_case h ha hidle
    have hf : RegisterFrame a b := (hc.frame ha).active (s := { s with active := j }) ha hb
    rw [← ((perform_keeps_inv hi h).agent hb).busy_eq, hf.busy hidle hp, (hi.agent ha).busy_eq, hbusy]
  · obtain ⟨q, p, hb', -⟩ := others_keep_registers h hr hm ha
    cases hb.symm.trans hb'
    exact hbusy

/-- A move that does not end the command of agent `j` leaves it in that command. -/
theorem Run.InOneCommand.succ {r : Run} {j n m : Nat} (hi : Inv (r.state 0)) (hl : r.Legal) (hnm : n ≤ m)
    (hc : r.InOneCommand j n m) (he : ¬ r.EndsAt j m) : r.InOneCommand j n (m + 1) := by
  obtain ⟨a, ha, hall⟩ := hc
  refine ⟨a, ha, fun p hnp hpm => ?_⟩
  obtain hpm | rfl := Nat.le_succ_iff.mp hpm
  · exact hall p hnp hpm
  obtain ⟨b, hb, hbusy, hlb⟩ := hall m hnm le_rfl
  have hr : r.move m ≠ .reset := fun e => he (.inl e)
  obtain ⟨c, hc⟩ := perform_keeps_agent (hl m) hb
  refine ⟨c, hc, ?_, (perform_keeps_latched (hl m) hr hb (busyPhase_ne_idle hbusy) hc).trans hlb⟩
  by_cases hp : b.phase = .resp
  · obtain ⟨c', hc', hpc⟩ := Run.stays_in_resp hl hb hp he
    cases hc.symm.trans hc'
    rw [hpc]
    rfl
  · exact perform_keeps_busy (Run.inv hi hl m) (hl m) hr hb hc hbusy hp

/-! ### A command that never ends -/

/-- From `n` on agent `j` works on one command, which no move ends. -/
def Run.NeverEnds (r : Run) (j n : Nat) : Prop := ∀ m, n ≤ m → r.InOneCommand j n m ∧ ¬ r.EndsAt j m

/-- A command ends after finitely many moves in it, or never. -/
theorem Run.ends_or_neverEnds {r : Run} {j n : Nat} {a : Agent} (hi : Inv (r.state 0)) (hl : r.Legal)
    (ha : r.agent n j = some a) (hb : busyPhase a.phase = true) :
    (∃ m, n ≤ m ∧ r.InOneCommand j n m ∧ r.EndsAt j m) ∨ r.NeverEnds j n := by
  refine or_iff_not_imp_left.mpr fun hnot => ?_
  have hin (m : Nat) (hm : n ≤ m) : r.InOneCommand j n m := by
    induction m, hm using Nat.le_induction with
    | base =>
      refine ⟨a, ha, fun p hnp hpn => ?_⟩
      cases Nat.le_antisymm hnp hpn
      exact ⟨a, ha, hb, rfl⟩
    | succ m hm ih => exact ih.succ hi hl hm fun he => hnot ⟨m, hm, ih, he⟩
  exact fun m hm => ⟨hin m hm, fun he => hnot ⟨m, hm, hin m hm, he⟩⟩

theorem Run.NeverEnds.agent {r : Run} {j n : Nat} {a : Agent} (h : r.NeverEnds j n) (ha : r.agent n j = some a)
    {m : Nat} (hm : n ≤ m) :
    ∃ b, r.agent m j = some b ∧ busyPhase b.phase = true ∧ latched b = latched a := by
  obtain ⟨a', ha', hall⟩ := (h m hm).1
  cases ha.symm.trans ha'
  exact hall m hm le_rfl

/-- Inside a command only a full RSP takes an agent's step away, and only in RESP (R123). -/
theorem enabled_iff_of_busy {a : Agent} (hb : busyPhase a.phase = true) :
    enabled a = true ↔ (a.phase = .resp → a.rsp = none) := by
  unfold enabled
  cases hp : a.phase <;> simp [hp, busyPhase] at hb ⊢

/-- Agent `j` takes an enabled step of a command that never ends, and until then keeps its registers. -/
theorem Run.NeverEnds.own_step {r : Run} {j n : Nat} (h : r.NeverEnds j n) (hl : r.Legal) (hfair : WeaklyFair r)
    {m : Nat} {b : Agent} (hm : n ≤ m) (hb : r.agent m j = some b) (hbusy : busyPhase b.phase = true)
    (hen : enabled b = true) :
    ∃ m' q p, m ≤ m' ∧ r.move m' = .agent j ∧ r.agent m' j = some { b with req := q, rsp := p } ∧
      (b.rsp = none → p = none) := by
  have held (d : Nat) (hd : ∀ x, m ≤ x → x < m + d → r.move x ≠ .agent j) :=
    Run.held hl hb d fun x hx hx' => ⟨hd x hx hx', fun e => (h x (hm.trans hx)).2 (.inl e)⟩
  by_cases hex : ∃ d, r.move (m + d) = .agent j
  · obtain ⟨q, p, hc, hp⟩ := held (Nat.find hex) fun x hx hx' e =>
      Nat.find_min hex (m := x - m) (by omega) (by rwa [Nat.add_sub_cancel' hx])
    exact ⟨_, q, p, Nat.le_add_right _ _, Nat.find_spec hex, hc, hp⟩
  · -- no step of its own, no reset: the agent stays enabled, against the fairness
    have hno (x : Nat) (hx : m ≤ x) : r.move x ≠ .agent j := fun e =>
      hex ⟨x - m, by rwa [Nat.add_sub_cancel' hx]⟩
    obtain ⟨x, c, hx, hc, hstop⟩ := hfair m j b hb hen
    have hdis : enabled c = false := hstop.resolve_left (hno x hx)
    obtain ⟨q, p, hc', hp⟩ := held (x - m) fun y hy _ => hno y hy
    rw [Nat.add_sub_cancel' hx] at hc'
    cases hc.symm.trans hc'
    have hstill := (enabled_iff_of_busy (a := { b with req := q, rsp := p }) hbusy).mpr fun hpb =>
      hp ((enabled_iff_of_busy hbusy).mp hen hpb)
    rw [hdis] at hstill
    cases hstill

/-- A command that never ends does not come to RESP: its caller empties RSP, and the RESP step is then taken. -/
theorem Run.NeverEnds.not_resp {r : Run} {j n : Nat} (h : r.NeverEnds j n) (hl : r.Legal) (hfair : WeaklyFair r)
    (htake : CallersTake r) {m : Nat} {b : Agent} (hm : n ≤ m) (hb : r.agent m j = some b) : b.phase ≠ .resp := by
  intro hp
  have stays (x : Nat) (hx : m ≤ x) : ∃ c, r.agent x j = some c ∧ c.phase = .resp := by
    induction x, hx using Nat.le_induction with
    | base => exact ⟨b, hb, hp⟩
    | succ x hx ih =>
      obtain ⟨c, hc, hpc⟩ := ih
      exact Run.stays_in_resp hl hc hpc (h x (hm.trans hx)).2
  obtain ⟨x, c, hx, hc, hr⟩ := htake m j b hb
  obtain ⟨c', hc', hpc⟩ := stays x hx
  cases hc.symm.trans hc'
  have hbusy : busyPhase c.phase = true := by rw [hpc]; rfl
  obtain ⟨y, q, p, hxy, hmove, hd, hrd⟩ := h.own_step hl hfair (hm.trans hx) hc hbusy
    ((enabled_iff_of_busy hbusy).mpr fun _ => hr)
  exact (h y (hm.trans (hx.trans hxy))).2 (Run.endsAt_resp hl hmove hd hpc (hrd hr))

/-! ### Unshared commands come to RESP -/

/-- An upper bound of the steps of an unshared command to its RESP. -/
def respLeft (a : Agent) : Nat :=
  match a.phase with
  | .rd0 | .rd1 | .compute | .jiter => roundLeft a + 2
  | .seedW0 | .wr0 => 2
  | .seedW1 | .wr1 => 1
  | .idle | .cas | .resp | .halted => 0

theorem respLeft_withCandidate {a : Agent} (h : 2 < respLeft a) (atomic : Bool) (c : GenState) (out : Word)
    (d : Agent) : respLeft (withCandidate atomic c out d) < respLeft a := by
  cases atomic
  case false => exact h
  case true => exact Nat.zero_lt_of_lt h

theorem respLeft_iterated {a : Agent} (hp : a.phase = .jiter) (k : CommandKind) :
    respLeft (iterated k a) < respLeft a := by
  have hlt : a.k.toNat < 256 := a.k.isLt
  unfold iterated
  split
  case isTrue h =>
    have hk1 : (a.k + 1).toNat = a.k.toNat + 1 := by bv_omega
    simp only [respLeft, roundLeft, withJumpRegs, hp, hk1]
    omega
  case isFalse h =>
    refine respLeft_withCandidate ?_ _ _ _ _
    simp only [respLeft, roundLeft, hp]
    omega

/-- Outside CAS and RESP each step of a command brings it nearer to RESP. -/
theorem ExecCase.nearer_resp {k : CommandKind} {r : Request} {s t : State} {a : Agent}
    (hb : busyPhase a.phase = true) (hp : a.phase ≠ .resp) (hcas : a.phase ≠ .cas) (h : ExecCase k r s a t) :
    Updates (fun b => respLeft b < respLeft a) s t := by
  cases h
  case waits hd => exact absurd ((enabled_iff_of_busy hb).mpr fun e => absurd e hp) (by simp [hd])
  case seedW0 hp' _ _ | seedW1 hp' _ _ | rd0 hp' _ _ | rd1 hp' _ _ | wr0 hp' _ _ _ | wr1 hp' _ _ _ =>
    exact updates_setActive (by simp [respLeft, roundLeft, hp'])
  case computesNext hp' hk =>
    exact updates_setActive (respLeft_withCandidate (by simp [respLeft, roundLeft, hp']) _ _ _ _)
  case computesJump hp' hk => exact updates_setActive (by simp [respLeft, roundLeft, computedJump, hp'])
  case iterates hp' hk => exact updates_setActive (respLeft_iterated hp' k)
  case swaps hp' _ _ _ => exact absurd hp' hcas
  case responds hp' _ => exact absurd hp' hp
  case accepts hp' _ | answers hp' _ _ => simp [hp', busyPhase] at hb

/-- Inside the command of kind `k`, before RESP. -/
structure AtWork (k : CommandKind) (a : Agent) : Prop where
  kind : decodeCmd a.cmdr = .ok k
  busy : busyPhase a.phase = true
  not_resp : a.phase ≠ .resp
  meets : PhaseMeets k a

theorem AtWork.roundPhase {k : CommandKind} {a : Agent} (h : AtWork k a) (hat : k.atomic = true) :
    roundPhase a.phase = true := by
  have shared (hp : a.phase = .seedW0 ∨ a.phase = .seedW1 ∨ a.phase = .wr0 ∨ a.phase = .wr1) : False := by
    rw [h.meets.not_atomic h.kind hp] at hat
    cases hat
  cases hp : a.phase
  case idle | halted => exact absurd h.busy (by simp [hp, busyPhase])
  case resp => exact absurd hp h.not_resp
  case seedW0 | seedW1 | wr0 | wr1 => exact (shared (by simp [hp])).elim
  all_goals rfl

theorem AtWork.not_cas {k : CommandKind} {a : Agent} (h : AtWork k a) (hat : k.atomic = false) :
    a.phase ≠ .cas := by
  intro hp
  obtain ⟨-, hatomic, -⟩ : k.op ≠ .seed ∧ k.atomic = true ∧ Computed k a := by
    simpa only [PhaseMeets, hp] using h.meets
  rw [hat] at hatomic
  cases hatomic

/-- A command that never ends is one that passed its check, and is before its RESP for ever. -/
theorem Run.NeverEnds.atWork {r : Run} {j n : Nat} {a : Agent} (h : r.NeverEnds j n) (hi : Inv (r.state 0))
    (hl : r.Legal) (hfair : WeaklyFair r) (htake : CallersTake r) (ha : r.agent n j = some a) :
    ∃ k, ∀ m, n ≤ m → ∃ b, r.agent m j = some b ∧ AtWork k b := by
  have command (m : Nat) (hm : n ≤ m) : ∃ k b, r.agent m j = some b ∧ latched b = latched a ∧ AtWork k b := by
    obtain ⟨b, hb, hbusy, hlb⟩ := h.agent ha hm
    have hp := h.not_resp hl hfair htake hm hb
    obtain ⟨-, k, hk, -, hmeets⟩ := ((Run.inv hi hl m).agent hb).command hbusy hp
    exact ⟨k, b, hb, hlb, hk, hbusy, hp, hmeets⟩
  obtain ⟨k, a', ha', -, hk⟩ := command n le_rfl
  cases ha.symm.trans ha'
  refine ⟨k, fun m hm => ?_⟩
  obtain ⟨k', b, hb, hlb, hw⟩ := command m hm
  have hkind := hw.kind
  rw [(latched_fields hlb).1, hk.kind] at hkind
  cases hkind
  exact ⟨b, hb, hw⟩

/-- No unshared command goes on for ever: each of its steps brings it nearer to RESP. -/
theorem Run.NeverEnds.atomic {r : Run} {j n : Nat} {k : CommandKind} (h : r.NeverEnds j n) (hl : r.Legal)
    (hfair : WeaklyFair r) (hwork : ∀ m, n ≤ m → ∃ b, r.agent m j = some b ∧ AtWork k b) : k.atomic = true := by
  by_contra hat
  rw [Bool.not_eq_true] at hat
  have descends (d : Nat) : ∀ m b, n ≤ m → r.agent m j = some b → ¬ respLeft b < d := by
    induction d with
    | zero => exact fun _ _ _ _ => Nat.not_lt_zero _
    | succ d ih =>
      intro m b hm hb hd
      obtain ⟨b', hb', hw⟩ := hwork m hm
      cases hb.symm.trans hb'
      obtain ⟨x, q, p, hx, hmove, hc, -⟩ := h.own_step hl hfair hm hb hw.busy
        ((enabled_iff_of_busy hw.busy).mpr fun hp => absurd hp hw.not_resp)
      have hstep := hl x
      rw [hmove] at hstep
      obtain ⟨b', hb', hw'⟩ := hwork x (hm.trans hx)
      cases hc.symm.trans hb'
      obtain ⟨c, hcn, -⟩ := hwork (x + 1) (by omega)
      obtain ⟨k', r', hcase⟩ := perform_agent_case hstep hc (busyPhase_ne_idle hw'.busy)
      have hlt : respLeft c < respLeft b :=
        (hcase.nearer_resp hw'.busy hw'.not_resp (hw'.not_cas hat)).active
          (s := { r.state x with active := j }) hc hcn
      exact ih (x + 1) c (by omega) hcn (by omega)
  obtain ⟨b, hb, -⟩ := hwork n le_rfl
  exact descends _ n b le_rfl hb (Nat.lt_succ_self _)

/-- Under R175's assumption every command ends: an unshared one by its own steps, an atomic one by the CAS128 of its
quiet window. -/
theorem Run.not_neverEnds {r : Run} {j n : Nat} {a : Agent} (hi : Inv (r.state 0)) (hl : r.Legal)
    (hfair : WeaklyFair r) (hquiet : EventuallyQuiet r) (htake : CallersTake r) (ha : r.agent n j = some a) :
    ¬ r.NeverEnds j n := by
  intro h
  obtain ⟨k, hwork⟩ := h.atWork hi hl hfair htake ha
  have hat : k.atomic = true := h.atomic hl hfair hwork
  obtain ⟨a', ha', hw⟩ := hwork n le_rfl
  cases ha.symm.trans ha'
  obtain ⟨m, m', hnm, hwindow, hq⟩ := hquiet n j a k ha hw.kind hat fun p hp => by
    obtain ⟨b, hb, hwb⟩ := hwork p hp
    exact ⟨b, hb, hwb.roundPhase hat⟩
  obtain ⟨b, hb, -, hlb⟩ := h.agent ha hnm
  rw [← (latched_fields hlb).2] at hq
  obtain ⟨c, -, -, hc, hpc, -⟩ := Proofs.quietWindowCommits r j m m' b hi hl hwindow hb hq
  have hmm' : m < m' := hwindow.1
  exact h.not_resp hl hfair htake (by omega) hc hpc

end Sys2Proof.Machine

namespace Sys2Proof.Proofs

open Sys2Proof Sys2Proof.Machine

/-- Settles O53: every agent holds its reset registers. -/
theorem resetAbandonsEveryCommand : Obligations.ResetAbandonsEveryCommand := by
  refine fun s => ⟨_, rfl, rfl, rfl, rfl, List.length_mapIdx, fun b hb => ?_⟩
  obtain ⟨j, -, rfl⟩ := List.mem_mapIdx.mp hb
  exact ⟨rfl, rfl, rfl, rfl, rfl, rfl, rfl⟩

/-- Settles O32: the step's outcome is a refusal exactly if the due move breaks R170's condition, and a next state
otherwise. -/
theorem stepRefusesOnlyTheEnvironment : Obligations.StepRefusesOnlyTheEnvironment := by
  intro s hi
  have h := step_refusedExactlyIf hi
  generalize step s = o at h ⊢
  cases h
  case answers t h =>
    exact ⟨by simp, iff_of_false (by simp) h, iff_of_true ⟨t, rfl⟩ fun m ms hm hn => h ⟨m, ms, hm, hn⟩⟩
  case refuses x h =>
    obtain ⟨m, ms, hm, hn⟩ := h
    exact ⟨by simp, iff_of_true ⟨x, rfl⟩ ⟨m, ms, hm, hn⟩, iff_of_false (by simp) fun hall => hall m ms hm hn⟩

/-- Settles O42: a command either ends by a move in it or goes on for ever, and the fair run excludes the latter. -/
theorem fairRunsEndEveryCommand : Obligations.FairRunsEndEveryCommand := by
  intro r n j a hi hl hfair hquiet htake ha hb
  exact (Run.ends_or_neverEnds hi hl ha hb).resolve_right (Run.not_neverEnds hi hl hfair hquiet htake ha)

end Sys2Proof.Proofs
end
